-- ==== Sys2Proof/Word.lean ====
section
/-! DEFINITION. The word types of the LZ77X engine: the widths spec/00_scope.md R7 and spec/10_state.md R20 to R31
give bytes, index and length registers, hashes, offsets and length fields. -/

namespace Sys2Proof

/-- A byte of IN or OUT: 8 bits, bit 7 the most significant (R9). -/
abbrev Byte := BitVec 8

/-- An index or length register and a table entry: `LEN_W` = 32 bits (R7, R20). -/
abbrev Word := BitVec 32

/-- A hash: 16 bits, exactly the index range of HEAD (R22, R30). -/
abbrev HashVal := BitVec 16

/-- A match offset: 16 bits (R22, R23, R92). -/
abbrev OffField := BitVec 16

/-- A token's length field: 7 bits (R23, R91, R92). -/
abbrev LenField := BitVec 7

end Sys2Proof
end

