-- ==== Sys2Proof/Config.lean ====
section
/-! DEFINITION. What is fixed for one engine: the parameters of spec/00_scope.md R6 and R7, and the type of the one
parameter the spec leaves open, `HASH_FN`. The spec leaves no VALUE of a running machine open, so there is no opaque
free value here. -/

namespace Sys2Proof.Config

/-- `WINDOW`: the greatest distance back from the cursor to a match source (R6, R37). -/
@[simp] def window : Nat := 65535

/-- `TABLE_SIZE`: the number of entries of HEAD and of CHAIN (R6, R30, R31). -/
@[simp] def tableSize : Nat := 65536

/-- `HASH_BYTES`: the number of input bytes hashed (R6). -/
@[simp] def hashBytes : Nat := 3

/-- `MIN_MATCH`: the least match length the encoder emits (R6, R146). -/
@[simp] def minMatch : Nat := 4

/-- `MAX_LEN`: the greatest literal run and match length (R6). -/
@[simp] def maxLen : Nat := 127

/-- `MATCH_BYTES`: the encoded size of a match token (R6, R92). -/
@[simp] def matchBytes : Nat := 3

/-- `ENC_BOUND_FACTOR`: OUT must hold at least this many times `IN_LEN` for ENCODE (R6, R230). -/
@[simp] def encBoundFactor : Nat := 2

/-- `LEN_W`: the width of every index and length register (R7); `Word` is `BitVec 32`. -/
@[simp] def lenW : Nat := 32

/-- The greatest value a `LEN_W` register holds, `2^LEN_W - 1`: PROBE's `LIMIT` (R203). -/
@[simp] def maxWord : Nat := 4294967295

/-- `INIT_BEST_LEN`: the MatchFinder's starting best length (R7, R141). -/
@[simp] def initBestLen : Nat := 1

/-- The longest token: a header and 127 payload bytes (R90). -/
@[simp] def maxTokenBytes : Nat := 128

/-- `HASH_FN` as a type: any total function of three bytes into `0..65535` (R7, R122). The operations of the encode
side take it as an argument, so that a claim can be stated for every `HASH_FN` (R8); `exec` gives them the decided
default `Machine.hashFn`. -/
abbrev HashFn := Byte → Byte → Byte → HashVal

end Sys2Proof.Config
end

