-- ==== Sys2Proof/Syntax.lean ====
section
/-! DEFINITION. The instructions: one constructor per row of spec/opcode_table.json. Three kinds (spec/INDEX.md):
tokens and the reserved token encodings, host commands, and the encode side's unencoded micro-operations (R107). -/

namespace Sys2Proof

/-- The instructions of the LZ77X engine. Only the machine gives them meaning. -/
inductive Instr where
  /-- `LIT n, b0 … b(n-1)`: a literal run; the payload's length is the `len` field (R91, R192). -/
  | lit (bytes : List Byte)
  /-- `MATCH len, off`: copy `len` bytes from `off` bytes back (R92, R193). -/
  | matchTok (len : LenField) (off : OffField)
  /-- Header `0x00`: a literal run of length 0, reserved (R99). -/
  | reservedLit0
  /-- Header `0x80`: a match of length 0, reserved, decided on the header alone (R100). -/
  | reservedMatch0
  /-- A match with offset 0, reserved (R101). -/
  | reservedOff0 (len : LenField)
  /-- `CMD.op` = 0: reserved, no effect (R227). -/
  | cmdReserved
  /-- `CMD.op` = 1: compress IN into OUT (R221). -/
  | encode
  /-- `CMD.op` = 2: interpret the token stream in IN, writing OUT (R222). -/
  | decode
  /-- `CMD.op` = 3: interpret the token stream in IN, measuring only (R223). -/
  | probe
  /-- `HASH(p)` (R122). -/
  | hash (p : Word)
  /-- `LOOKUP(h)` (R124). -/
  | lookup (h : HashVal)
  /-- `CHAINOF(p)` (R125). -/
  | chainOf (p : Word)
  /-- `INSERT(p)` (R126). -/
  | insert (p : Word)
  /-- `FIND(i)` (R140). -/
  | find (i : Word)
  /-- `ENCSTEP`: one decision of the encoder at its cursor (R161). -/
  | encStep
  /-- `FLUSH`: emit the pending literal run (R168). -/
  | flush
  /-- `EMITMATCH(len, off)` (R169). -/
  | emitMatch (len : LenField) (off : OffField)
  deriving DecidableEq, Repr

end Sys2Proof
end

