-- ==== Sys2Proof/WellFormed.lean ====
section
/-! DEFINITION. Which terms of `Instr` are instructions: the ranges the spec gives their fields, those that do not
depend on the state (R91, R92, R101, R103, R169). -/

namespace Sys2Proof

/-- The ranges of an instruction's fields. A literal run holds 1 to 127 bytes (R91); a match has a length 1 to 127
and an offset 1 to 65535 (R92); `EMITMATCH` takes a length 4 to 127 and an offset 1 to 65535 (R169). Every other
operand is legal at every value of its width; conditions that name the state (such as `p + 2 < IN_LEN`, R121) are the
machine's. -/
def Instr.wf : Instr → Bool
  | .lit bytes => 1 ≤ bytes.length && bytes.length ≤ Config.maxLen
  | .matchTok len off => len != 0#7 && off != 0#16
  | .reservedLit0 => true
  | .reservedMatch0 => true
  | .reservedOff0 len => len != 0#7
  | .cmdReserved => true
  | .encode => true
  | .decode => true
  | .probe => true
  | .hash _ => true
  | .lookup _ => true
  | .chainOf _ => true
  | .insert _ => true
  | .find _ => true
  | .encStep => true
  | .flush => true
  | .emitMatch len off => Config.minMatch ≤ len.toNat && off != 0#16

end Sys2Proof
end

