-- ==== Sys2Proof/Decode.lean ====
section
/-! DEFINITION. The token decoder, total on any bytes and rejecting by name, the decoder of the CMD register's `op`
field, and after them the encoder, all from the tables of spec/30_encoding.md (R90 to R104). The micro-operations have
no binary encoding (R107). -/

namespace Sys2Proof

/-! ### Header fields -/

/-- Bit 7 of a header byte: 0 literal run, 1 match (R90). -/
def headerIsMatch (hdr : Byte) : Bool := hdr.getLsbD 7

/-- `hdr[6:0]`, the length field, never scaled or biased (R94). -/
def headerLen (hdr : Byte) : LenField := hdr.setWidth 7

/-- The header byte of a literal run of the given length (R91). -/
def litHeader (len : LenField) : Byte := len.setWidth 8

/-- The header byte of a match of the given length, `0x80 | len` (R92, R96). -/
def matchHeader (len : LenField) : Byte := 0x80#8 ||| len.setWidth 8

/-- The 16-bit offset from its two bytes, the high byte first (R64, R95). -/
def offsetOf (hi lo : Byte) : OffField := hi ++ lo

/-- `off >> 8`, the first offset byte (R96). -/
def offsetHi (off : OffField) : Byte := off.extractLsb' 8 8

/-- `off & 0xFF`, the second offset byte (R96). -/
def offsetLo (off : OffField) : Byte := off.setWidth 8

/-- A token's whole length in bytes, known from its header alone (R97): 3 for a match, `1 + hdr[6:0]` for a literal
run. -/
def tokenBytes (hdr : Byte) : Nat :=
  if headerIsMatch hdr then Config.matchBytes else 1 + (headerLen hdr).toNat

/-! ### Decoding -/

/-- Why the bytes at hand are no token. -/
inductive Reject where
  /-- There is no header byte. -/
  | noHeader
  /-- A literal run's payload runs past the last byte (R198). -/
  | truncatedLiteral (len : LenField)
  /-- A match's offset bytes are not both there (R199). -/
  | truncatedMatch (len : LenField)
  deriving DecidableEq, Repr

/-- What decoding answers: an instruction and the bytes after it, or why there is none. -/
inductive Decoded where
  | ok (i : Instr) (rest : List Byte)
  | reject (r : Reject)
  deriving DecidableEq, Repr

/-- The token at the head of a byte string (R98), its tests in the order of R200: a zero length on the header alone,
then whether the token is all there, then a zero offset. -/
def decodeToken : List Byte → Decoded
  | [] => .reject .noHeader
  | hdr :: rest =>
    let len := headerLen hdr
    if len = 0#7 then
      .ok (if headerIsMatch hdr then .reservedMatch0 else .reservedLit0) rest
    else if headerIsMatch hdr then
      match rest with
      | hi :: lo :: rest' =>
        .ok (if offsetOf hi lo = 0#16 then .reservedOff0 len else .matchTok len (offsetOf hi lo)) rest'
      | _ => .reject (.truncatedMatch len)
    else if rest.length < len.toNat then
      .reject (.truncatedLiteral len)
    else
      .ok (.lit (rest.take len.toNat)) (rest.drop len.toNat)

/-- The host command a value of `CMD.op` names (R27, R104). -/
def decodeCmd (op : BitVec 2) : Instr :=
  if op = 1#2 then .encode else if op = 2#2 then .decode else if op = 3#2 then .probe else .cmdReserved

/-- A whole token stream, token after token with nothing between them (R65, R97); `fuel` bounds the number of tokens.
Answers the tokens when the last one ends exactly at the end of the bytes. -/
def decodeStream : Nat → List Byte → Option (List Instr)
  | _, [] => some []
  | 0, _ :: _ => none
  | fuel + 1, b :: bs =>
    match decodeToken (b :: bs) with
    | .ok i rest => (decodeStream fuel rest).map (i :: ·)
    | .reject _ => none

/-- The bytes of an `nbits` wide word of spec/opcode_table.json, in stream order. The table numbers a token's bits with
byte 0 MOST significant (rows MATCH and RESERVED_OFF0: "bit 23 of the 24-bit word, byte 0 most significant"; R92), so
the first byte is the word's top byte. -/
def tableBytes : Nat → Nat → List Byte
  | 0, _ => []
  | n + 1, w => BitVec.ofNat 8 (w / 256 ^ n) :: tableBytes n w

/-- The bytes of a table word followed by zeros, as long as the longest token. -/
def tableToken (nbits w : Nat) : List Byte :=
  tableBytes (nbits / 8) w ++ List.replicate (Config.maxTokenBytes - nbits / 8) 0#8

/-- Whether a table word is a value of `CMD.op` and not the bytes of a token. The table gives the commands 2 bits, a byte
where bits are counted in whole bytes; the byte words 1, 2 and 3 are then taken as the commands, which have no other
word, and not as the headers of the three shortest literal runs, which still have their words of 16 bits and more. The
byte word 0 stays the reserved header (log entry 5). -/
def isCommandWord (nbits w : Nat) : Bool := nbits < 8 || (nbits == 8 && 0 < w && w < 4)

/-- The instruction a table word stands for: a value of `CMD.op`, or the first bytes of a token. No bits at all stand
for none: the micro-operations have no word (R107). -/
def decodeTableWord (nbits w : Nat) : Option Instr :=
  if nbits = 0 then none
  else if isCommandWord nbits w then some (decodeCmd (BitVec.ofNat 2 w))
  else
    match decodeToken (tableToken nbits w) with
    | .ok i _ => some i
    | .reject _ => none

/-! ### Encoding -/

/-- The encoded form of an instruction: a token's bytes, or a value of `CMD.op`. -/
inductive Encoded where
  | token (bytes : List Byte)
  | command (op : BitVec 2)
  deriving DecidableEq, Repr

/-- The bytes of a literal run: its length, then its payload (R91, R96). -/
def encodeLit (bytes : List Byte) : List Byte := litHeader (BitVec.ofNat 7 bytes.length) :: bytes

/-- The three bytes of a match (R92, R96). -/
def encodeMatch (len : LenField) (off : OffField) : List Byte := [matchHeader len, offsetHi off, offsetLo off]

/-- The encoding of an instruction; none for a micro-operation, which has no encoding (R107). -/
def encode : Instr → Option Encoded
  | .lit bytes => some (.token (encodeLit bytes))
  | .matchTok len off => some (.token (encodeMatch len off))
  | .reservedLit0 => some (.token [0x00#8])
  | .reservedMatch0 => some (.token [0x80#8])
  | .reservedOff0 len => some (.token (encodeMatch len 0#16))
  | .cmdReserved => some (.command 0#2)
  | .encode => some (.command 1#2)
  | .decode => some (.command 2#2)
  | .probe => some (.command 3#2)
  | .hash _ => none
  | .lookup _ => none
  | .chainOf _ => none
  | .insert _ => none
  | .find _ => none
  | .encStep => none
  | .flush => none
  | .emitMatch _ _ => none

/-- The bytes of a token; none for anything that is no token. -/
def tokenEncoding (i : Instr) : Option (List Byte) :=
  match encode i with
  | some (.token bytes) => some bytes
  | _ => none

/-- A token stream is the concatenation of its tokens' encodings (R65); what is no token adds nothing. -/
def encodeStream (is : List Instr) : List Byte := is.flatMap fun i => (tokenEncoding i).getD []

end Sys2Proof
end

