-- ==== Sys2Proof/Machine/Flags.lean ====
section
/-! DEFINITION. The codes of the registers the host reads and writes: STATUS (R28), CMD.op (R27, R104), FAULT_KIND
(R241) and FAULT_CAUSE (R242, R243). The engine has no arithmetic flags (R25). -/

namespace Sys2Proof.Machine

/-! ### STATUS: bit 0 BUSY, bit 1 DONE, bit 2 FAULT (R28) -/

@[simp] def statusIdle : BitVec 3 := 0b000#3
@[simp] def statusBusy : BitVec 3 := 0b001#3
@[simp] def statusDone : BitVec 3 := 0b010#3
@[simp] def statusFault : BitVec 3 := 0b100#3

/-- The four patterns STATUS holds; the other four never occur (R28, R40). -/
abbrev legalStatus (st : BitVec 3) : Prop :=
  st = statusIdle ∨ st = statusBusy ∨ st = statusDone ∨ st = statusFault

/-! ### CMD.op (R104) -/

@[simp] def opReserved : BitVec 2 := 0#2
@[simp] def opEncode : BitVec 2 := 1#2
@[simp] def opDecode : BitVec 2 := 2#2
@[simp] def opProbe : BitVec 2 := 3#2

/-! ### FAULT_KIND (R241) -/

@[simp] def kindNone : BitVec 2 := 0#2
@[simp] def kindMalformedStream : BitVec 2 := 1#2
@[simp] def kindBufferTooSmall : BitVec 2 := 2#2

/-! ### FAULT_CAUSE (R242, R243) -/

@[simp] def causeNone : BitVec 3 := 0#3
@[simp] def causeZeroLength : BitVec 3 := 1#3
@[simp] def causeTruncatedLiteral : BitVec 3 := 2#3
@[simp] def causeTruncatedMatch : BitVec 3 := 3#3
@[simp] def causeZeroOffset : BitVec 3 := 4#3
@[simp] def causeOffsetBeyondOutput : BitVec 3 := 5#3
@[simp] def causeOutputOverflow : BitVec 3 := 6#3
/-- The one cause of `BufferTooSmall` (R243). -/
@[simp] def causeEncOutputFull : BitVec 3 := 1#3

/-- The (kind, cause) pairs the engine ever records at a fault (R241 to R243). -/
abbrev legalFault (kind : BitVec 2) (cause : BitVec 3) : Prop :=
  (kind = kindMalformedStream ∧ 1 ≤ cause.toNat ∧ cause.toNat ≤ 6) ∨
    (kind = kindBufferTooSmall ∧ cause = causeEncOutputFull)

end Sys2Proof.Machine
end

