-- ==== Sys2Proof/Machine/Memory.lean ====
section
/-! DEFINITION. Sparse storage in one canonical form, used for IN, OUT, HEAD and CHAIN: a list of (index, value) pairs,
indices strictly rising, no entry equal to what an unlisted index reads as. -/

namespace Sys2Proof.Machine

/-- Sparse storage of `w` bit values. `Cells 8` is a list of `Host.Cell`. -/
abbrev Cells (w : Nat) := List (Nat × BitVec w)

/-- What an index that nothing has written reads as: 0. For HEAD and CHAIN that is the value ENCODE's start gives every
entry (R281). For IN and OUT the spec leaves the power-on contents unspecified (R39): DESIGN CHOICE, unsafe, log entry
1. -/
def unlisted (w : Nat) : BitVec w := 0#w

/-- The value at an index. -/
def readCell {w : Nat} : Cells w → Nat → BitVec w
  | [], _ => unlisted w
  | (k, v) :: rest, a => if k = a then v else readCell rest a

/-- The cells without index `a`. -/
def eraseCell {w : Nat} (m : Cells w) (a : Nat) : Cells w := m.filter fun c => c.1 != a

/-- Put an entry before the first greater index. -/
def insertCell {w : Nat} (a : Nat) (v : BitVec w) : Cells w → Cells w
  | [] => [(a, v)]
  | c :: rest => if a < c.1 then (a, v) :: c :: rest else c :: insertCell a v rest

/-- Store a value at an index; storing what an unlisted index reads as removes the entry. -/
def writeCell {w : Nat} (m : Cells w) (a : Nat) (v : BitVec w) : Cells w :=
  if v = unlisted w then eraseCell m a else insertCell a v (eraseCell m a)

/-- The canonical form, with every index below `bound`. -/
def cellsWf {w : Nat} (bound : Nat) (m : Cells w) : Bool :=
  decide (m.Pairwise fun x y => x.1 < y.1) && m.all fun c => c.2 != unlisted w && decide (c.1 < bound)

/-- Store bytes at rising indices, one at a time (R65, R67). -/
def writeBytes : Cells 8 → Nat → List Byte → Cells 8
  | m, _, [] => m
  | m, a, b :: bs => writeBytes (writeCell m a b) (a + 1) bs

/-- The byte-serial copy of a match (R71, R194): `count` times, store at `o` the byte `off` before it, and move on; each
byte stored is a source for the ones after it. -/
def copyBack (off : Nat) : Nat → Nat → Cells 8 → Cells 8
  | 0, _, m => m
  | count + 1, o, m => copyBack off count (o + 1) (writeCell m o (readCell m (o - off)))

end Sys2Proof.Machine
end

