-- ==== Sys2Proof/Machine/State.lean ====
section
/-! DEFINITION. The state of one engine as plain data: every register, table and memory spec/10_state.md names, under
the spec's names, and the host's moves to come. The reasons a step can stop, and the state after power-on reset. -/

namespace Sys2Proof.Machine

/-- A byte memory: IN or OUT (R35, R36). -/
abbrev Memory := List Host.Cell

/-- HEAD or CHAIN: 65536 entries of `LEN_W` bits (R30, R31). -/
abbrev Table := Cells 32

/-- The eight host registers (R26). -/
inductive HostReg where
  | cmd | inLen | outCap | outLen | status | faultKind | faultCause | faultPos
  deriving DecidableEq, Repr

/-- What the host can do to the engine in one move (R224, R228, R280). Reading a register or a byte changes nothing
(R67) and is `hostRead` and `hostReadOut`. -/
inductive HostMove where
  /-- Write a host register; of a write to CMD only bits 1:0 count (R27). -/
  | writeReg (r : HostReg) (v : Word)
  /-- Place a byte of the input in IN (R224 step 1). -/
  | writeIn (a : Word) (b : Byte)
  /-- Put a byte in OUT: OUT is the host's buffer between commands (R224 step 3, R226). -/
  | writeOut (a : Word) (b : Byte)
  /-- Power-on reset (R280). -/
  | powerOn
  deriving DecidableEq, Repr

/-- Why a step stops with a fault. None of them is a fault of the engine the spec describes: those (`MalformedStream`,
`BufferTooSmall`) are recorded in the fault registers and the step goes on (R245). Each of these is an operation
outside its stated precondition, where the spec gives no effect; none is reachable from a state that meets
`Machine.Inv`. -/
inductive Fault where
  /-- Raised by HASH, INSERT and FIND: a byte of IN at or beyond `IN_LEN` would be read (R62, R121). Safe: the model
  stops where the spec gives no value. -/
  | inIndex (a : Nat)
  /-- Raised by ENCSTEP at a cursor that is not before the end of the input (R161 requires `i < n`). Safe. -/
  | cursorAtEnd
  /-- Raised by FLUSH with `lit` = 0 (R168 requires `lit >= 1`; a zero-length LIT is never emitted). Safe. -/
  | emptyRun
  /-- Raised by FLUSH when the pending run `[i - lit, i)` is not inside the input (R62, R171). Safe. -/
  | runOutsideInput
  /-- Raised by ENCSTEP when the pending run would grow past the 7 bits of `lit` (R21; `lit` is at most 126 between
  steps, R166). Safe. -/
  | runTooLong
  /-- Raised by FIND when HEAD and CHAIN are not an index of the input before the cursor (R129): a candidate at or
  after the cursor (R142: `p < i` always), or more than `min(i, 65535)` of them (R149). Safe. -/
  | badIndex
  /-- Raised by the engine's step when STATUS says BUSY and no command code is held (R40 has no such state). Safe. -/
  | noCommand
  deriving DecidableEq, Repr

/-- Why a step has no meaning. -/
inductive Refusal where
  /-- Raised by `exec` for an instruction that has no meaning yet. Safe. -/
  | notModelled (mnemonic : String)
  /-- Raised by a host move that writes IN, `IN_LEN`, `OUT_CAP` or OUT while STATUS says BUSY: a breach of contract by
  the host to which the spec gives no meaning (R226, U15: "refuse"). Safe. -/
  | operandWriteWhileBusy
  deriving DecidableEq, Repr

/-- The state of one engine. -/
structure State where
  /-- `i`: the encoder's cursor (R21). -/
  i : Word
  /-- `lit`: the pending literal run's length (R21). -/
  lit : LenField
  /-- `o`: the output index, one register for encoder and decoder (R21, R23). -/
  o : Word
  /-- `h`: the hash of the three bytes at the cursor (R22). -/
  h : HashVal
  /-- `c`: the current chain value, a position plus one or 0 (R22). -/
  c : Word
  /-- `p`: the candidate position (R22). -/
  p : Word
  /-- `bestLen`: the best candidate's length (R22). -/
  bestLen : Word
  /-- `bestOff`: the best candidate's offset, 0 for none (R22). -/
  bestOff : OffField
  /-- `k`: the extension counter (R22). -/
  k : Word
  /-- `t`: the token read index (R23). -/
  t : Word
  /-- `hdr`: the current token's header byte (R23). -/
  hdr : Byte
  /-- `len`: the current token's length field (R23). -/
  len : LenField
  /-- `off`: the current token's offset (R23). -/
  off : OffField
  /-- `CMD`: the code of the command last started, the one that runs while BUSY (R26, R27); it reads back as 0. -/
  cmd : BitVec 2
  /-- `IN_LEN` (R26). -/
  inLen : Word
  /-- `OUT_CAP` (R26). -/
  outCap : Word
  /-- `OUT_LEN` (R26). -/
  outLen : Word
  /-- `STATUS` (R28). -/
  status : BitVec 3
  /-- `FAULT_KIND` (R26, R241). -/
  faultKind : BitVec 2
  /-- `FAULT_CAUSE` (R26, R242, R243). -/
  faultCause : BitVec 3
  /-- `FAULT_POS` (R26, R244). -/
  faultPos : Word
  /-- `HEAD` (R30). -/
  head : Table
  /-- `CHAIN` (R31). -/
  chain : Table
  /-- `IN` (R35). -/
  inp : Memory
  /-- `OUT` (R36). -/
  out : Memory
  /-- The model's own: the host's moves to come, one slot a step; an empty slot leaves the step to the engine, as does
  the end of the list (log entry 2). -/
  host : List (Option HostMove)
  deriving DecidableEq, Repr

/-- The state after power-on reset. STATUS is IDLE and the fault registers and `OUT_LEN` are 0 (R280). Everything else
is unspecified there; the model takes 0 and empty (DESIGN CHOICE, unsafe: log entries 1 and 3). -/
def State.reset : State where
  i := 0
  lit := 0
  o := 0
  h := 0
  c := 0
  p := 0
  bestLen := 0
  bestOff := 0
  k := 0
  t := 0
  hdr := 0
  len := 0
  off := 0
  cmd := 0
  inLen := 0
  outCap := 0
  outLen := 0
  status := 0b000#3
  faultKind := 0
  faultCause := 0
  faultPos := 0
  head := []
  chain := []
  inp := []
  out := []
  host := []

end Sys2Proof.Machine
end

