-- ==== Sys2Proof/Machine/Ops.lean ====
section
/-! DEFINITION. The named operations over memory and registers that the meanings share: byte reads, taking a fault
(R245), ending a command (R170, R196), starting one (R224, R281, R282), power-on reset (R280). -/

namespace Sys2Proof.Machine

/-! ### Reading -/

/-- `IN[a]` (R11). Every caller guards `a < IN_LEN` (R62). -/
def inByte (s : State) (a : Nat) : Byte := readCell s.inp a

/-- `OUT[a]` as a value (R11). -/
def outByte (s : State) (a : Nat) : Byte := readCell s.out a

/-- `count` bytes of IN from index `a`, in ascending order. -/
def inSlice (s : State) (a count : Nat) : List Byte := (List.range count).map fun j => inByte s (a + j)

/-- `HEAD[h]` (R30). -/
def headAt (s : State) (h : HashVal) : Word := readCell s.head h.toNat

/-- The CHAIN slot of a position, its low 16 bits (R31, R70). -/
def chainSlot (p : Nat) : Nat := p % Config.tableSize

/-- `CHAIN[p mod 65536]` (R31). -/
def chainAt (s : State) (p : Nat) : Word := readCell s.chain (chainSlot p)

/-! ### Run state -/

/-- A command is running: STATUS is BUSY (R28, R40). -/
abbrev busy (s : State) : Prop := s.status = statusBusy

/-- The running token walk is a real decode, not a length probe (R190, R197). -/
abbrev real (s : State) : Prop := s.cmd = opDecode

/-- `LIMIT`: `OUT_CAP` for DECODE, the greatest register value for PROBE (R203). -/
def limit (s : State) : Nat := if real s then s.outCap.toNat else Config.maxWord

/-- The sequencing register: `i` for ENCODE, `t` for DECODE and PROBE (R24). -/
def seqReg (s : State) : Word := if s.cmd = opEncode then s.i else s.t

/-! ### Ways a piece of an instruction can end -/

/-- How a piece of an instruction ends early: the engine took a fault of its own, which is a next state and ends the
command (R245), or the model stops. -/
inductive Halt where
  | raised (s : State)
  | stuck (f : Fault)
  deriving DecidableEq, Repr

/-- A piece of an instruction: it goes on with a value, or ends early; nothing after a `raise` executes (R11). -/
abbrev Exec (α : Type) := Except Halt α

/-- The outcome of an instruction from the way its last piece ended. -/
def settle : Exec State → Host.Outcome State Fault Refusal
  | .ok s => .next s
  | .error (.raised s) => .next s
  | .error (.stuck f) => .fault f

/-! ### Taking a fault, and the ends of a command -/

/-- `raise K(cause, pos)`, one event (R245): record kind, cause and position, `OUT_LEN <- o`, STATUS to FAULT. There is
no handler and no return (R245, R247): the fault registers stay until the next command's start clears them. -/
def raiseFault (kind : BitVec 2) (cause : BitVec 3) (pos : Word) (s : State) : State :=
  { s with
    faultKind := kind
    faultCause := cause
    faultPos := pos
    outLen := s.o
    status := statusFault }

/-- `MalformedStream(cause, t)` (R242, R244). -/
def malformed (cause : BitVec 3) (s : State) : State := raiseFault kindMalformedStream cause s.t s

/-- `BufferTooSmall(ENC_OUTPUT_FULL, i)` (R243, R244). -/
def bufferTooSmall (s : State) : State := raiseFault kindBufferTooSmall causeEncOutputFull s.i s

/-- The end of a command without fault: `OUT_LEN <- o`, STATUS to DONE (R170, R196). -/
def endCommand (s : State) : State := { s with outLen := s.o, status := statusDone }

/-- What every accepted CMD write does, one event (R224): hold the code, clear the fault registers and `OUT_LEN`, set
STATUS to BUSY. -/
def beginCommand (op : BitVec 2) (s : State) : State :=
  { s with
    cmd := op
    faultKind := kindNone
    faultCause := causeNone
    faultPos := 0#32
    outLen := 0#32
    status := statusBusy }

/-- ENCODE's initialisation (R281): both tables empty, `i`, `lit` and `o` 0. -/
def startEncode (s : State) : State :=
  { beginCommand opEncode s with head := [], chain := [], i := 0#32, lit := 0#7, o := 0#32 }

/-- DECODE's and PROBE's initialisation (R282): `t` and `o` 0, HEAD, CHAIN and OUT untouched. -/
def startWalk (op : BitVec 2) (s : State) : State :=
  { beginCommand op s with t := 0#32, o := 0#32 }

/-- Power-on reset from any state (R40, R280). What R280 leaves unspecified takes the values of `State.reset` (log
entries 1 and 3); the host's later moves stand. -/
def powerOn (s : State) : State := { State.reset with host := s.host }

end Sys2Proof.Machine
end

