-- ==== Sys2Proof/Machine/Commands.lean ====
section
/-! DEFINITION. The meanings of the values of `CMD.op`: spec/44_host_commands.md R220 to R227. A write while BUSY is
ignored (R226); otherwise it starts the command, one event (R224), and the engine's steps run it. -/

namespace Sys2Proof.Machine

/-- A CMD write starts a command only when none is running (R224, R226). -/
def unlessBusy (start : State → State) (s : State) : State := if busy s then s else start s

/-- `CMD.op` = 0: no effect in any state (R227). -/
def execCmdReserved (s : State) : Host.Outcome State Fault Refusal := .next s

/-- `ENCODE` (R221, R281). -/
def execEncode (s : State) : Host.Outcome State Fault Refusal := .next (unlessBusy startEncode s)

/-- `DECODE` (R222, R282). -/
def execDecode (s : State) : Host.Outcome State Fault Refusal := .next (unlessBusy (startWalk opDecode) s)

/-- `PROBE` (R223, R282). -/
def execProbe (s : State) : Host.Outcome State Fault Refusal := .next (unlessBusy (startWalk opProbe) s)

end Sys2Proof.Machine
end

