-- ==== Sys2Proof/Machine/HashChain.lean ====
section
/-! DEFINITION. The HashChainIndex: HASH, LOOKUP, CHAINOF and INSERT, spec/40_hash_chain_index.md R120 to R130. The
hash function is an argument of every operation (R7, R8). -/

namespace Sys2Proof.Machine

/-- The decided default of `HASH_FN`, a shifted-XOR fold: `(b0 << 8) ^ (b1 << 4) ^ b2` (R122, R123). -/
def hashFn : Config.HashFn := fun b0 b1 b2 =>
  (b0.setWidth 16 <<< 8) ^^^ (b1.setWidth 16 <<< 4) ^^^ b2.setWidth 16

/-- Three bytes of input stand at position `p`: the precondition of HASH, INSERT and FIND (R121). -/
abbrev hashable (s : State) (p : Nat) : Prop := p + 2 < s.inLen.toNat

/-- `HASH(p)`'s value (R122), for a hashable `p`. -/
def hashAt (hf : Config.HashFn) (s : State) (p : Nat) : HashVal :=
  hf (inByte s p) (inByte s (p + 1)) (inByte s (p + 2))

/-- `INSERT(p)` for a hashable `p` (R126): CHAIN first, from the old `HEAD[h]`, then HEAD (R127). -/
def insertAt (hf : Config.HashFn) (p : Nat) (s : State) : State :=
  let h := hashAt hf s p
  let linked := { s with chain := writeCell s.chain (chainSlot p) (headAt s h) }
  { linked with head := writeCell linked.head h.toNat (BitVec.ofNat 32 (p + 1)) }

/-- The index update of one encoder step (R164): INSERT at each of `count` positions from `q` on, in order, skipping
those within 2 bytes of the end (R291). -/
def insertRange (hf : Config.HashFn) : Nat → Nat → State → State
  | 0, _, s => s
  | count + 1, q, s => insertRange hf count (q + 1) (if hashable s q then insertAt hf q s else s)

/-- Run a piece at a hashable position; the model stops elsewhere (R121: HASH must not be invoked there, and no byte
is assumed). -/
def whenHashable (p : Nat) (s : State) (next : State) : Exec State :=
  if hashable s p then .ok next else .error (.stuck (.inIndex (p + 2)))

/-- `HASH(p)`: its result goes to `h`, the register that holds it in FIND (R122, R141; log entry 4). -/
def execHash (p : Word) (s : State) : Host.Outcome State Fault Refusal :=
  settle (whenHashable p.toNat s { s with h := hashAt hashFn s p.toNat })

/-- `LOOKUP(h)`: its result goes to `c`, the register that holds it in FIND (R124, R141; log entry 4). -/
def execLookup (h : HashVal) (s : State) : Host.Outcome State Fault Refusal := .next { s with c := headAt s h }

/-- `CHAINOF(p)`: its result goes to `c`, the register that holds it in FIND (R125, R142; log entry 4). -/
def execChainOf (p : Word) (s : State) : Host.Outcome State Fault Refusal := .next { s with c := chainAt s p.toNat }

/-- `INSERT(p)` (R126, R127). -/
def execInsert (p : Word) (s : State) : Host.Outcome State Fault Refusal :=
  settle (whenHashable p.toNat s (insertAt hashFn p.toNat s))

end Sys2Proof.Machine
end

