-- ==== Sys2Proof/Machine/MatchFinder.lean ====
section
/-! DEFINITION. The MatchFinder: FIND, spec/41_match_finder.md R140 to R150, step by step. Positions and lengths are
exact numbers inside the search (R10); the registers take them at its end. -/

namespace Sys2Proof.Machine

/-- The MatchFinder's registers inside a search (R22). -/
structure Search where
  c : Nat
  p : Nat
  k : Nat
  bestLen : Nat
  bestOff : Nat
  deriving DecidableEq, Repr

/-- The extension (R144) from `k` on: while both sides match and the input end is not reached; `left` is the number of
bytes from `i + k` to the end. -/
def extend (s : State) (i p : Nat) : Nat → Nat → Nat
  | 0, k => k
  | left + 1, k => if inByte s (p + k) = inByte s (i + k) then extend s i p left (k + 1) else k

/-- Replacement: only a strictly longer candidate displaces the incumbent (R145). -/
def keepBest (i : Nat) (r : Search) : Search :=
  if r.bestLen < r.k then { r with bestLen := r.k, bestOff := i - r.p } else r

/-- One candidate (R143 to R145): the quick-reject at index `bestLen`, then the extension from index 0. -/
def tryCandidate (s : State) (i : Nat) (r : Search) : Search :=
  if inByte s (r.p + r.bestLen) = inByte s (i + r.bestLen) then
    keepBest i { r with k := extend s i r.p (s.inLen.toNat - i) 0 }
  else r

/-- The walk (R142, R147). It ends at the sentinel, at the first candidate outside the window, or when the incumbent
already reaches the input's end. There are at most `min(i, 65535)` candidates, all before the cursor (R149, R142): an
index that offers more, or one at or after the cursor, is none of this input, and the answer is none. -/
def walk (s : State) (i : Nat) : Nat → Search → Option Search
  | fuel, r =>
    if r.c = 0 then some r
    else if i ≤ r.c - 1 then none
    else if Config.window < i - (r.c - 1) then some r
    else
      match fuel with
      | 0 => none
      | fuel + 1 =>
        let r := { r with p := r.c - 1 }
        if s.inLen.toNat ≤ i + r.bestLen then some r
        else
          let r := tryCandidate s i r
          walk s i fuel { r with c := (chainAt s r.p).toNat }

/-- After the walk (R146): discard a length below 4, else clamp to 127. -/
def clampBest (r : Search) : Search :=
  if r.bestLen < Config.minMatch then { r with bestOff := 0, bestLen := 1 }
  else if Config.maxLen < r.bestLen then { r with bestLen := Config.maxLen }
  else r

/-- The search's start (R141): the head of the cursor's chain, and no match. R39 has `p` and `k` set at the start of
every FIND too and gives no value, and R141 does not set them: the model keeps their old values until the walk sets
them (DESIGN CHOICE, log entry 20). -/
def seed (s : State) (h : HashVal) : Search where
  c := (headAt s h).toNat
  p := s.p.toNat
  k := s.k.toNat
  bestLen := Config.initBestLen
  bestOff := 0

/-- The MatchFinder's registers after a search. -/
def storeSearch (h : HashVal) (r : Search) (s : State) : State :=
  { s with
    h := h
    c := BitVec.ofNat 32 r.c
    p := BitVec.ofNat 32 r.p
    k := BitVec.ofNat 32 r.k
    bestLen := BitVec.ofNat 32 r.bestLen
    bestOff := BitVec.ofNat 16 r.bestOff }

/-- `FIND(i)` (R140): the returned pair stands in `bestOff` and `bestLen`. -/
def findAt (hf : Config.HashFn) (i : Nat) (s : State) : Exec State :=
  if hashable s i then
    let h := hashAt hf s i
    match walk s i (min i Config.window) (seed s h) with
    | some r => .ok (storeSearch h (clampBest r) s)
    | none => .error (.stuck .badIndex)
  else .error (.stuck (.inIndex (i + 2)))

/-- `FIND(i)` (R140 to R147). -/
def execFind (i : Word) (s : State) : Host.Outcome State Fault Refusal := settle (findAt hashFn i.toNat s)

end Sys2Proof.Machine
end

