-- ==== Sys2Proof/Machine/Operands.lean ====
section
/-! DEFINITION. The operands of the tokens and of the encoder's emissions: the token registers, the source and
destination of a copy, the pending literal run. -/

namespace Sys2Proof.Machine

/-- Token fetch: `hdr` and `len` take the header byte and its length field (R191, R94). -/
def latchHeader (hdr : Byte) (s : State) : State := { s with hdr := hdr, len := headerLen hdr }

/-- `off` takes the match offset (R193, R95). -/
def latchOffset (off : OffField) (s : State) : State := { s with off := off }

/-- The literal run's bytes go to OUT from index `o` on, if the walk is a real decode (R192). -/
def storeLiteral (bytes : List Byte) (s : State) : Memory :=
  if real s then writeBytes s.out s.o.toNat bytes else s.out

/-- The match's bytes go to OUT from index `o` on, each from `off` bytes before it, if the walk is a real decode
(R193 to R195). -/
def storeMatch (len : LenField) (off : OffField) (s : State) : Memory :=
  if real s then copyBack off.toNat len.toNat s.o.toNat s.out else s.out

/-- A token completes: OUT, `o` and `t` take their new values; `t` advances by the token's own length (R24, R97). -/
def completeToken (out : Memory) (produced consumed : Nat) (s : State) : State :=
  { s with
    out := out
    o := BitVec.ofNat 32 (s.o.toNat + produced)
    t := BitVec.ofNat 32 (s.t.toNat + consumed) }

/-- The pending literal run: the `lit` bytes of IN just before the cursor (R171). -/
def pendingRun (s : State) : List Byte := inSlice s (s.i.toNat - s.lit.toNat) s.lit.toNat

/-- The encoder writes a token's bytes to OUT at `o` and moves `o` past them (R168, R169). -/
def emitBytes (bytes : List Byte) (s : State) : State :=
  { s with
    out := writeBytes s.out s.o.toNat bytes
    o := BitVec.ofNat 32 (s.o.toNat + bytes.length) }

/-- Whether a token of that many bytes fits in OUT (R168, R169). -/
abbrev fitsOut (count : Nat) (s : State) : Prop := s.o.toNat + count ≤ s.outCap.toNat

end Sys2Proof.Machine
end

