-- ==== Sys2Proof/Machine/Encoder.lean ====
section
/-! DEFINITION. The Encoder: FLUSH, EMITMATCH and ENCSTEP, spec/42_encoder.md R160 to R176. The capacity test of a
token comes before its first byte is written (R246). -/

namespace Sys2Proof.Machine

/-- `FLUSH` (R168): the pending run goes out as one `LIT` token. -/
def flushRun (s : State) : Exec State :=
  if s.lit = 0#7 then .error (.stuck .emptyRun)
  else if ¬ fitsOut (1 + s.lit.toNat) s then .error (.raised (bufferTooSmall s))
  else if s.i.toNat < s.lit.toNat ∨ s.inLen.toNat < s.i.toNat then .error (.stuck .runOutsideInput)
  else .ok { emitBytes (encodeLit (pendingRun s)) s with lit := 0#7 }

/-- `EMITMATCH(len, off)` (R169). -/
def emitToken (len : LenField) (off : OffField) (s : State) : Exec State :=
  if fitsOut Config.matchBytes s then .ok (emitBytes (encodeMatch len off) s)
  else .error (.raised (bufferTooSmall s))

/-- Flush the pending run if there is one: a zero-length `LIT` is never emitted (R163). -/
def flushPending (s : State) : Exec State := if s.lit = 0#7 then .ok s else flushRun s

/-- What a search at the cursor found (R161): the pair, and the state with the MatchFinder's registers. -/
structure Found where
  st : State
  off : Nat
  len : Nat
  deriving DecidableEq, Repr

/-- The pair `(off, len)` at the cursor (R161): FIND's, or `(0, 1)` within 2 bytes of the end, where FIND is not
called. -/
def searchCursor (hf : Config.HashFn) (s : State) : Exec Found :=
  if hashable s s.i.toNat then
    (findAt hf s.i.toNat s).map fun s1 => ⟨s1, s1.bestOff.toNat, s1.bestLen.toNat⟩
  else .ok ⟨s, 0, 1⟩

/-- No match (R162): one more byte in the pending run, which `lit` must be able to count. -/
def growRun (s : State) : Exec State :=
  if s.lit.toNat < Config.maxLen then .ok { s with lit := BitVec.ofNat 7 (s.lit.toNat + 1) }
  else .error (.stuck .runTooLong)

/-- A match (R163): the pending run first, then the match token. -/
def takeMatch (off len : Nat) (s : State) : Exec State :=
  flushPending s >>= emitToken (BitVec.ofNat 7 len) (BitVec.ofNat 16 off)

/-- What the pair calls for (R162, R163). -/
def actOn (f : Found) : Exec State := if f.off = 0 then growRun f.st else takeMatch f.off f.len f.st

/-- Index update and cursor advance (R164, R165), by the length the decision consumed. -/
def advance (hf : Config.HashFn) (len : Nat) (s : State) : State :=
  let s1 := insertRange hf len s.i.toNat s
  { s1 with i := BitVec.ofNat 32 (s1.i.toNat + len) }

/-- The length limit (R166): a run of 127 bytes goes out at once. -/
def limitRun (s : State) : Exec State := if s.lit.toNat = Config.maxLen then flushRun s else .ok s

/-- `ENCSTEP` (R161 to R166): search, act, update the index, advance, apply the length limit; the search comes before
the update (R290). -/
def encodeStep (hf : Config.HashFn) (s : State) : Exec State :=
  if s.inLen.toNat ≤ s.i.toNat then .error (.stuck .cursorAtEnd)
  else searchCursor hf s >>= fun f => actOn f >>= fun s1 => limitRun (advance hf f.len s1)

/-- `ENCSTEP` (R161). -/
def execEncStep (s : State) : Host.Outcome State Fault Refusal := settle (encodeStep hashFn s)

/-- `FLUSH` (R168). -/
def execFlush (s : State) : Host.Outcome State Fault Refusal := settle (flushRun s)

/-- `EMITMATCH(len, off)` (R169). -/
def execEmitMatch (len : LenField) (off : OffField) (s : State) : Host.Outcome State Fault Refusal :=
  settle (emitToken len off s)

end Sys2Proof.Machine
end

