-- ==== Sys2Proof/Machine/Tokens.lean ====
section
/-! DEFINITION. The meanings of the tokens and of the reserved token encodings: spec/43_decoder.md R191 to R200,
spec/30_encoding.md R99 to R101. Every guard of a token comes before its first write (R246), in the order of R200. -/

namespace Sys2Proof.Machine

/-- A token whose header says length 0 (R191, R99, R100): decided on the header alone. -/
def zeroLengthToken (hdr : Byte) (s : State) : Exec State :=
  .error (.raised (malformed causeZeroLength (latchHeader hdr s)))

/-- `LIT` (R192) with the guards of R198 in the order of R200. -/
def literalToken (bytes : List Byte) (s : State) : Exec State :=
  let s1 := latchHeader (litHeader (BitVec.ofNat 7 bytes.length)) s
  if bytes.length = 0 then
    zeroLengthToken (litHeader 0#7) s
  else if s1.inLen.toNat < s1.t.toNat + 1 + bytes.length then
    .error (.raised (malformed causeTruncatedLiteral s1))
  else if limit s1 < s1.o.toNat + bytes.length then
    .error (.raised (malformed causeOutputOverflow s1))
  else
    .ok (completeToken (storeLiteral bytes s1) bytes.length (1 + bytes.length) s1)

/-- `MATCH` (R193) with the guards of R199 in the order of R200; its reserved forms are the first and third guard. -/
def matchToken (len : LenField) (off : OffField) (s : State) : Exec State :=
  let s1 := latchHeader (matchHeader len) s
  if len = 0#7 then
    zeroLengthToken (matchHeader 0#7) s
  else if s1.inLen.toNat < s1.t.toNat + Config.matchBytes then
    .error (.raised (malformed causeTruncatedMatch s1))
  else
    let s2 := latchOffset off s1
    if off = 0#16 then
      .error (.raised (malformed causeZeroOffset s2))
    else if s2.o.toNat < off.toNat then
      .error (.raised (malformed causeOffsetBeyondOutput s2))
    else if limit s2 < s2.o.toNat + len.toNat then
      .error (.raised (malformed causeOutputOverflow s2))
    else
      .ok (completeToken (storeMatch len off s2) len.toNat Config.matchBytes s2)

/-- A token the stream ends in the middle of (R198, R199): the decoder has its header and no more. -/
def truncatedToken : Reject → State → Host.Outcome State Fault Refusal
  | .noHeader, s => .fault (.inIndex s.t.toNat)
  | .truncatedLiteral len, s =>
    settle (.error (.raised (malformed causeTruncatedLiteral (latchHeader (litHeader len) s))))
  | .truncatedMatch len, s =>
    settle (.error (.raised (malformed causeTruncatedMatch (latchHeader (matchHeader len) s))))

/-- `LIT` (R192). -/
def execLit (bytes : List Byte) (s : State) : Host.Outcome State Fault Refusal := settle (literalToken bytes s)

/-- `MATCH` (R193). -/
def execMatch (len : LenField) (off : OffField) (s : State) : Host.Outcome State Fault Refusal :=
  settle (matchToken len off s)

/-- `RESERVED_LIT0`: raises `MalformedStream(ZERO_LENGTH, t)` (R99). -/
def execReservedLit0 (s : State) : Host.Outcome State Fault Refusal := settle (zeroLengthToken 0x00#8 s)

/-- `RESERVED_MATCH0`: raises `MalformedStream(ZERO_LENGTH, t)` before the offset bytes are looked at (R100). -/
def execReservedMatch0 (s : State) : Host.Outcome State Fault Refusal := settle (zeroLengthToken 0x80#8 s)

/-- `RESERVED_OFF0`: raises `MalformedStream(ZERO_OFFSET, t)` (R101), after the length and truncation guards (R200). -/
def execReservedOff0 (len : LenField) (s : State) : Host.Outcome State Fault Refusal :=
  settle (matchToken len 0#16 s)

end Sys2Proof.Machine
end

