-- ==== Sys2Proof/Machine/Dispatch.lean ====
section
/-! DEFINITION. The dispatch: one arm per instruction, each one call of that instruction's own meaning. -/

namespace Sys2Proof.Machine

def exec (i : Instr) (s : State) : Host.Outcome State Fault Refusal :=
  match i with
  -- tokens (spec/43_decoder.md, spec/30_encoding.md)
  | .lit bytes => Sys2Proof.Machine.execLit bytes s
  | .matchTok len off => Sys2Proof.Machine.execMatch len off s
  | .reservedLit0 => Sys2Proof.Machine.execReservedLit0 s
  | .reservedMatch0 => Sys2Proof.Machine.execReservedMatch0 s
  | .reservedOff0 len => Sys2Proof.Machine.execReservedOff0 len s
  -- host commands (spec/44_host_commands.md)
  | .cmdReserved => Sys2Proof.Machine.execCmdReserved s
  | .encode => Sys2Proof.Machine.execEncode s
  | .decode => Sys2Proof.Machine.execDecode s
  | .probe => Sys2Proof.Machine.execProbe s
  -- HashChainIndex (spec/40_hash_chain_index.md)
  | .hash p => Sys2Proof.Machine.execHash p s
  | .lookup h => Sys2Proof.Machine.execLookup h s
  | .chainOf p => Sys2Proof.Machine.execChainOf p s
  | .insert p => Sys2Proof.Machine.execInsert p s
  -- MatchFinder (spec/41_match_finder.md)
  | .find j => Sys2Proof.Machine.execFind j s
  -- Encoder (spec/42_encoder.md)
  | .encStep => Sys2Proof.Machine.execEncStep s
  | .flush => Sys2Proof.Machine.execFlush s
  | .emitMatch len off => Sys2Proof.Machine.execEmitMatch len off s

end Sys2Proof.Machine
end

