-- ==== Sys2Proof/Machine/HostPort.lean ====
section
/-! DEFINITION. The host's side of the engine: register reads and the host's moves, spec/10_state.md R26 to R29,
spec/44_host_commands.md R224 to R228. Every register is open to whatever can reach the engine (R260). -/

namespace Sys2Proof.Machine

/-- A fault register reads 0 while STATUS does not say FAULT (R29). -/
def whileFault {w : Nat} (s : State) (v : BitVec w) : Word := if s.status = statusFault then v.setWidth 32 else 0#32

/-- What the host reads in a register (R26 to R29); CMD reads 0 (R27). A read changes nothing (R67). -/
def hostRead (r : HostReg) (s : State) : Word :=
  match r with
  | .cmd => 0#32
  | .inLen => s.inLen
  | .outCap => s.outCap
  | .outLen => s.outLen
  | .status => s.status.setWidth 32
  | .faultKind => whileFault s s.faultKind
  | .faultCause => whileFault s s.faultCause
  | .faultPos => whileFault s s.faultPos

/-- What the host reads in OUT after a command (R76, R225). -/
def hostReadOut (a : Word) (s : State) : Byte := outByte s a.toNat

/-- A write of an operand of the running command has no meaning (R226); otherwise it lands. -/
def operandWrite (s next : State) : Host.Outcome State Fault Refusal :=
  if busy s then .refused .operandWriteWhileBusy else .next next

/-- The engine's answer to a host move (R224, R226, R228, R280): a CMD write is the command its `op` field names, a
write to a read-only register is ignored. -/
def hostStep (m : HostMove) (s : State) : Host.Outcome State Fault Refusal :=
  match m with
  | .writeReg .cmd v => exec (decodeCmd (v.setWidth 2)) s
  | .writeReg .inLen v => operandWrite s { s with inLen := v }
  | .writeReg .outCap v => operandWrite s { s with outCap := v }
  | .writeReg .outLen _ => .next s
  | .writeReg .status _ => .next s
  | .writeReg .faultKind _ => .next s
  | .writeReg .faultCause _ => .next s
  | .writeReg .faultPos _ => .next s
  | .writeIn a b => operandWrite s { s with inp := writeCell s.inp a.toNat b }
  | .writeOut a b => operandWrite s { s with out := writeCell s.out a.toNat b }
  | .powerOn => .next (powerOn s)

end Sys2Proof.Machine
end

