-- ==== Sys2Proof/Machine/Engine.lean ====
section
/-! DEFINITION. What the engine does by itself in one step, at the fine grain of R231: one ENCSTEP, one token, the
final flush or the end of the command; nothing while no command runs (R245, R280). And the placing of an instruction
where the next step finds it. -/

namespace Sys2Proof.Machine

/-- The bytes of the next token as the decoder sees them: those of IN from `t` on, none at or beyond `IN_LEN` (R62), no
more than the longest token has. -/
def tokenWindow (s : State) : List Byte :=
  inSlice s s.t.toNat (min Config.maxTokenBytes (s.inLen.toNat - s.t.toNat))

/-- The token step (R191): fetch at `t`, decode, execute; a token that is not all there faults (R198, R199). -/
def tokenStep (s : State) : Host.Outcome State Fault Refusal :=
  match decodeToken (tokenWindow s) with
  | .ok ins _ => exec ins s
  | .reject r => truncatedToken r s

/-- One step of a DECODE or PROBE run (R190, R196). -/
def walkStep (s : State) : Host.Outcome State Fault Refusal :=
  if s.t.toNat < s.inLen.toNat then tokenStep s else .next (endCommand s)

/-- One step of an ENCODE run (R160, R167, R170): an ENCSTEP while input is left, then the final flush if a run is
pending, then the end. -/
def compressStep (s : State) : Host.Outcome State Fault Refusal :=
  if s.i.toNat < s.inLen.toNat then exec .encStep s
  else if s.lit = 0#7 then .next (endCommand s)
  else exec .flush s

/-- One step of the engine. -/
def engineStep (s : State) : Host.Outcome State Fault Refusal :=
  if ¬ busy s then .next s
  else if s.cmd = opEncode then compressStep s
  else if s.cmd = opReserved then .fault .noCommand
  else walkStep s

/-- The bytes of a table word placed in IN at `t`, zeros after them, inside the input, with a token walk running and the
step left to the engine. -/
def placeToken (nbits w : Nat) (s : State) : State :=
  { s with
    inp := writeBytes s.inp s.t.toNat (tableToken nbits w)
    inLen := BitVec.ofNat 32 (max s.inLen.toNat (min Config.maxWord (s.t.toNat + Config.maxTokenBytes)))
    status := statusBusy
    cmd := if s.cmd = opProbe then opProbe else opDecode
    host := none :: s.host }

/-- The value of `CMD.op` as the host's next move. -/
def placeCommand (w : Nat) (s : State) : State :=
  { s with host := some (.writeReg .cmd (BitVec.ofNat 32 w)) :: s.host }

end Sys2Proof.Machine
end

