-- ==== Sys2Proof/Machine/Step.lean ====
section
/-! DEFINITION. One step of the machine: the host's next move if its slot holds one, else one step of the engine. -/

namespace Sys2Proof.Machine

/-- One step. The first slot of `host` is used up; the engine moves where the host does not (log entry 2). -/
def step (s : State) : Host.Outcome State Fault Refusal :=
  match s.host with
  | [] => engineStep s
  | none :: rest => engineStep { s with host := rest }
  | some m :: rest => hostStep m { s with host := rest }

/-- `s` with the instruction of a table word placed where `step` takes its next one: a command as the host's next CMD
write, a token in IN at `t` of a running token walk (log entry 5). -/
def State.withFetchWord (s : State) (nbits w : Nat) : State :=
  if isCommandWord nbits w then placeCommand w s else placeToken nbits w s

end Sys2Proof.Machine
end

