-- ==== Sys2Proof/Machine/Coarse.lean ====
section
/-! DEFINITION. The coarse grain of R231: a whole command as one function, following the assembled pseudocode of
spec/42_encoder.md and spec/43_decoder.md, the encode side for every `HASH_FN`. Obligations say that the engine's
steps reach the same end. -/

namespace Sys2Proof.Machine

/-- One turn of the DECODE pseudocode, reading IN at `t` directly (R191 to R193). -/
def walkToken (s : State) : Exec State :=
  let hdr := inByte s s.t.toNat
  let len := headerLen hdr
  if len = 0#7 then zeroLengthToken hdr s
  else if headerIsMatch hdr then
    if s.inLen.toNat < s.t.toNat + 3 then
      .error (.raised (malformed causeTruncatedMatch (latchHeader hdr s)))
    else
      matchToken len (offsetOf (inByte s (s.t.toNat + 1)) (inByte s (s.t.toNat + 2))) s
  else if s.inLen.toNat < s.t.toNat + 1 + len.toNat then
    .error (.raised (malformed causeTruncatedLiteral (latchHeader hdr s)))
  else
    literalToken (inSlice s (s.t.toNat + 1) len.toNat) s

/-- The DECODE pseudocode's loop and end (R190, R196), at most `fuel` tokens. -/
def walkLoop : Nat → State → Exec State
  | 0, s => .ok (endCommand s)
  | fuel + 1, s => if s.t.toNat < s.inLen.toNat then walkToken s >>= walkLoop fuel else .ok (endCommand s)

/-- The end of the ENCODE pseudocode: final flush, then DONE (R167, R170). -/
def encodeEnd (s : State) : Exec State := (flushPending s).map endCommand

/-- The ENCODE pseudocode's loop and end (R160), at most `fuel` ENCSTEPs. -/
def encodeLoop (hf : Config.HashFn) : Nat → State → Exec State
  | 0, s => encodeEnd s
  | fuel + 1, s => if s.i.toNat < s.inLen.toNat then encodeStep hf s >>= encodeLoop hf fuel else encodeEnd s

/-- ENCODE as one function of the state it starts from: every ENCSTEP consumes a byte, so `IN_LEN` of them are enough. -/
def wholeEncode (hf : Config.HashFn) (s : State) : Exec State := encodeLoop hf s.inLen.toNat (startEncode s)

/-- DECODE or PROBE as one function of the state it starts from: every token consumes a byte and more (R202). -/
def wholeWalk (op : BitVec 2) (s : State) : Exec State := walkLoop s.inLen.toNat (startWalk op s)

end Sys2Proof.Machine
end

