-- ==== Sys2Proof/Machine/Reference.lean ====
section
/-! DEFINITION. The two transformations as functions on byte lists, with no registers, tables or memories: the token
stream the spec's closed form of FIND gives for an input (R148, R161 to R167), and what a token stream stands for
(R192 to R195). Claims about whole commands are stated against these. -/

namespace Sys2Proof.Machine

/-- How many leading bytes two byte strings share. -/
def sharedLen : List Byte → List Byte → Nat
  | a :: as, b :: bs => if a = b then sharedLen as bs + 1 else 0
  | _, _ => 0

/-- `L(p)` of R148: how far the input from `p` on agrees with the input from the cursor `i` on, up to the input's
end. -/
def matchLenAt (input : List Byte) (i p : Nat) : Nat := sharedLen (input.drop p) (input.drop i)

/-- The winner among the positions below `m` (R148): the most recent window position of greatest match length, if that
length is 4 or more; `(0, 0)` if there is none. -/
def bestBelow (input : List Byte) (i : Nat) : Nat → Nat × Nat
  | 0 => (0, 0)
  | m + 1 =>
    let best := bestBelow input i m
    let l := matchLenAt input i m
    if i - m ≤ Config.window ∧ Config.minMatch ≤ l ∧ best.2 ≤ l then (i - m, l) else best

/-- FIND's result in closed form (R148), and `(0, 1)` where it is not called (R161). -/
def bestMatch (input : List Byte) (i : Nat) : Nat × Nat :=
  let best := bestBelow input i i
  if i + 2 < input.length ∧ best.1 ≠ 0 then (best.1, min best.2 Config.maxLen) else (0, 1)

/-- The tokens of a literal run that may be empty (R163, R167). -/
def runTokens (run : List Byte) : List Instr := if run = [] then [] else [.lit run]

/-- The encoder's tokens from cursor `i` with a pending run (R161 to R167); `fuel` bounds the number of decisions. -/
def tokensFrom (input : List Byte) : Nat → Nat → List Byte → List Instr
  | 0, _, run => runTokens run
  | fuel + 1, i, run =>
    if h : i < input.length then
      let m := bestMatch input i
      if m.1 = 0 then
        let run := run ++ [input[i]]
        if run.length = Config.maxLen then .lit run :: tokensFrom input fuel (i + 1) []
        else tokensFrom input fuel (i + 1) run
      else
        runTokens run ++
          .matchTok (BitVec.ofNat 7 m.2) (BitVec.ofNat 16 m.1) :: tokensFrom input fuel (i + m.2) []
    else runTokens run

/-- The tokens of an input. -/
def tokensOf (input : List Byte) : List Instr := tokensFrom input input.length 0 []

/-- `count` bytes appended one after the other, each the one `off` bytes before it (R194). -/
def replicateBack (off : Nat) : Nat → List Byte → List Byte
  | 0, out => out
  | count + 1, out => replicateBack off count (out ++ [out.getD (out.length - off) 0#8])

/-- What a token stream stands for, given the bytes produced before it (R192, R193): none where a token is no legal
token there (a zero length, a zero offset, an offset beyond the output). -/
def expand : List Instr → List Byte → Option (List Byte)
  | [], out => some out
  | .lit bytes :: rest, out => if bytes = [] then none else expand rest (out ++ bytes)
  | .matchTok len off :: rest, out =>
    if len = 0#7 ∨ off = 0#16 ∨ out.length < off.toNat then none
    else expand rest (replicateBack off.toNat len.toNat out)
  | _ :: _, _ => none

end Sys2Proof.Machine
end

