-- ==== Sys2Proof/Safety.lean ====
section
/-! DEFINITION. The terms claims are stated in: the canonical form of the storages, what it is for HEAD and CHAIN to be
the index of the input before the cursor (R129), and the invariant of the machine. -/

namespace Sys2Proof.Machine

/-! ### Storage -/

/-- A byte memory in canonical form, every index below `2^LEN_W` (R35, R36). -/
def Memory.wf (m : Memory) : Bool := cellsWf (w := 8) 4294967296 m

/-- A table in canonical form, every index below `TABLE_SIZE` (R30, R31). -/
def Table.wf (m : Table) : Bool := cellsWf (w := 32) Config.tableSize m

/-- All four storages are in canonical form. -/
structure StorageWf (s : State) : Prop where
  inp : Memory.wf s.inp = true
  out : Memory.wf s.out = true
  head : Table.wf s.head = true
  chain : Table.wf s.chain = true

/-! ### The index -/

/-- One plus the greatest number below `m` with a property, or 0: the stored form of "most recent position" (R30). -/
def newest (has : Nat → Bool) : Nat → Nat
  | 0 => 0
  | m + 1 => if has m then m + 1 else newest has m

/-- Position `q` can be inserted and has hash `h` (R121, R129). -/
def hasHash (hf : Config.HashFn) (s : State) (h : HashVal) (q : Nat) : Bool :=
  decide (hashable s q) && hashAt hf s q == h

/-- HEAD and CHAIN are the index of the input before cursor `i` (R129 (a) and (b)). -/
structure IndexOf (hf : Config.HashFn) (i : Nat) (s : State) : Prop where
  heads : ∀ h : HashVal, (headAt s h).toNat = newest (hasHash hf s h) i
  chains : ∀ p : Nat, p < i → hashable s p → i - p ≤ Config.tableSize →
    (chainAt s p).toNat = newest (hasHash hf s (hashAt hf s p)) p

/-- `k` is the match length `L(p)` at cursor `i` (R148). -/
structure MatchLen (s : State) (i p k : Nat) : Prop where
  inside : i + k ≤ s.inLen.toNat
  agree : ∀ j, j < k → inByte s (p + j) = inByte s (i + j)
  ends : i + k < s.inLen.toNat → inByte s (p + k) ≠ inByte s (i + k)

/-- `p` is in the window of cursor `i` (R37). -/
abbrev inWindow (i p : Nat) : Prop := p < i ∧ i - p ≤ Config.window

/-- What FIND returns at cursor `i`, in the closed form of R148. -/
inductive FindResult (s : State) (i : Nat) : Nat → Nat → Prop where
  /-- No window position has a match length of 4 or more. -/
  | noMatch : (∀ p k, inWindow i p → MatchLen s i p k → k < Config.minMatch) → FindResult s i 0 1
  /-- `p` is the most recent window position of greatest match length `m`, which is 4 or more; the length is clamped to
  127. -/
  | isMatch (p m : Nat) : inWindow i p → MatchLen s i p m → Config.minMatch ≤ m →
      (∀ q k, inWindow i q → MatchLen s i q k → k < m ∨ (k = m ∧ q ≤ p)) →
      FindResult s i (i - p) (min m Config.maxLen)

/-! ### The invariant -/

/-- What holds between the steps of an ENCODE (R21, R24, R166, R171, R172, R129). -/
structure EncodeRunning (hf : Config.HashFn) (s : State) : Prop where
  cursor : s.i.toNat ≤ s.inLen.toNat
  runShort : s.lit.toNat < Config.maxLen
  runBehind : s.lit.toNat ≤ s.i.toNat
  outFits : s.o.toNat ≤ s.outCap.toNat
  outBound : s.o.toNat ≤ Config.encBoundFactor * (s.i.toNat - s.lit.toNat)
  index : IndexOf hf s.i.toNat s

/-- What holds between the steps of a DECODE or PROBE (R23, R24, R203). -/
structure WalkRunning (s : State) : Prop where
  reader : s.t.toNat ≤ s.inLen.toNat
  outFits : s.o.toNat ≤ limit s

/-- The fault registers say nothing while STATUS does not say FAULT, and one of the legal pairs while it does (R29). -/
structure FaultRegs (s : State) : Prop where
  clear : s.status ≠ statusFault → s.faultKind = kindNone ∧ s.faultCause = causeNone ∧ s.faultPos = 0#32
  legal : s.status = statusFault → legalFault s.faultKind s.faultCause

/-- The invariant of the machine: canonical storages, one of the four run states (R40), legal fault registers (R29),
and while a command runs what holds between its steps. -/
structure Inv (s : State) : Prop where
  storage : StorageWf s
  status : legalStatus s.status
  faults : FaultRegs s
  running : busy s → (s.cmd = opEncode ∧ EncodeRunning hashFn s) ∨
    ((s.cmd = opDecode ∨ s.cmd = opProbe) ∧ WalkRunning s)

/-! ### Host and run -/

/-- A host move that writes an operand or OUT: the host owes not to make it while BUSY (R226). -/
def operandMove : HostMove → Bool
  | .writeReg .inLen _ => true
  | .writeReg .outCap _ => true
  | .writeReg _ _ => false
  | .writeIn _ _ => true
  | .writeOut _ _ => true
  | .powerOn => false

/-- The last command has ended (R301). -/
abbrev ended (s : State) : Prop := s.status = statusDone ∨ s.status = statusFault

/-- The input of a command: `IN[0 .. IN_LEN-1]` holds these bytes (R12, R224). -/
abbrev inputIs (s : State) (bytes : List Byte) : Prop := inSlice s 0 s.inLen.toNat = bytes

/-- `count` bytes of OUT from index 0. -/
def outSlice (s : State) (count : Nat) : List Byte := (List.range count).map fun j => outByte s j

/-- The result of a command: `OUT[0 .. OUT_LEN-1]` holds these bytes (R76). -/
abbrev outputIs (s : State) (bytes : List Byte) : Prop := outSlice s s.outLen.toNat = bytes

/-- No command runs and the host makes no more moves: the state from which a command is started by `exec`. -/
abbrev quiet (s : State) : Prop := ¬ busy s ∧ s.host = []

/-- The engine, left alone from `s`, reaches `s'`. -/
def reaches (s s' : State) : Prop := ∃ k, Sys2Proof.core.run k s = .next s'

/-- It is the engine's turn in `s` (the host's slot is empty or its list is over), and `s0` is what the engine sees. -/
def engineTurn (s s0 : State) : Prop := (s.host = [] ∧ s0 = s) ∨ ∃ rest, s.host = none :: rest ∧ s0 = { s with host := rest }

/-- The state after a token's `raise MalformedStream(cause, t)` (R245): the token registers, the fault registers,
`OUT_LEN` and STATUS, and nothing else. -/
def tokenFault (cause : BitVec 3) (hdr : Byte) (len : LenField) (off : OffField) (s : State) : State :=
  { s with
    hdr := hdr
    len := len
    off := off
    faultKind := kindMalformedStream
    faultCause := cause
    faultPos := s.t
    outLen := s.o
    status := statusFault }

/-- `s'` is `s` after a `raise MalformedStream(cause, t)`: the fault registers, `OUT_LEN` and STATUS as R245 says, and
nothing else changed but the registers of the token fetch. -/
def raisedMalformed (cause : BitVec 3) (s s' : State) : Prop :=
  s' = tokenFault cause s'.hdr s'.len s'.off s

/-- The state after the encoder's `raise BufferTooSmall(ENC_OUTPUT_FULL, i)` (R243 to R245): the fault registers,
`OUT_LEN` and STATUS, and nothing else. -/
def encoderFault (s : State) : State :=
  { s with
    faultKind := kindBufferTooSmall
    faultCause := causeEncOutputFull
    faultPos := s.i
    outLen := s.o
    status := statusFault }

/-- `s'` differs from `s` at most in what a completed token writes: OUT, `o`, `t` and the token registers. -/
def tokenFrame (s s' : State) : Prop :=
  s' = { s with out := s'.out, o := s'.o, t := s'.t, hdr := s'.hdr, len := s'.len, off := s'.off }

/-- `s'` differs from `s` at most in the MatchFinder's registers (R22). -/
def searchFrame (s s' : State) : Prop :=
  s' = { s with h := s'.h, c := s'.c, p := s'.p, k := s'.k, bestLen := s'.bestLen, bestOff := s'.bestOff }

/-- `s'` differs from `s` at most in what an ENCSTEP writes: OUT, the encoder's and the MatchFinder's registers, HEAD
and CHAIN. -/
def encodeFrame (s s' : State) : Prop :=
  s' = { s with
    out := s'.out, i := s'.i, lit := s'.lit, o := s'.o, head := s'.head, chain := s'.chain,
    h := s'.h, c := s'.c, p := s'.p, k := s'.k, bestLen := s'.bestLen, bestOff := s'.bestOff }

/-- OUT holds these bytes from index `a` on. -/
def outHolds (s : State) (a : Nat) (bytes : List Byte) : Prop :=
  ∀ j (h : j < bytes.length), outByte s (a + j) = bytes[j]

/-- OUT is the same in `s` and `s'` outside `[lo, hi)`. -/
def outSameOutside (lo hi : Nat) (s s' : State) : Prop := ∀ a, (a < lo ∨ hi ≤ a) → outByte s' a = outByte s a

end Sys2Proof.Machine
end

