-- ==== Sys2Proof/Certificates/Slice0/Obligations.lean ====
section
/-! DEFINITION. The statements about the LZ77X engine, for the provers. Each docstring names the rules of spec/ the
statement formalises, or the sections it rests on. -/

open Sys2Proof Sys2Proof.Machine

/-! ### Encodings -/

/-- A few token words written out from the tables of R91 and R92 decode to the tokens they stand for, and the four
values of `CMD.op` to their commands (R104). -/
def Obligations.WrittenOutWordsDecode : Prop :=
  decodeToken [0x03#8, 0x61#8, 0x62#8, 0x63#8, 0x86#8, 0x00#8, 0x03#8] =
    .ok (.lit [0x61#8, 0x62#8, 0x63#8]) [0x86#8, 0x00#8, 0x03#8] ∧
  decodeToken [0x86#8, 0x00#8, 0x03#8] = .ok (.matchTok 6#7 3#16) [] ∧
  decodeToken [0xFF#8, 0x01#8, 0x4C#8] = .ok (.matchTok 127#7 332#16) [] ∧
  decodeToken [0x00#8] = .ok .reservedLit0 [] ∧
  decodeToken [0x80#8] = .ok .reservedMatch0 [] ∧
  decodeToken [0x84#8, 0x00#8, 0x00#8] = .ok (.reservedOff0 4#7) [] ∧
  decodeCmd 0b00#2 = .cmdReserved ∧ decodeCmd 0b01#2 = .encode ∧
  decodeCmd 0b10#2 = .decode ∧ decodeCmd 0b11#2 = .probe

/-- R98: what each of the 256 header bytes decodes to, over any bytes that follow it. -/
def Obligations.EveryHeaderByteDecodes : Prop :=
  ∀ (hdr : Byte) (rest : List Byte),
    (hdr.toNat = 0 → decodeToken (hdr :: rest) = .ok .reservedLit0 rest) ∧
    (1 ≤ hdr.toNat → hdr.toNat ≤ 127 → hdr.toNat ≤ rest.length →
      decodeToken (hdr :: rest) = .ok (.lit (rest.take hdr.toNat)) (rest.drop hdr.toNat)) ∧
    (1 ≤ hdr.toNat → hdr.toNat ≤ 127 → rest.length < hdr.toNat →
      decodeToken (hdr :: rest) = .reject (.truncatedLiteral (BitVec.ofNat 7 hdr.toNat))) ∧
    (hdr.toNat = 128 → decodeToken (hdr :: rest) = .ok .reservedMatch0 rest) ∧
    (129 ≤ hdr.toNat → ∀ hi lo rest', rest = hi :: lo :: rest' → 0 < 256 * hi.toNat + lo.toNat →
      decodeToken (hdr :: rest) =
        .ok (.matchTok (BitVec.ofNat 7 (hdr.toNat - 128)) (BitVec.ofNat 16 (256 * hi.toNat + lo.toNat))) rest') ∧
    (129 ≤ hdr.toNat → ∀ hi lo rest', rest = hi :: lo :: rest' → 256 * hi.toNat + lo.toNat = 0 →
      decodeToken (hdr :: rest) = .ok (.reservedOff0 (BitVec.ofNat 7 (hdr.toNat - 128))) rest') ∧
    (129 ≤ hdr.toNat → rest.length < 2 →
      decodeToken (hdr :: rest) = .reject (.truncatedMatch (BitVec.ofNat 7 (hdr.toNat - 128))))

/-- Decoding the encoding of a well-formed instruction gives it back, whatever bytes follow, and every value of
`CMD.op` likewise. -/
def Obligations.DecodeOfEncodeIsIdentity : Prop :=
  ∀ i : Instr, i.wf = true →
    (∀ bytes, encode i = some (.token bytes) → ∀ rest, decodeToken (bytes ++ rest) = .ok i rest) ∧
    (∀ op, encode i = some (.command op) → decodeCmd op = i)

/-- Every token the decoder reads is well-formed and its encoding is the bytes it was read from: no two words stand
for one token. -/
def Obligations.EncodeOfDecodeIsIdentity : Prop :=
  (∀ bytes i rest, decodeToken bytes = .ok i rest →
    i.wf = true ∧ ∃ read, encode i = some (.token read) ∧ bytes = read ++ rest) ∧
  (∀ op, encode (decodeCmd op) = some (.command op))

/-- A stream of tokens is read back token by token from nothing but the concatenation of their encodings: no boundary
marks are needed (R65, R97). -/
def Obligations.TokenStreamsReadBack : Prop :=
  ∀ is : List Instr, (∀ i ∈ is, i.wf = true ∧ (tokenEncoding i).isSome = true) →
    decodeStream is.length (encodeStream is) = some is

/-- R97: the header byte alone gives a token's length. -/
def Obligations.HeaderGivesTokenLength : Prop :=
  ∀ (hdr : Byte) (rest rest' : List Byte) (i : Instr),
    decodeToken (hdr :: rest) = .ok i rest' → headerLen hdr ≠ 0#7 →
      rest.length + 1 = rest'.length + (if hdr.getLsbD 7 then 3 else 1 + hdr.toNat % 128)

/-! ### Tokens -/

/-- R192: LIT. Its two guards in order, then its effect: the payload to OUT (a real decode only), `o` and `t` past the
token; every other register, table and byte as before, but the registers of the token fetch. -/
def Obligations.LitMeaning : Prop :=
  ∀ (s : State) (bytes : List Byte), 1 ≤ bytes.length → bytes.length ≤ 127 →
    (s.inLen.toNat < s.t.toNat + 1 + bytes.length →
      ∃ s', exec (.lit bytes) s = .next s' ∧ raisedMalformed causeTruncatedLiteral s s') ∧
    (s.t.toNat + 1 + bytes.length ≤ s.inLen.toNat → limit s < s.o.toNat + bytes.length →
      ∃ s', exec (.lit bytes) s = .next s' ∧ raisedMalformed causeOutputOverflow s s') ∧
    (s.t.toNat + 1 + bytes.length ≤ s.inLen.toNat → s.o.toNat + bytes.length ≤ limit s →
      ∃ s', exec (.lit bytes) s = .next s' ∧ tokenFrame s s' ∧
        s'.o.toNat = s.o.toNat + bytes.length ∧ s'.t.toNat = s.t.toNat + 1 + bytes.length ∧
        (s.cmd = opDecode → outHolds s' s.o.toNat bytes ∧
          outSameOutside s.o.toNat (s.o.toNat + bytes.length) s s') ∧
        (s.cmd ≠ opDecode → s'.out = s.out))

/-- R193: MATCH. Its guards in order, then its effect; `off` takes the offset once the token is known to be whole. -/
def Obligations.MatchMeaning : Prop :=
  ∀ (s : State) (len : LenField) (off : OffField), len ≠ 0#7 →
    (s.inLen.toNat < s.t.toNat + 3 →
      ∃ s', exec (.matchTok len off) s = .next s' ∧ raisedMalformed causeTruncatedMatch s s') ∧
    (s.t.toNat + 3 ≤ s.inLen.toNat → off = 0#16 →
      ∃ s', exec (.matchTok len off) s = .next s' ∧ raisedMalformed causeZeroOffset s s' ∧ s'.off = off) ∧
    (s.t.toNat + 3 ≤ s.inLen.toNat → s.o.toNat < off.toNat →
      ∃ s', exec (.matchTok len off) s = .next s' ∧ raisedMalformed causeOffsetBeyondOutput s s' ∧ s'.off = off) ∧
    (s.t.toNat + 3 ≤ s.inLen.toNat → off ≠ 0#16 → off.toNat ≤ s.o.toNat → limit s < s.o.toNat + len.toNat →
      ∃ s', exec (.matchTok len off) s = .next s' ∧ raisedMalformed causeOutputOverflow s s' ∧ s'.off = off) ∧
    (s.t.toNat + 3 ≤ s.inLen.toNat → off ≠ 0#16 → off.toNat ≤ s.o.toNat → s.o.toNat + len.toNat ≤ limit s →
      ∃ s', exec (.matchTok len off) s = .next s' ∧ tokenFrame s s' ∧ s'.off = off ∧
        s'.o.toNat = s.o.toNat + len.toNat ∧ s'.t.toNat = s.t.toNat + 3 ∧
        (s.cmd = opDecode →
          (∀ j, j < len.toNat → outByte s' (s.o.toNat + j) = outByte s' (s.o.toNat + j - off.toNat)) ∧
          outSameOutside s.o.toNat (s.o.toNat + len.toNat) s s') ∧
        (s.cmd ≠ opDecode → s'.out = s.out))

/-- R194, the unrolled form: a match repeats the last `off` bytes of the output before it, periodically. -/
def Obligations.MatchCopyIsPeriodic : Prop :=
  ∀ (s : State) (len : LenField) (off : OffField), len ≠ 0#7 → off ≠ 0#16 → s.cmd = opDecode →
    s.t.toNat + 3 ≤ s.inLen.toNat → off.toNat ≤ s.o.toNat → s.o.toNat + len.toNat ≤ s.outCap.toNat →
      ∃ s', exec (.matchTok len off) s = .next s' ∧
        (∀ j, j < len.toNat → outByte s' (s.o.toNat + j) = outByte s' (s.o.toNat + j - off.toNat)) ∧
        (∀ j, j < len.toNat →
          outByte s' (s.o.toNat + j) = outByte s (s.o.toNat - off.toNat + j % off.toNat))

/-- R99, R100, R101: the reserved encodings raise `MalformedStream` and do nothing else; a zero length is decided on the
header byte alone, whatever bytes follow or none; a zero offset is looked at only when the offset bytes are there. -/
def Obligations.ReservedTokensRaise : Prop :=
  ∀ (s : State) (len : LenField) (rest : List Byte), len ≠ 0#7 →
    decodeToken (0x00#8 :: rest) = .ok .reservedLit0 rest ∧
    decodeToken (0x80#8 :: rest) = .ok .reservedMatch0 rest ∧
    decodeToken (BitVec.ofNat 8 (128 + len.toNat) :: 0x00#8 :: 0x00#8 :: rest) = .ok (.reservedOff0 len) rest ∧
    (∃ s', exec .reservedLit0 s = .next s' ∧ raisedMalformed causeZeroLength s s') ∧
    (∃ s', exec .reservedMatch0 s = .next s' ∧ raisedMalformed causeZeroLength s s') ∧
    (s.t.toNat + 3 ≤ s.inLen.toNat →
      ∃ s', exec (.reservedOff0 len) s = .next s' ∧ raisedMalformed causeZeroOffset s s') ∧
    (s.inLen.toNat < s.t.toNat + 3 →
      ∃ s', exec (.reservedOff0 len) s = .next s' ∧ raisedMalformed causeTruncatedMatch s s')

/-- R191: fetching a token through the decoder and executing it is what the pseudocode of R191 to R193 does, which
reads IN at `t` byte by byte; so the registers of the token fetch hold what the pseudocode assigned before the token
ended or faulted (log entry 10). -/
def Obligations.TokenStepFollowsPseudocode : Prop :=
  ∀ s : State, s.t.toNat < s.inLen.toNat → tokenStep s = settle (walkToken s)

/-! ### Host commands and the host's side -/

/-- R224 with R281 and R282: what the start of each command does, one event, while no command runs. That `CMD` then
holds the code is the model's reading (log entry 7). -/
def Obligations.CommandsStart : Prop :=
  ∀ s : State, s.status ≠ statusBusy →
    exec .encode s = .next { s with
      cmd := opEncode, status := statusBusy, faultKind := 0#2, faultCause := 0#3, faultPos := 0#32, outLen := 0#32,
      head := [], chain := [], i := 0#32, lit := 0#7, o := 0#32 } ∧
    exec .decode s = .next { s with
      cmd := opDecode, status := statusBusy, faultKind := 0#2, faultCause := 0#3, faultPos := 0#32, outLen := 0#32,
      t := 0#32, o := 0#32 } ∧
    exec .probe s = .next { s with
      cmd := opProbe, status := statusBusy, faultKind := 0#2, faultCause := 0#3, faultPos := 0#32, outLen := 0#32,
      t := 0#32, o := 0#32 }

/-- R281: the start of an ENCODE sets every entry of HEAD and of CHAIN to 0, and `i`, `lit` and `o`, and so the first
LOOKUP of any hash after it answers 0; that the answer of a LOOKUP lands in `c` is the model's choice (log entry 4). -/
def Obligations.EncodeStartsWithEmptyIndex : Prop :=
  ∀ s : State, s.status ≠ statusBusy → ∃ s', exec .encode s = .next s' ∧
    (∀ h : HashVal, headAt s' h = 0#32) ∧ (∀ p : Nat, chainAt s' p = 0#32) ∧
    s'.i.toNat = 0 ∧ s'.lit.toNat = 0 ∧ s'.o.toNat = 0 ∧
    ∀ h : HashVal, ∃ s2, exec (.lookup h) s' = .next s2 ∧ s2.c = 0#32

/-- R227: `CMD.op` = 0 has no effect in any state. -/
def Obligations.CmdReservedHasNoEffect : Prop := ∀ s : State, exec .cmdReserved s = .next s

/-- A CMD write while BUSY changes no state and does not queue (R226). -/
def Obligations.CommandIgnoredWhileBusy : Prop :=
  ∀ (s : State) (op : BitVec 2), s.status = statusBusy → exec (decodeCmd op) s = .next s

/-- R228: which host writes land, which are ignored; the operands' writes while BUSY are the host's breach (R226),
which the model refuses (the model's choice, log entry 13). -/
def Obligations.HostWritesByAccessRight : Prop :=
  ∀ (s : State) (v a : Word) (b : Byte),
    hostStep (.writeReg .cmd v) s = exec (decodeCmd (BitVec.ofNat 2 (v.toNat % 4))) s ∧
    (s.status ≠ statusBusy →
      hostStep (.writeReg .inLen v) s = .next { s with inLen := v } ∧
      hostStep (.writeReg .outCap v) s = .next { s with outCap := v } ∧
      (∃ s', hostStep (.writeIn a b) s = .next s' ∧ s' = { s with inp := s'.inp } ∧
        inByte s' a.toNat = b ∧ ∀ x, x ≠ a.toNat → inByte s' x = inByte s x) ∧
      (∃ s', hostStep (.writeOut a b) s = .next s' ∧ s' = { s with out := s'.out } ∧
        outByte s' a.toNat = b ∧ ∀ x, x ≠ a.toNat → outByte s' x = outByte s x)) ∧
    (s.status = statusBusy → ∀ m, operandMove m = true → hostStep m s = .refused .operandWriteWhileBusy) ∧
    (∀ r, r = .outLen ∨ r = .status ∨ r = .faultKind ∨ r = .faultCause ∨ r = .faultPos →
      hostStep (.writeReg r v) s = .next s)

/-- R27 and R29: CMD reads 0, and the fault registers read 0 unless STATUS says FAULT; the other registers read what
they hold. That `OUT_LEN`, `IN_LEN` and `OUT_CAP` read so also while BUSY, where R226 and R228 give the read no
meaning, is the model's choice (log entry 14). -/
def Obligations.HostReadsRegisters : Prop :=
  ∀ s : State,
    hostRead .cmd s = 0#32 ∧ hostRead .inLen s = s.inLen ∧ hostRead .outCap s = s.outCap ∧
    hostRead .outLen s = s.outLen ∧ (hostRead .status s).toNat = s.status.toNat ∧
    (s.status ≠ statusFault →
      hostRead .faultKind s = 0#32 ∧ hostRead .faultCause s = 0#32 ∧ hostRead .faultPos s = 0#32) ∧
    (s.status = statusFault →
      (hostRead .faultKind s).toNat = s.faultKind.toNat ∧
      (hostRead .faultCause s).toNat = s.faultCause.toNat ∧ hostRead .faultPos s = s.faultPos)

/-- R280: after power-on reset, from any state, STATUS is IDLE and the fault registers and `OUT_LEN` are 0, and the
engine does nothing by itself; and so it is of the state the machine starts in. Of the registers R280 leaves unspecified
nothing is said. -/
def Obligations.PowerOnReset : Prop :=
  (∀ s : State, ∃ s', hostStep .powerOn s = .next s' ∧ s'.status = 0b000#3 ∧ s'.faultKind = 0#2 ∧
    s'.faultCause = 0#3 ∧ s'.faultPos = 0#32 ∧ s'.outLen = 0#32 ∧ engineStep s' = .next s') ∧
  State.reset.status = 0b000#3 ∧ State.reset.faultKind = 0#2 ∧ State.reset.faultCause = 0#3 ∧
  State.reset.faultPos = 0#32 ∧ State.reset.outLen = 0#32 ∧ engineStep State.reset = .next State.reset

/-! ### HashChainIndex -/

/-- R122: HASH at a position with three bytes of input, with the decided default of `HASH_FN` written as the number it
is; the result goes to `h` (the model's choice, log entry 4). -/
def Obligations.HashMeaning : Prop :=
  ∀ (s : State) (p : Word), p.toNat + 2 < s.inLen.toNat →
    ∃ s', exec (.hash p) s = .next s' ∧ s' = { s with h := s'.h } ∧
      s'.h.toNat = ((inByte s p.toNat).toNat <<< 8) ^^^ ((inByte s (p.toNat + 1)).toNat <<< 4) ^^^
        (inByte s (p.toNat + 2)).toNat

/-- R123: the default `HASH_FN` needs no reduction: as a number it is the exclusive-or of the shifted bytes, and its
greatest value `0xFFFF` is reached. -/
def Obligations.DefaultHashFitsTable : Prop :=
  (∀ b0 b1 b2 : Byte,
    b0.toNat <<< 8 ≤ 0xFF00 ∧ b1.toNat <<< 4 ≤ 0x0FF0 ∧ b2.toNat ≤ 0x00FF ∧
    (b0.toNat <<< 8) ^^^ (b1.toNat <<< 4) ^^^ b2.toNat ≤ 65535 ∧
    (hashFn b0 b1 b2).toNat = (b0.toNat <<< 8) ^^^ (b1.toNat <<< 4) ^^^ b2.toNat) ∧
  hashFn 0xFF#8 0x00#8 0xFF#8 = 0xFFFF#16

/-- Within 2 bytes of the end of the input HASH, INSERT and FIND stop: no byte is assumed (R121). The named stop is the
model's choice (log entry 12). -/
def Obligations.NoHashNearTheEnd : Prop :=
  ∀ (s : State) (p : Word), s.inLen.toNat ≤ p.toNat + 2 →
    exec (.hash p) s = .fault (.inIndex (p.toNat + 2)) ∧
    exec (.insert p) s = .fault (.inIndex (p.toNat + 2)) ∧
    exec (.find p) s = .fault (.inIndex (p.toNat + 2))

/-- LOOKUP answers `HEAD[h]` and CHAINOF answers `CHAIN[p mod 65536]` (R124, R125); the answer goes to `c` (the model's
choice, log entry 4), and nothing else changes. -/
def Obligations.LookupAndChainOfMeaning : Prop :=
  ∀ (s : State) (h : HashVal) (p : Word),
    exec (.lookup h) s = .next { s with c := readCell s.head h.toNat } ∧
    exec (.chainOf p) s = .next { s with c := readCell s.chain (p.toNat % 65536) }

/-- R126 and R127: INSERT links `p` to the old head of its chain, then makes it the head; every other entry of both
tables and everything else is as before. -/
def Obligations.InsertMeaning : Prop :=
  ∀ (s : State) (p : Word), p.toNat + 2 < s.inLen.toNat →
    ∃ s', exec (.insert p) s = .next s' ∧ s' = { s with head := s'.head, chain := s'.chain } ∧
      (headAt s' (hashAt hashFn s p.toNat)).toNat = p.toNat + 1 ∧
      chainAt s' p.toNat = headAt s (hashAt hashFn s p.toNat) ∧
      (∀ h, h ≠ hashAt hashFn s p.toNat → headAt s' h = headAt s h) ∧
      (∀ q, q % 65536 ≠ p.toNat % 65536 → chainAt s' q = chainAt s q)

/-- R129: inserting the position at the cursor, where it can be inserted, turns the index of the input before it into
the index of the input before the next one; where it cannot, the index is already that. For every `HASH_FN`. -/
def Obligations.InsertKeepsIndex : Prop :=
  ∀ (hf : Config.HashFn) (s : State) (i : Nat), i < 4294967295 → IndexOf hf i s →
    IndexOf hf (i + 1) (if hashable s i then insertAt hf i s else s)

/-! ### MatchFinder -/

/-- R140: FIND completes wherever HEAD and CHAIN are the index of the input before its cursor; it returns the best pair
(in the closed form of R148), which is `(0, 1)` or a true match of 4 to 127 bytes at most 65535 back, and writes only
the MatchFinder's registers. -/
def Obligations.FindMeaning : Prop :=
  ∀ (s : State) (i : Word), i.toNat + 2 < s.inLen.toNat → IndexOf hashFn i.toNat s →
    ∃ s', exec (.find i) s = .next s' ∧ searchFrame s s' ∧
      FindResult s i.toNat s'.bestOff.toNat s'.bestLen.toNat ∧
      ((s'.bestOff.toNat = 0 ∧ s'.bestLen.toNat = 1) ∨
       (1 ≤ s'.bestOff.toNat ∧ s'.bestOff.toNat ≤ 65535 ∧ s'.bestOff.toNat ≤ i.toNat ∧
        4 ≤ s'.bestLen.toNat ∧ s'.bestLen.toNat ≤ 127 ∧ i.toNat + s'.bestLen.toNat ≤ s.inLen.toNat ∧
        ∀ j, j < s'.bestLen.toNat →
          inByte s (i.toNat + j) = inByte s (i.toNat - s'.bestOff.toNat + j)))

/-- R148: FIND's result in closed form, for every `HASH_FN`: the most recent window position of greatest match length,
if that is 4 or more, the length clamped to 127. -/
def Obligations.FindClosedForm : Prop :=
  ∀ (hf : Config.HashFn) (s : State) (i : Nat), i + 2 < s.inLen.toNat → IndexOf hf i s →
    ∃ s', findAt hf i s = .ok s' ∧ FindResult s i s'.bestOff.toNat s'.bestLen.toNat

/-! ### Encoder -/

/-- R168: FLUSH writes the pending run as one LIT token, or, where it does not fit, raises `BufferTooSmall` and leaves
OUT and `o`. -/
def Obligations.FlushMeaning : Prop :=
  ∀ s : State, 1 ≤ s.lit.toNat → s.lit.toNat ≤ s.i.toNat → s.i.toNat ≤ s.inLen.toNat →
    (s.outCap.toNat < s.o.toNat + 1 + s.lit.toNat → exec .flush s = .next (encoderFault s)) ∧
    (s.o.toNat + 1 + s.lit.toNat ≤ s.outCap.toNat →
      ∃ s', exec .flush s = .next s' ∧ s' = { s with out := s'.out, o := s'.o, lit := 0#7 } ∧
        s'.o.toNat = s.o.toNat + 1 + s.lit.toNat ∧
        (outByte s' s.o.toNat).toNat = s.lit.toNat ∧
        (∀ j, j < s.lit.toNat → outByte s' (s.o.toNat + 1 + j) = inByte s (s.i.toNat - s.lit.toNat + j)) ∧
        outSameOutside s.o.toNat (s.o.toNat + 1 + s.lit.toNat) s s')

/-- FLUSH with no run pending, or a run that is not inside the input, stops: R168 requires `lit >= 1` and R171 places
the run before the cursor. The named stops are the model's choice (log entry 12). -/
def Obligations.FlushStopsOutsideContract : Prop :=
  ∀ s : State,
    (s.lit = 0#7 → exec .flush s = .fault .emptyRun) ∧
    (s.lit ≠ 0#7 → s.o.toNat + 1 + s.lit.toNat ≤ s.outCap.toNat →
      (s.i.toNat < s.lit.toNat ∨ s.inLen.toNat < s.i.toNat) → exec .flush s = .fault .runOutsideInput)

/-- R169: EMITMATCH writes header, high byte and low byte, or, where they do not fit, raises `BufferTooSmall` and
leaves OUT and `o`. -/
def Obligations.EmitMatchMeaning : Prop :=
  ∀ (s : State) (len : LenField) (off : OffField),
    (s.outCap.toNat < s.o.toNat + 3 → exec (.emitMatch len off) s = .next (encoderFault s)) ∧
    (s.o.toNat + 3 ≤ s.outCap.toNat →
      ∃ s', exec (.emitMatch len off) s = .next s' ∧ s' = { s with out := s'.out, o := s'.o } ∧
        s'.o.toNat = s.o.toNat + 3 ∧
        (outByte s' s.o.toNat).toNat = 128 + len.toNat ∧
        (outByte s' (s.o.toNat + 1)).toNat = off.toNat / 256 ∧
        (outByte s' (s.o.toNat + 2)).toNat = off.toNat % 256 ∧
        outSameOutside s.o.toNat (s.o.toNat + 3) s s')

/-- ENCSTEP completes, between the steps of an ENCODE with input left and room for the largest emission of a step:
the cursor moves by the length of the pair R161 gives (FIND's closed form, or `(0, 1)` near the end), STATUS stays,
and nothing but what an ENCSTEP writes changes. -/
def Obligations.EncStepCompletes : Prop :=
  ∀ s : State, EncodeRunning hashFn s → s.i.toNat < s.inLen.toNat →
    s.o.toNat + s.lit.toNat + 4 ≤ s.outCap.toNat →
      ∃ s' off len, exec .encStep s = .next s' ∧ encodeFrame s s' ∧
        (s.i.toNat + 2 < s.inLen.toNat → FindResult s s.i.toNat off len) ∧
        (s.inLen.toNat ≤ s.i.toNat + 2 → off = 0 ∧ len = 1) ∧
        s'.i.toNat = s.i.toNat + len ∧ s'.i.toNat ≤ s.inLen.toNat ∧
        (off = 0 → s.lit.toNat < 126 → s'.lit.toNat = s.lit.toNat + 1 ∧ s'.o = s.o) ∧
        (off = 0 → s.lit.toNat = 126 → s'.lit.toNat = 0 ∧ s'.o.toNat = s.o.toNat + 128) ∧
        (off ≠ 0 → s'.lit.toNat = 0 ∧
          s'.o.toNat = s.o.toNat + (if s.lit.toNat = 0 then 3 else s.lit.toNat + 4))

/-- ENCSTEP without a match and with room in the run (R162, R164, R165): one more byte in the run, the cursor one on,
no byte of OUT written, the position inserted if it can be. -/
def Obligations.EncStepGrowsRun : Prop :=
  ∀ (s : State) (f : Found), s.i.toNat < s.inLen.toNat → searchCursor hashFn s = .ok f → f.off = 0 →
    s.lit.toNat < 126 →
      ∃ s', exec .encStep s = .next s' ∧ encodeFrame s s' ∧ s'.out = s.out ∧ s'.o = s.o ∧
        s'.lit.toNat = s.lit.toNat + 1 ∧ s'.i.toNat = s.i.toNat + 1 ∧
        (s.i.toNat + 2 < s.inLen.toNat →
          (headAt s' (hashAt hashFn s s.i.toNat)).toNat = s.i.toNat + 1 ∧
          chainAt s' s.i.toNat = headAt s (hashAt hashFn s s.i.toNat)) ∧
        (s.inLen.toNat ≤ s.i.toNat + 2 → s'.head = s.head ∧ s'.chain = s.chain)

/-- ENCSTEP without a match that brings the run to 127 bytes (R166): the run goes out after the cursor has moved, or
the step raises `BufferTooSmall` at the new cursor (R244). -/
def Obligations.EncStepFlushesFullRun : Prop :=
  ∀ (s : State) (f : Found), s.i.toNat < s.inLen.toNat → searchCursor hashFn s = .ok f → f.off = 0 →
    s.lit.toNat = 126 → 126 ≤ s.i.toNat →
    (s.o.toNat + 128 ≤ s.outCap.toNat →
      ∃ s', exec .encStep s = .next s' ∧ encodeFrame s s' ∧
        s'.lit.toNat = 0 ∧ s'.i.toNat = s.i.toNat + 1 ∧ s'.o.toNat = s.o.toNat + 128 ∧
        (outByte s' s.o.toNat).toNat = 127 ∧
        (∀ j, j < 127 → outByte s' (s.o.toNat + 1 + j) = inByte s (s.i.toNat - 126 + j)) ∧
        outSameOutside s.o.toNat (s.o.toNat + 128) s s') ∧
    (s.outCap.toNat < s.o.toNat + 128 →
      ∃ s', exec .encStep s = .next s' ∧ s'.status = statusFault ∧ s'.faultKind = kindBufferTooSmall ∧
        s'.faultCause = causeEncOutputFull ∧ s'.faultPos.toNat = s.i.toNat + 1 ∧ s'.outLen = s.o ∧
        s'.o = s.o ∧ s'.out = s.out)

/-- ENCSTEP with a match (R163 to R165): the pending run goes out, then the match token; every position of the match
is inserted, and the cursor moves past it. -/
def Obligations.EncStepTakesMatch : Prop :=
  ∀ (s : State) (f : Found), s.i.toNat < s.inLen.toNat → s.lit.toNat ≤ s.i.toNat →
    searchCursor hashFn s = .ok f → f.off ≠ 0 →
    s.o.toNat + (if s.lit = 0#7 then 0 else 1 + s.lit.toNat) + 3 ≤ s.outCap.toNat →
      ∃ s', exec .encStep s = .next s' ∧ encodeFrame s s' ∧
        s'.lit = 0#7 ∧ s'.i.toNat = s.i.toNat + f.len ∧ 4 ≤ f.len ∧ f.len ≤ 127 ∧
        s'.o.toNat = s.o.toNat + (if s.lit = 0#7 then 0 else 1 + s.lit.toNat) + 3 ∧
        outHolds s' s.o.toNat
          ((if s.lit = 0#7 then [] else encodeLit (inSlice s (s.i.toNat - s.lit.toNat) s.lit.toNat)) ++
            encodeMatch (BitVec.ofNat 7 f.len) (BitVec.ofNat 16 f.off)) ∧
        outSameOutside s.o.toNat s'.o.toNat s s' ∧
        s'.head = (insertRange hashFn f.len s.i.toNat s).head ∧
        s'.chain = (insertRange hashFn f.len s.i.toNat s).chain

/-- ENCSTEP with a match whose tokens do not fit (R163, R169, R246): a pending run that does not fit is not written;
one that fits stays written when the match after it does not. -/
def Obligations.EncStepRaisesBufferTooSmall : Prop :=
  ∀ (s : State) (f : Found), s.i.toNat < s.inLen.toNat → s.lit.toNat ≤ s.i.toNat →
    searchCursor hashFn s = .ok f → f.off ≠ 0 →
    (s.lit ≠ 0#7 → s.outCap.toNat < s.o.toNat + 1 + s.lit.toNat →
      exec .encStep s = .next (encoderFault f.st)) ∧
    (s.lit = 0#7 → s.outCap.toNat < s.o.toNat + 3 → exec .encStep s = .next (encoderFault f.st)) ∧
    (s.lit ≠ 0#7 → s.o.toNat + 1 + s.lit.toNat ≤ s.outCap.toNat →
      s.outCap.toNat < s.o.toNat + 1 + s.lit.toNat + 3 →
        ∃ s1, exec .flush f.st = .next s1 ∧ exec .encStep s = .next (encoderFault s1))

/-- Between the steps of an ENCODE an ENCSTEP either leads to the same situation further on, or ends the command with
`BufferTooSmall`; it never stops. For every `HASH_FN`. -/
def Obligations.EncStepKeepsRunning : Prop :=
  ∀ (hf : Config.HashFn) (s : State), EncodeRunning hf s → s.i.toNat < s.inLen.toNat →
    (∃ s', encodeStep hf s = .ok s' ∧ EncodeRunning hf s' ∧ s.i.toNat < s'.i.toNat ∧ s'.status = s.status) ∨
    (∃ s', encodeStep hf s = .error (.raised s') ∧ s'.status = statusFault ∧
      s'.faultKind = kindBufferTooSmall ∧ s'.faultCause = causeEncOutputFull ∧ s'.outLen = s'.o)

/-! ### The engine's step -/

/-- The step of a running token walk with input left is `exec` of the token decoded at `t`; a token that is not all
there raises the truncation fault of its kind and changes nothing else but the registers of the fetch (R191, R198, R199;
what those hold after a fault is log entry 10). -/
def Obligations.StepRunsDecodedToken : Prop :=
  ∀ s s0 : State, engineTurn s s0 → s.status = statusBusy → (s.cmd = opDecode ∨ s.cmd = opProbe) →
    s.t.toNat < s.inLen.toNat →
    (∀ ins rest, decodeToken (tokenWindow s) = .ok ins rest → step s = exec ins s0) ∧
    (∀ len, decodeToken (tokenWindow s) = .reject (.truncatedLiteral len) →
      step s = .next (tokenFault causeTruncatedLiteral (litHeader len) len s.off s0)) ∧
    (∀ len, decodeToken (tokenWindow s) = .reject (.truncatedMatch len) →
      step s = .next (tokenFault causeTruncatedMatch (matchHeader len) len s.off s0))

/-- The step of a running ENCODE is an ENCSTEP while input is left, then the final flush if a run is pending (R160,
R167). That the final flush is a step of its own, beside the ENCSTEPs and the end event, is the model's choice (log
entry 11). -/
def Obligations.StepRunsEncoder : Prop :=
  ∀ s s0 : State, engineTurn s s0 → s.status = statusBusy → s.cmd = opEncode →
    (s.i.toNat < s.inLen.toNat → step s = exec .encStep s0) ∧
    (s.inLen.toNat ≤ s.i.toNat → s.lit ≠ 0#7 → step s = exec .flush s0)

/-- R170 and R196: when the input is exhausted and no run is pending the command ends: `OUT_LEN <- o`, STATUS to DONE,
nothing else. That the working registers and the tables keep their values then is the model's choice (log entry 15),
and so is that the end is a step of its own (log entry 11). -/
def Obligations.StepEndsCommand : Prop :=
  ∀ s s0 : State, engineTurn s s0 → s.status = statusBusy →
    (s.cmd = opEncode → s.inLen.toNat ≤ s.i.toNat → s.lit = 0#7 →
      step s = .next { s0 with outLen := s.o, status := statusDone }) ∧
    ((s.cmd = opDecode ∨ s.cmd = opProbe) → s.inLen.toNat ≤ s.t.toNat →
      step s = .next { s0 with outLen := s.o, status := statusDone })

/-- While no command runs the engine does nothing: after power-on, after DONE, and after a fault, whose record stays
(R245, R247, R280). -/
def Obligations.StepIdlesWithoutCommand : Prop :=
  ∀ s s0 : State, engineTurn s s0 → s.status ≠ statusBusy → step s = .next s0

/-- A host move in the slot is what the step does; a CMD write is the command its `op` field names. -/
def Obligations.StepTakesHostMove : Prop :=
  ∀ (s : State) (m : HostMove) (rest : List (Option HostMove)), s.host = some m :: rest →
    step s = hostStep m { s with host := rest } ∧
    (∀ v, m = .writeReg .cmd v → step s = exec (decodeCmd (v.setWidth 2)) { s with host := rest })

/-- The word of a table row placed by `withFetchWord` is what the next step runs: the row's instruction, in a state
that differs from the placed one only in the host's slot. The model's own convention (log entry 5). -/
def Obligations.FetchWordRunsNext : Prop :=
  ∀ (s : State) (nbits w : Nat) (ins : Instr), decodeTableWord nbits w = some ins → nbits ≤ 1024 →
    s.t.toNat + 128 ≤ 4294967295 →
      step (s.withFetchWord nbits w) = exec ins { s.withFetchWord nbits w with host := s.host }

/-! ### Whole-machine rules -/

/-- R40: STATUS changes only along the listed transitions, each by its own cause. -/
def Obligations.StatusTransitions : Prop :=
  ∀ s s' : State, legalStatus s.status → step s = .next s' →
    s'.status = s.status ∨
    (s.status ≠ statusBusy ∧ s'.status = statusBusy ∧
      ∃ v rest, s.host = some (.writeReg .cmd v) :: rest ∧ v.setWidth 2 ≠ 0#2) ∨
    (s.status = statusBusy ∧ (s'.status = statusDone ∨ s'.status = statusFault) ∧ ∃ s0, engineTurn s s0) ∨
    (s'.status = statusIdle ∧ ∃ rest, s.host = some .powerOn :: rest)

/-- The engine never writes IN, `IN_LEN` or `OUT_CAP`, nor the command code, nor the host's moves (R26, R60). -/
def Obligations.EngineLeavesOperands : Prop :=
  ∀ s s' : State, engineStep s = .next s' →
    s'.inp = s.inp ∧ s'.inLen = s.inLen ∧ s'.outCap = s.outCap ∧ s'.cmd = s.cmd ∧ s'.host = s.host

/-- A token walk touches neither the tables nor the encoder's and MatchFinder's registers, and an ENCODE does not touch
the decoder's; PROBE writes no byte of OUT (R34, R61, R120). -/
def Obligations.CommandsKeepToTheirState : Prop :=
  ∀ s s' : State, engineStep s = .next s' →
    (s.cmd ≠ opEncode →
      s' = { s with
        out := s'.out, o := s'.o, t := s'.t, hdr := s'.hdr, len := s'.len, off := s'.off, outLen := s'.outLen,
        status := s'.status, faultKind := s'.faultKind, faultCause := s'.faultCause, faultPos := s'.faultPos }) ∧
    (s.cmd ≠ opEncode → s.cmd ≠ opDecode → s'.out = s.out) ∧
    (s.cmd = opEncode → s'.t = s.t ∧ s'.hdr = s.hdr ∧ s'.len = s.len ∧ s'.off = s.off)

/-- No step of the engine writes OUT below `o` or at or beyond `OUT_CAP` (R63, R76): output only grows upwards. -/
def Obligations.OutputWritesInBounds : Prop :=
  ∀ s s' : State, engineStep s = .next s' → outSameOutside s.o.toNat s.outCap.toNat s s'

/-- The sequencing register only moves forward and never passes `IN_LEN` (R24). -/
def Obligations.SequencingIsForward : Prop :=
  ∀ s s' : State, engineStep s = .next s' →
    (s.cmd = opEncode → s.i.toNat ≤ s'.i.toNat ∧ (s.i.toNat ≤ s.inLen.toNat → s'.i.toNat ≤ s.inLen.toNat)) ∧
    (s.cmd ≠ opEncode → s.t.toNat ≤ s'.t.toNat ∧ (s.t.toNat ≤ s.inLen.toNat → s'.t.toNat ≤ s.inLen.toNat))

/-- R246 for DECODE and PROBE: the faulting token has had no effect on OUT, `o` and `t`, and `OUT_LEN` counts the
completed tokens' bytes. -/
def Obligations.TokenFaultsArePrecise : Prop :=
  ∀ s s' : State, s.status = statusBusy → s.cmd ≠ opEncode → engineStep s = .next s' →
    s'.status = statusFault →
      s'.out = s.out ∧ s'.o = s.o ∧ s'.t = s.t ∧ s'.outLen = s.o ∧ s'.faultPos = s.t ∧
      s'.faultKind = kindMalformedStream ∧ 1 ≤ s'.faultCause.toNat ∧ s'.faultCause.toNat ≤ 6

/-- The invariant of the machine holds after reset, whose unspecified values are the model's choice (log entries 1 and
3). -/
def Obligations.ResetMeetsInvariant : Prop := Inv State.reset

/-- Every step of the machine keeps the invariant, the host's moves among them: canonical storages, the legal STATUS
patterns, legal fault registers, the bounds of a running walk, and while an ENCODE runs the index of R129. -/
def Obligations.StepKeepsInvariant : Prop := ∀ s s' : State, Inv s → step s = .next s' → Inv s'

/-- The engine has no undefined behaviour (R231, R252): from a state that meets the invariant every step answers a next
state, but for a host's write of a running command's operands, which is refused (the model's choice, log entry 13). -/
def Obligations.StepNeverStops : Prop :=
  ∀ s : State, Inv s →
    (∃ s', step s = .next s') ∨
    (s.status = statusBusy ∧ step s = .refused .operandWriteWhileBusy ∧
      ∃ m rest, s.host = some m :: rest ∧ operandMove m = true)

/-! ### Whole commands -/

/-- R202: a token walk ends, in DONE or FAULT, after at most one step for every two bytes left and one more, the end of
the command being a step of its own (the model's choice, log entry 11). -/
def Obligations.TokenWalkTerminates : Prop :=
  ∀ s : State, s.host = [] → s.status = statusBusy → (s.cmd = opDecode ∨ s.cmd = opProbe) →
    s.t.toNat ≤ s.inLen.toNat →
      ∃ k s', k ≤ (s.inLen.toNat - s.t.toNat) / 2 + 1 ∧ Sys2Proof.core.run k s = .next s' ∧ ended s'

/-- An ENCODE ends, in DONE or FAULT, after at most one step for every byte left and two more (R231), the final flush
and the end of the command being steps of their own (the model's choice, log entry 11). -/
def Obligations.EncodeTerminates : Prop :=
  ∀ s : State, Inv s → s.host = [] → s.status = statusBusy → s.cmd = opEncode →
    ∃ k s', k ≤ s.inLen.toNat - s.i.toNat + 2 ∧ Sys2Proof.core.run k s = .next s' ∧ ended s'

/-- R231: the two grains agree. Each command started while no other runs is total, and the engine's steps from its
start reach the very state the whole-command function answers, in DONE or FAULT. -/
def Obligations.CoarseAndFineGrainAgree : Prop :=
  ∀ s : State, quiet s →
    (∃ s0 s', exec .encode s = .next s0 ∧ settle (wholeEncode hashFn s) = .next s' ∧ reaches s0 s' ∧ ended s') ∧
    (∃ s0 s', exec .decode s = .next s0 ∧ settle (wholeWalk opDecode s) = .next s' ∧ reaches s0 s' ∧ ended s') ∧
    (∃ s0 s', exec .probe s = .next s0 ∧ settle (wholeWalk opProbe s) = .next s' ∧ reaches s0 s' ∧ ended s')

/-- R8: for every `HASH_FN` ENCODE ends with the same OUT and the same results as with the default, whatever
`OUT_CAP` is. -/
def Obligations.EncodeIndependentOfHash : Prop :=
  ∀ (hf : Config.HashFn) (s : State), ∃ a b, settle (wholeEncode hf s) = .next a ∧
    settle (wholeEncode hashFn s) = .next b ∧
    a.out = b.out ∧ a.outLen = b.outLen ∧ a.status = b.status ∧
    a.faultKind = b.faultKind ∧ a.faultCause = b.faultCause ∧ a.faultPos = b.faultPos

/-- R172: with `OUT_CAP >= 2 × IN_LEN` ENCODE ends DONE, and the encoded length is at most `2 × IN_LEN`. -/
def Obligations.EncodeFitsTwiceTheInput : Prop :=
  ∀ s : State, quiet s → 2 * s.inLen.toNat ≤ s.outCap.toNat →
    ∃ s0 s', exec .encode s = .next s0 ∧ reaches s0 s' ∧ s'.status = statusDone ∧
      s'.outLen.toNat ≤ 2 * s.inLen.toNat

/-- ENCODE's stream is that of the closed form: the tokens `tokensOf` gives the input, in their encodings (R148, R161 to
R167, R173). -/
def Obligations.EncodeEmitsClosedForm : Prop :=
  ∀ (s : State) (input : List Byte), quiet s → inputIs s input → 2 * s.inLen.toNat ≤ s.outCap.toNat →
    ∃ s0 s', exec .encode s = .next s0 ∧ reaches s0 s' ∧ s'.status = statusDone ∧
      outputIs s' (encodeStream (tokensOf input))

/-- R174: the tokens of an input are all legal, every match at least 4 long, and a literal run is followed by another
only if it is full; and what they stand for is the input. -/
def Obligations.TokensOfInputAreLegal : Prop :=
  ∀ input : List Byte,
    (∀ tok ∈ tokensOf input, tok.wf = true ∧
      ((∃ bytes, tok = .lit bytes) ∨ ∃ len off, tok = .matchTok len off ∧ 4 ≤ len.toNat)) ∧
    (∀ k a b, (tokensOf input)[k]? = some (.lit a) → (tokensOf input)[k + 1]? = some (.lit b) → a.length = 127) ∧
    expand (tokensOf input) [] = some input

/-- DECODE of a stream of legal tokens ends DONE with what the stream stands for, and PROBE ends DONE with its length
and OUT untouched (R192 to R197). -/
def Obligations.DecodeExpandsStream : Prop :=
  ∀ (s : State) (toks : List Instr) (bytes : List Byte), quiet s → (∀ tok ∈ toks, tok.wf = true) →
    expand toks [] = some bytes → inputIs s (encodeStream toks) →
    (bytes.length ≤ s.outCap.toNat →
      ∃ s0 s', exec .decode s = .next s0 ∧ reaches s0 s' ∧ s'.status = statusDone ∧ outputIs s' bytes) ∧
    (bytes.length ≤ 4294967295 →
      ∃ s0 s', exec .probe s = .next s0 ∧ reaches s0 s' ∧ s'.status = statusDone ∧
        s'.outLen.toNat = bytes.length ∧ s'.out = s.out)

/-- R204: PROBE and DECODE agree. Where PROBE ends DONE with a length, DECODE with that capacity ends DONE with it, and
with a smaller one in `OUTPUT_OVERFLOW`; where PROBE faults, DECODE with capacity for the tokens before it faults the
same way at the same token. -/
def Obligations.ProbeAndDecodeAgree : Prop :=
  ∀ (s p : State) (cap : Word), settle (wholeWalk opProbe s) = .next p →
    ∃ d, settle (wholeWalk opDecode { s with outCap := cap }) = .next d ∧
      (p.status = statusDone → p.outLen.toNat ≤ cap.toNat → d.status = statusDone ∧ d.outLen = p.outLen) ∧
      (p.status = statusDone → cap.toNat < p.outLen.toNat →
        d.status = statusFault ∧ d.faultKind = kindMalformedStream ∧ d.faultCause = causeOutputOverflow) ∧
      (p.status = statusFault → p.outLen.toNat ≤ cap.toNat →
        d.status = statusFault ∧ d.faultKind = p.faultKind ∧ d.faultCause = p.faultCause ∧ d.faultPos = p.faultPos)

/-- R175: the round trip. Whatever ENCODE wrote for an input, placed as the input of a DECODE with room for it, decodes
to that input, and PROBE measures its length. -/
def Obligations.RoundTrip : Prop :=
  ∀ (s : State) (input : List Byte), quiet s → inputIs s input → 2 * s.inLen.toNat ≤ s.outCap.toNat →
    ∃ s0 s1, exec .encode s = .next s0 ∧ reaches s0 s1 ∧ s1.status = statusDone ∧
      ∀ d : State, quiet d → inputIs d (outSlice s1 s1.outLen.toNat) →
        (input.length ≤ d.outCap.toNat →
          ∃ d0 d1, exec .decode d = .next d0 ∧ reaches d0 d1 ∧ d1.status = statusDone ∧ outputIs d1 input) ∧
        (∃ d0 d1, exec .probe d = .next d0 ∧ reaches d0 d1 ∧ d1.status = statusDone ∧
          d1.outLen.toNat = input.length)
end

