-- ==== Sys2Proof/Laws/Memory.lean ====
section
/-! SUPPORT. The laws of the sparse storages: reading after writing, and that every operation keeps the canonical
form. -/

namespace Sys2Proof.Machine

variable {w : Nat}

/-! ### Reading after writing -/

theorem readCell_eraseCell_other (m : Cells w) {a x : Nat} (h : x ≠ a) :
    readCell (eraseCell m a) x = readCell m x := by
  unfold eraseCell
  induction m with
  | nil => rfl
  | cons c rest ih =>
    rw [List.filter_cons]
    by_cases hk : c.1 = a
    · simp [hk, readCell, ih, h.symm]
    · simp [hk, readCell, ih]

theorem readCell_eraseCell_same (m : Cells w) (a : Nat) : readCell (eraseCell m a) a = unlisted w := by
  unfold eraseCell
  induction m with
  | nil => rfl
  | cons c rest ih =>
    rw [List.filter_cons]
    by_cases hk : c.1 = a <;> simp [hk, readCell, ih]

theorem readCell_insertCell_other (m : Cells w) {a x : Nat} (v : BitVec w) (h : x ≠ a) :
    readCell (insertCell a v m) x = readCell m x := by
  induction m with
  | nil => simp [insertCell, readCell, h.symm]
  | cons c rest ih =>
    unfold insertCell
    split
    · simp [readCell, h.symm]
    · simp [readCell, ih]

theorem readCell_insertCell_same (m : Cells w) (a : Nat) (v : BitVec w) (h : ∀ c ∈ m, c.1 ≠ a) :
    readCell (insertCell a v m) a = v := by
  induction m with
  | nil => simp [insertCell, readCell]
  | cons c rest ih =>
    unfold insertCell
    split
    · simp [readCell]
    · simp [readCell, h c (by simp), ih fun d hd => h d (by simp [hd])]

theorem eraseCell_lacks (m : Cells w) (a : Nat) : ∀ c ∈ eraseCell m a, c.1 ≠ a := by
  simp [eraseCell]

@[simp] theorem readCell_writeCell_same (m : Cells w) (a : Nat) (v : BitVec w) : readCell (writeCell m a v) a = v := by
  unfold writeCell
  split
  · rename_i h; rw [readCell_eraseCell_same, h]
  · exact readCell_insertCell_same _ _ _ (eraseCell_lacks m a)

theorem readCell_writeCell_other (m : Cells w) {a x : Nat} (v : BitVec w) (h : x ≠ a) :
    readCell (writeCell m a v) x = readCell m x := by
  unfold writeCell
  split
  · exact readCell_eraseCell_other m h
  · rw [readCell_insertCell_other _ _ h, readCell_eraseCell_other m h]

theorem readCell_writeCell (m : Cells w) (a x : Nat) (v : BitVec w) :
    readCell (writeCell m a v) x = if x = a then v else readCell m x := by
  split
  · subst x; simp
  · exact readCell_writeCell_other m v ‹_›

/-- Bytes written at rising indices: the ones written read back, every other index reads as before. -/
theorem readCell_writeBytes (bytes : List Byte) (m : Cells 8) (a x : Nat) :
    readCell (writeBytes m a bytes) x = if h : a ≤ x ∧ x < a + bytes.length then bytes[x - a] else readCell m x := by
  induction bytes generalizing m a with
  | nil => simp [writeBytes]
  | cons b bs ih =>
    rw [writeBytes, ih, readCell_writeCell]
    by_cases hx : x = a
    · subst hx; simp
    · by_cases h : a + 1 ≤ x ∧ x < a + 1 + bs.length
      · have h' : a ≤ x ∧ x < a + (b :: bs).length := by simp; omega
        rw [dif_pos h, dif_pos h', List.getElem_cons, dif_neg (by omega)]
        simp only [Nat.sub_sub]
      · have h' : ¬ (a ≤ x ∧ x < a + (b :: bs).length) := by simp; omega
        rw [dif_neg h, dif_neg h', if_neg hx]

theorem readCell_writeBytes_outside (bytes : List Byte) (m : Cells 8) {a x : Nat}
    (h : x < a ∨ a + bytes.length ≤ x) : readCell (writeBytes m a bytes) x = readCell m x := by
  rw [readCell_writeBytes, dif_neg (by omega)]

theorem readCell_writeBytes_inside (bytes : List Byte) (m : Cells 8) {a j : Nat} (h : j < bytes.length) :
    readCell (writeBytes m a bytes) (a + j) = bytes[j] := by
  rw [readCell_writeBytes, dif_pos (by omega)]; simp

/-- The match copy leaves every index outside its destination. -/
theorem readCell_copyBack_outside (off count : Nat) (m : Cells 8) {o x : Nat} (h : x < o ∨ o + count ≤ x) :
    readCell (copyBack off count o m) x = readCell m x := by
  induction count generalizing m o with
  | zero => rfl
  | succ n ih => rw [copyBack, ih _ (by omega), readCell_writeCell_other _ _ (by omega)]

/-- R194: after the copy each byte of the destination is the one `off` before it. -/
theorem readCell_copyBack_inside (off count : Nat) (m : Cells 8) {o j : Nat} (h1 : 1 ≤ off) (h2 : off ≤ o)
    (hj : j < count) :
    readCell (copyBack off count o m) (o + j) = readCell (copyBack off count o m) (o + j - off) := by
  induction count generalizing m o j with
  | zero => omega
  | succ n ih =>
    rw [copyBack]
    cases j with
    | zero =>
      rw [readCell_copyBack_outside _ _ _ (by omega), readCell_copyBack_outside _ _ _ (by omega), Nat.add_zero,
        readCell_writeCell_same, readCell_writeCell_other _ _ (by omega)]
    | succ j =>
      have := ih (writeCell m o (readCell m (o - off))) (o := o + 1) (j := j) (by omega) (by omega)
      rwa [show o + 1 + j = o + (j + 1) by omega] at this

/-! ### The canonical form -/

theorem cellsWf_iff (bound : Nat) (m : Cells w) :
    cellsWf bound m = true ↔ (m.Pairwise fun x y => x.1 < y.1) ∧ ∀ c ∈ m, c.2 ≠ unlisted w ∧ c.1 < bound := by
  simp [cellsWf]

theorem cellsWf_nil (bound : Nat) : cellsWf bound ([] : Cells w) = true := by simp [cellsWf]

theorem mem_insertCell (m : Cells w) (a : Nat) (v : BitVec w) (c : Nat × BitVec w) :
    c ∈ insertCell a v m ↔ c = (a, v) ∨ c ∈ m := by
  induction m with
  | nil => simp [insertCell]
  | cons d rest ih =>
    unfold insertCell
    split
    · simp
    · simp [ih, or_left_comm]

theorem insertCell_pairwise (m : Cells w) (a : Nat) (v : BitVec w) (hm : m.Pairwise fun x y => x.1 < y.1)
    (ha : ∀ c ∈ m, c.1 ≠ a) : (insertCell a v m).Pairwise fun x y => x.1 < y.1 := by
  induction m with
  | nil => simp [insertCell]
  | cons d rest ih =>
    obtain ⟨hd, hrest⟩ := List.pairwise_cons.mp hm
    have hne := ha d (by simp)
    unfold insertCell
    split
    · refine List.pairwise_cons.mpr ⟨fun c hc => ?_, hm⟩
      rcases List.mem_cons.mp hc with rfl | hc
      · assumption
      · exact Nat.lt_trans ‹_› (hd c hc)
    · refine List.pairwise_cons.mpr ⟨fun c hc => ?_, ih hrest fun c hc => ha c (by simp [hc])⟩
      rcases (mem_insertCell rest a v c).mp hc with rfl | hc
      · show d.1 < a; omega
      · exact hd c hc

/-- A write keeps the canonical form. -/
theorem cellsWf_writeCell {bound : Nat} {m : Cells w} {a : Nat} (v : BitVec w) (hm : cellsWf bound m = true)
    (ha : a < bound) : cellsWf bound (writeCell m a v) = true := by
  rw [cellsWf_iff] at hm ⊢
  have he : (eraseCell m a).Pairwise fun x y => x.1 < y.1 := hm.1.filter _
  have hall : ∀ c ∈ eraseCell m a, c.2 ≠ unlisted w ∧ c.1 < bound :=
    fun c hc => hm.2 c (List.mem_filter.mp hc).1
  unfold writeCell
  split
  · exact ⟨he, hall⟩
  · refine ⟨insertCell_pairwise _ _ _ he (eraseCell_lacks m a), fun c hc => ?_⟩
    rcases (mem_insertCell _ a v c).mp hc with rfl | hc
    · exact ⟨‹_›, ha⟩
    · exact hall c hc

theorem cellsWf_writeBytes {bound : Nat} (bytes : List Byte) {m : Cells 8} {a : Nat} (hm : cellsWf bound m = true)
    (ha : a + bytes.length ≤ bound) : cellsWf bound (writeBytes m a bytes) = true := by
  induction bytes generalizing m a with
  | nil => exact hm
  | cons b bs ih =>
    simp only [List.length_cons] at ha
    exact ih (cellsWf_writeCell b hm (by omega)) (by omega)

theorem cellsWf_copyBack {bound : Nat} (off count : Nat) {m : Cells 8} {o : Nat} (hm : cellsWf bound m = true)
    (ho : o + count ≤ bound) : cellsWf bound (copyBack off count o m) = true := by
  induction count generalizing m o with
  | zero => exact hm
  | succ n ih => exact ih (cellsWf_writeCell _ hm (by omega)) (by omega)

end Sys2Proof.Machine
end

