-- ==== Sys2Proof/Laws/State.lean ====
section
/-! SUPPORT. One lemma per field per named update of the state, each true by rfl, so that no later proof unfolds a
record update. -/

namespace Sys2Proof.Machine

/-! ### `raiseFault` -/

@[simp] theorem raiseFault_i (kind : BitVec 2) (cause : BitVec 3) (pos : Word) (s : State) :
    (raiseFault kind cause pos s).i = s.i := rfl
@[simp] theorem raiseFault_lit (kind : BitVec 2) (cause : BitVec 3) (pos : Word) (s : State) :
    (raiseFault kind cause pos s).lit = s.lit := rfl
@[simp] theorem raiseFault_o (kind : BitVec 2) (cause : BitVec 3) (pos : Word) (s : State) :
    (raiseFault kind cause pos s).o = s.o := rfl
@[simp] theorem raiseFault_h (kind : BitVec 2) (cause : BitVec 3) (pos : Word) (s : State) :
    (raiseFault kind cause pos s).h = s.h := rfl
@[simp] theorem raiseFault_c (kind : BitVec 2) (cause : BitVec 3) (pos : Word) (s : State) :
    (raiseFault kind cause pos s).c = s.c := rfl
@[simp] theorem raiseFault_p (kind : BitVec 2) (cause : BitVec 3) (pos : Word) (s : State) :
    (raiseFault kind cause pos s).p = s.p := rfl
@[simp] theorem raiseFault_bestLen (kind : BitVec 2) (cause : BitVec 3) (pos : Word) (s : State) :
    (raiseFault kind cause pos s).bestLen = s.bestLen := rfl
@[simp] theorem raiseFault_bestOff (kind : BitVec 2) (cause : BitVec 3) (pos : Word) (s : State) :
    (raiseFault kind cause pos s).bestOff = s.bestOff := rfl
@[simp] theorem raiseFault_k (kind : BitVec 2) (cause : BitVec 3) (pos : Word) (s : State) :
    (raiseFault kind cause pos s).k = s.k := rfl
@[simp] theorem raiseFault_t (kind : BitVec 2) (cause : BitVec 3) (pos : Word) (s : State) :
    (raiseFault kind cause pos s).t = s.t := rfl
@[simp] theorem raiseFault_hdr (kind : BitVec 2) (cause : BitVec 3) (pos : Word) (s : State) :
    (raiseFault kind cause pos s).hdr = s.hdr := rfl
@[simp] theorem raiseFault_len (kind : BitVec 2) (cause : BitVec 3) (pos : Word) (s : State) :
    (raiseFault kind cause pos s).len = s.len := rfl
@[simp] theorem raiseFault_off (kind : BitVec 2) (cause : BitVec 3) (pos : Word) (s : State) :
    (raiseFault kind cause pos s).off = s.off := rfl
@[simp] theorem raiseFault_cmd (kind : BitVec 2) (cause : BitVec 3) (pos : Word) (s : State) :
    (raiseFault kind cause pos s).cmd = s.cmd := rfl
@[simp] theorem raiseFault_inLen (kind : BitVec 2) (cause : BitVec 3) (pos : Word) (s : State) :
    (raiseFault kind cause pos s).inLen = s.inLen := rfl
@[simp] theorem raiseFault_outCap (kind : BitVec 2) (cause : BitVec 3) (pos : Word) (s : State) :
    (raiseFault kind cause pos s).outCap = s.outCap := rfl
@[simp] theorem raiseFault_outLen (kind : BitVec 2) (cause : BitVec 3) (pos : Word) (s : State) :
    (raiseFault kind cause pos s).outLen = s.o := rfl
@[simp] theorem raiseFault_status (kind : BitVec 2) (cause : BitVec 3) (pos : Word) (s : State) :
    (raiseFault kind cause pos s).status = statusFault := rfl
@[simp] theorem raiseFault_faultKind (kind : BitVec 2) (cause : BitVec 3) (pos : Word) (s : State) :
    (raiseFault kind cause pos s).faultKind = kind := rfl
@[simp] theorem raiseFault_faultCause (kind : BitVec 2) (cause : BitVec 3) (pos : Word) (s : State) :
    (raiseFault kind cause pos s).faultCause = cause := rfl
@[simp] theorem raiseFault_faultPos (kind : BitVec 2) (cause : BitVec 3) (pos : Word) (s : State) :
    (raiseFault kind cause pos s).faultPos = pos := rfl
@[simp] theorem raiseFault_head (kind : BitVec 2) (cause : BitVec 3) (pos : Word) (s : State) :
    (raiseFault kind cause pos s).head = s.head := rfl
@[simp] theorem raiseFault_chain (kind : BitVec 2) (cause : BitVec 3) (pos : Word) (s : State) :
    (raiseFault kind cause pos s).chain = s.chain := rfl
@[simp] theorem raiseFault_inp (kind : BitVec 2) (cause : BitVec 3) (pos : Word) (s : State) :
    (raiseFault kind cause pos s).inp = s.inp := rfl
@[simp] theorem raiseFault_out (kind : BitVec 2) (cause : BitVec 3) (pos : Word) (s : State) :
    (raiseFault kind cause pos s).out = s.out := rfl
@[simp] theorem raiseFault_host (kind : BitVec 2) (cause : BitVec 3) (pos : Word) (s : State) :
    (raiseFault kind cause pos s).host = s.host := rfl

/-! ### `malformed` -/

@[simp] theorem malformed_i (cause : BitVec 3) (s : State) : (malformed cause s).i = s.i := rfl
@[simp] theorem malformed_lit (cause : BitVec 3) (s : State) : (malformed cause s).lit = s.lit := rfl
@[simp] theorem malformed_o (cause : BitVec 3) (s : State) : (malformed cause s).o = s.o := rfl
@[simp] theorem malformed_h (cause : BitVec 3) (s : State) : (malformed cause s).h = s.h := rfl
@[simp] theorem malformed_c (cause : BitVec 3) (s : State) : (malformed cause s).c = s.c := rfl
@[simp] theorem malformed_p (cause : BitVec 3) (s : State) : (malformed cause s).p = s.p := rfl
@[simp] theorem malformed_bestLen (cause : BitVec 3) (s : State) : (malformed cause s).bestLen = s.bestLen := rfl
@[simp] theorem malformed_bestOff (cause : BitVec 3) (s : State) : (malformed cause s).bestOff = s.bestOff := rfl
@[simp] theorem malformed_k (cause : BitVec 3) (s : State) : (malformed cause s).k = s.k := rfl
@[simp] theorem malformed_t (cause : BitVec 3) (s : State) : (malformed cause s).t = s.t := rfl
@[simp] theorem malformed_hdr (cause : BitVec 3) (s : State) : (malformed cause s).hdr = s.hdr := rfl
@[simp] theorem malformed_len (cause : BitVec 3) (s : State) : (malformed cause s).len = s.len := rfl
@[simp] theorem malformed_off (cause : BitVec 3) (s : State) : (malformed cause s).off = s.off := rfl
@[simp] theorem malformed_cmd (cause : BitVec 3) (s : State) : (malformed cause s).cmd = s.cmd := rfl
@[simp] theorem malformed_inLen (cause : BitVec 3) (s : State) : (malformed cause s).inLen = s.inLen := rfl
@[simp] theorem malformed_outCap (cause : BitVec 3) (s : State) : (malformed cause s).outCap = s.outCap := rfl
@[simp] theorem malformed_outLen (cause : BitVec 3) (s : State) : (malformed cause s).outLen = s.o := rfl
@[simp] theorem malformed_status (cause : BitVec 3) (s : State) : (malformed cause s).status = statusFault := rfl
@[simp] theorem malformed_faultKind (cause : BitVec 3) (s : State) :
    (malformed cause s).faultKind = kindMalformedStream := rfl
@[simp] theorem malformed_faultCause (cause : BitVec 3) (s : State) : (malformed cause s).faultCause = cause := rfl
@[simp] theorem malformed_faultPos (cause : BitVec 3) (s : State) : (malformed cause s).faultPos = s.t := rfl
@[simp] theorem malformed_head (cause : BitVec 3) (s : State) : (malformed cause s).head = s.head := rfl
@[simp] theorem malformed_chain (cause : BitVec 3) (s : State) : (malformed cause s).chain = s.chain := rfl
@[simp] theorem malformed_inp (cause : BitVec 3) (s : State) : (malformed cause s).inp = s.inp := rfl
@[simp] theorem malformed_out (cause : BitVec 3) (s : State) : (malformed cause s).out = s.out := rfl
@[simp] theorem malformed_host (cause : BitVec 3) (s : State) : (malformed cause s).host = s.host := rfl

/-! ### `bufferTooSmall` -/

@[simp] theorem bufferTooSmall_i (s : State) : (bufferTooSmall s).i = s.i := rfl
@[simp] theorem bufferTooSmall_lit (s : State) : (bufferTooSmall s).lit = s.lit := rfl
@[simp] theorem bufferTooSmall_o (s : State) : (bufferTooSmall s).o = s.o := rfl
@[simp] theorem bufferTooSmall_h (s : State) : (bufferTooSmall s).h = s.h := rfl
@[simp] theorem bufferTooSmall_c (s : State) : (bufferTooSmall s).c = s.c := rfl
@[simp] theorem bufferTooSmall_p (s : State) : (bufferTooSmall s).p = s.p := rfl
@[simp] theorem bufferTooSmall_bestLen (s : State) : (bufferTooSmall s).bestLen = s.bestLen := rfl
@[simp] theorem bufferTooSmall_bestOff (s : State) : (bufferTooSmall s).bestOff = s.bestOff := rfl
@[simp] theorem bufferTooSmall_k (s : State) : (bufferTooSmall s).k = s.k := rfl
@[simp] theorem bufferTooSmall_t (s : State) : (bufferTooSmall s).t = s.t := rfl
@[simp] theorem bufferTooSmall_hdr (s : State) : (bufferTooSmall s).hdr = s.hdr := rfl
@[simp] theorem bufferTooSmall_len (s : State) : (bufferTooSmall s).len = s.len := rfl
@[simp] theorem bufferTooSmall_off (s : State) : (bufferTooSmall s).off = s.off := rfl
@[simp] theorem bufferTooSmall_cmd (s : State) : (bufferTooSmall s).cmd = s.cmd := rfl
@[simp] theorem bufferTooSmall_inLen (s : State) : (bufferTooSmall s).inLen = s.inLen := rfl
@[simp] theorem bufferTooSmall_outCap (s : State) : (bufferTooSmall s).outCap = s.outCap := rfl
@[simp] theorem bufferTooSmall_outLen (s : State) : (bufferTooSmall s).outLen = s.o := rfl
@[simp] theorem bufferTooSmall_status (s : State) : (bufferTooSmall s).status = statusFault := rfl
@[simp] theorem bufferTooSmall_faultKind (s : State) : (bufferTooSmall s).faultKind = kindBufferTooSmall := rfl
@[simp] theorem bufferTooSmall_faultCause (s : State) : (bufferTooSmall s).faultCause = causeEncOutputFull := rfl
@[simp] theorem bufferTooSmall_faultPos (s : State) : (bufferTooSmall s).faultPos = s.i := rfl
@[simp] theorem bufferTooSmall_head (s : State) : (bufferTooSmall s).head = s.head := rfl
@[simp] theorem bufferTooSmall_chain (s : State) : (bufferTooSmall s).chain = s.chain := rfl
@[simp] theorem bufferTooSmall_inp (s : State) : (bufferTooSmall s).inp = s.inp := rfl
@[simp] theorem bufferTooSmall_out (s : State) : (bufferTooSmall s).out = s.out := rfl
@[simp] theorem bufferTooSmall_host (s : State) : (bufferTooSmall s).host = s.host := rfl

/-! ### `endCommand` -/

@[simp] theorem endCommand_i (s : State) : (endCommand s).i = s.i := rfl
@[simp] theorem endCommand_lit (s : State) : (endCommand s).lit = s.lit := rfl
@[simp] theorem endCommand_o (s : State) : (endCommand s).o = s.o := rfl
@[simp] theorem endCommand_h (s : State) : (endCommand s).h = s.h := rfl
@[simp] theorem endCommand_c (s : State) : (endCommand s).c = s.c := rfl
@[simp] theorem endCommand_p (s : State) : (endCommand s).p = s.p := rfl
@[simp] theorem endCommand_bestLen (s : State) : (endCommand s).bestLen = s.bestLen := rfl
@[simp] theorem endCommand_bestOff (s : State) : (endCommand s).bestOff = s.bestOff := rfl
@[simp] theorem endCommand_k (s : State) : (endCommand s).k = s.k := rfl
@[simp] theorem endCommand_t (s : State) : (endCommand s).t = s.t := rfl
@[simp] theorem endCommand_hdr (s : State) : (endCommand s).hdr = s.hdr := rfl
@[simp] theorem endCommand_len (s : State) : (endCommand s).len = s.len := rfl
@[simp] theorem endCommand_off (s : State) : (endCommand s).off = s.off := rfl
@[simp] theorem endCommand_cmd (s : State) : (endCommand s).cmd = s.cmd := rfl
@[simp] theorem endCommand_inLen (s : State) : (endCommand s).inLen = s.inLen := rfl
@[simp] theorem endCommand_outCap (s : State) : (endCommand s).outCap = s.outCap := rfl
@[simp] theorem endCommand_outLen (s : State) : (endCommand s).outLen = s.o := rfl
@[simp] theorem endCommand_status (s : State) : (endCommand s).status = statusDone := rfl
@[simp] theorem endCommand_faultKind (s : State) : (endCommand s).faultKind = s.faultKind := rfl
@[simp] theorem endCommand_faultCause (s : State) : (endCommand s).faultCause = s.faultCause := rfl
@[simp] theorem endCommand_faultPos (s : State) : (endCommand s).faultPos = s.faultPos := rfl
@[simp] theorem endCommand_head (s : State) : (endCommand s).head = s.head := rfl
@[simp] theorem endCommand_chain (s : State) : (endCommand s).chain = s.chain := rfl
@[simp] theorem endCommand_inp (s : State) : (endCommand s).inp = s.inp := rfl
@[simp] theorem endCommand_out (s : State) : (endCommand s).out = s.out := rfl
@[simp] theorem endCommand_host (s : State) : (endCommand s).host = s.host := rfl

/-! ### `beginCommand` -/

@[simp] theorem beginCommand_i (op : BitVec 2) (s : State) : (beginCommand op s).i = s.i := rfl
@[simp] theorem beginCommand_lit (op : BitVec 2) (s : State) : (beginCommand op s).lit = s.lit := rfl
@[simp] theorem beginCommand_o (op : BitVec 2) (s : State) : (beginCommand op s).o = s.o := rfl
@[simp] theorem beginCommand_h (op : BitVec 2) (s : State) : (beginCommand op s).h = s.h := rfl
@[simp] theorem beginCommand_c (op : BitVec 2) (s : State) : (beginCommand op s).c = s.c := rfl
@[simp] theorem beginCommand_p (op : BitVec 2) (s : State) : (beginCommand op s).p = s.p := rfl
@[simp] theorem beginCommand_bestLen (op : BitVec 2) (s : State) : (beginCommand op s).bestLen = s.bestLen := rfl
@[simp] theorem beginCommand_bestOff (op : BitVec 2) (s : State) : (beginCommand op s).bestOff = s.bestOff := rfl
@[simp] theorem beginCommand_k (op : BitVec 2) (s : State) : (beginCommand op s).k = s.k := rfl
@[simp] theorem beginCommand_t (op : BitVec 2) (s : State) : (beginCommand op s).t = s.t := rfl
@[simp] theorem beginCommand_hdr (op : BitVec 2) (s : State) : (beginCommand op s).hdr = s.hdr := rfl
@[simp] theorem beginCommand_len (op : BitVec 2) (s : State) : (beginCommand op s).len = s.len := rfl
@[simp] theorem beginCommand_off (op : BitVec 2) (s : State) : (beginCommand op s).off = s.off := rfl
@[simp] theorem beginCommand_cmd (op : BitVec 2) (s : State) : (beginCommand op s).cmd = op := rfl
@[simp] theorem beginCommand_inLen (op : BitVec 2) (s : State) : (beginCommand op s).inLen = s.inLen := rfl
@[simp] theorem beginCommand_outCap (op : BitVec 2) (s : State) : (beginCommand op s).outCap = s.outCap := rfl
@[simp] theorem beginCommand_outLen (op : BitVec 2) (s : State) : (beginCommand op s).outLen = 0#32 := rfl
@[simp] theorem beginCommand_status (op : BitVec 2) (s : State) : (beginCommand op s).status = statusBusy := rfl
@[simp] theorem beginCommand_faultKind (op : BitVec 2) (s : State) : (beginCommand op s).faultKind = kindNone := rfl
@[simp] theorem beginCommand_faultCause (op : BitVec 2) (s : State) :
    (beginCommand op s).faultCause = causeNone := rfl
@[simp] theorem beginCommand_faultPos (op : BitVec 2) (s : State) : (beginCommand op s).faultPos = 0#32 := rfl
@[simp] theorem beginCommand_head (op : BitVec 2) (s : State) : (beginCommand op s).head = s.head := rfl
@[simp] theorem beginCommand_chain (op : BitVec 2) (s : State) : (beginCommand op s).chain = s.chain := rfl
@[simp] theorem beginCommand_inp (op : BitVec 2) (s : State) : (beginCommand op s).inp = s.inp := rfl
@[simp] theorem beginCommand_out (op : BitVec 2) (s : State) : (beginCommand op s).out = s.out := rfl
@[simp] theorem beginCommand_host (op : BitVec 2) (s : State) : (beginCommand op s).host = s.host := rfl

/-! ### `startEncode` -/

@[simp] theorem startEncode_i (s : State) : (startEncode s).i = 0#32 := rfl
@[simp] theorem startEncode_lit (s : State) : (startEncode s).lit = 0#7 := rfl
@[simp] theorem startEncode_o (s : State) : (startEncode s).o = 0#32 := rfl
@[simp] theorem startEncode_h (s : State) : (startEncode s).h = s.h := rfl
@[simp] theorem startEncode_c (s : State) : (startEncode s).c = s.c := rfl
@[simp] theorem startEncode_p (s : State) : (startEncode s).p = s.p := rfl
@[simp] theorem startEncode_bestLen (s : State) : (startEncode s).bestLen = s.bestLen := rfl
@[simp] theorem startEncode_bestOff (s : State) : (startEncode s).bestOff = s.bestOff := rfl
@[simp] theorem startEncode_k (s : State) : (startEncode s).k = s.k := rfl
@[simp] theorem startEncode_t (s : State) : (startEncode s).t = s.t := rfl
@[simp] theorem startEncode_hdr (s : State) : (startEncode s).hdr = s.hdr := rfl
@[simp] theorem startEncode_len (s : State) : (startEncode s).len = s.len := rfl
@[simp] theorem startEncode_off (s : State) : (startEncode s).off = s.off := rfl
@[simp] theorem startEncode_cmd (s : State) : (startEncode s).cmd = opEncode := rfl
@[simp] theorem startEncode_inLen (s : State) : (startEncode s).inLen = s.inLen := rfl
@[simp] theorem startEncode_outCap (s : State) : (startEncode s).outCap = s.outCap := rfl
@[simp] theorem startEncode_outLen (s : State) : (startEncode s).outLen = 0#32 := rfl
@[simp] theorem startEncode_status (s : State) : (startEncode s).status = statusBusy := rfl
@[simp] theorem startEncode_faultKind (s : State) : (startEncode s).faultKind = kindNone := rfl
@[simp] theorem startEncode_faultCause (s : State) : (startEncode s).faultCause = causeNone := rfl
@[simp] theorem startEncode_faultPos (s : State) : (startEncode s).faultPos = 0#32 := rfl
@[simp] theorem startEncode_head (s : State) : (startEncode s).head = [] := rfl
@[simp] theorem startEncode_chain (s : State) : (startEncode s).chain = [] := rfl
@[simp] theorem startEncode_inp (s : State) : (startEncode s).inp = s.inp := rfl
@[simp] theorem startEncode_out (s : State) : (startEncode s).out = s.out := rfl
@[simp] theorem startEncode_host (s : State) : (startEncode s).host = s.host := rfl

/-! ### `startWalk` -/

@[simp] theorem startWalk_i (op : BitVec 2) (s : State) : (startWalk op s).i = s.i := rfl
@[simp] theorem startWalk_lit (op : BitVec 2) (s : State) : (startWalk op s).lit = s.lit := rfl
@[simp] theorem startWalk_o (op : BitVec 2) (s : State) : (startWalk op s).o = 0#32 := rfl
@[simp] theorem startWalk_h (op : BitVec 2) (s : State) : (startWalk op s).h = s.h := rfl
@[simp] theorem startWalk_c (op : BitVec 2) (s : State) : (startWalk op s).c = s.c := rfl
@[simp] theorem startWalk_p (op : BitVec 2) (s : State) : (startWalk op s).p = s.p := rfl
@[simp] theorem startWalk_bestLen (op : BitVec 2) (s : State) : (startWalk op s).bestLen = s.bestLen := rfl
@[simp] theorem startWalk_bestOff (op : BitVec 2) (s : State) : (startWalk op s).bestOff = s.bestOff := rfl
@[simp] theorem startWalk_k (op : BitVec 2) (s : State) : (startWalk op s).k = s.k := rfl
@[simp] theorem startWalk_t (op : BitVec 2) (s : State) : (startWalk op s).t = 0#32 := rfl
@[simp] theorem startWalk_hdr (op : BitVec 2) (s : State) : (startWalk op s).hdr = s.hdr := rfl
@[simp] theorem startWalk_len (op : BitVec 2) (s : State) : (startWalk op s).len = s.len := rfl
@[simp] theorem startWalk_off (op : BitVec 2) (s : State) : (startWalk op s).off = s.off := rfl
@[simp] theorem startWalk_cmd (op : BitVec 2) (s : State) : (startWalk op s).cmd = op := rfl
@[simp] theorem startWalk_inLen (op : BitVec 2) (s : State) : (startWalk op s).inLen = s.inLen := rfl
@[simp] theorem startWalk_outCap (op : BitVec 2) (s : State) : (startWalk op s).outCap = s.outCap := rfl
@[simp] theorem startWalk_outLen (op : BitVec 2) (s : State) : (startWalk op s).outLen = 0#32 := rfl
@[simp] theorem startWalk_status (op : BitVec 2) (s : State) : (startWalk op s).status = statusBusy := rfl
@[simp] theorem startWalk_faultKind (op : BitVec 2) (s : State) : (startWalk op s).faultKind = kindNone := rfl
@[simp] theorem startWalk_faultCause (op : BitVec 2) (s : State) : (startWalk op s).faultCause = causeNone := rfl
@[simp] theorem startWalk_faultPos (op : BitVec 2) (s : State) : (startWalk op s).faultPos = 0#32 := rfl
@[simp] theorem startWalk_head (op : BitVec 2) (s : State) : (startWalk op s).head = s.head := rfl
@[simp] theorem startWalk_chain (op : BitVec 2) (s : State) : (startWalk op s).chain = s.chain := rfl
@[simp] theorem startWalk_inp (op : BitVec 2) (s : State) : (startWalk op s).inp = s.inp := rfl
@[simp] theorem startWalk_out (op : BitVec 2) (s : State) : (startWalk op s).out = s.out := rfl
@[simp] theorem startWalk_host (op : BitVec 2) (s : State) : (startWalk op s).host = s.host := rfl

/-! ### `latchHeader` -/

@[simp] theorem latchHeader_i (hdr : Byte) (s : State) : (latchHeader hdr s).i = s.i := rfl
@[simp] theorem latchHeader_lit (hdr : Byte) (s : State) : (latchHeader hdr s).lit = s.lit := rfl
@[simp] theorem latchHeader_o (hdr : Byte) (s : State) : (latchHeader hdr s).o = s.o := rfl
@[simp] theorem latchHeader_h (hdr : Byte) (s : State) : (latchHeader hdr s).h = s.h := rfl
@[simp] theorem latchHeader_c (hdr : Byte) (s : State) : (latchHeader hdr s).c = s.c := rfl
@[simp] theorem latchHeader_p (hdr : Byte) (s : State) : (latchHeader hdr s).p = s.p := rfl
@[simp] theorem latchHeader_bestLen (hdr : Byte) (s : State) : (latchHeader hdr s).bestLen = s.bestLen := rfl
@[simp] theorem latchHeader_bestOff (hdr : Byte) (s : State) : (latchHeader hdr s).bestOff = s.bestOff := rfl
@[simp] theorem latchHeader_k (hdr : Byte) (s : State) : (latchHeader hdr s).k = s.k := rfl
@[simp] theorem latchHeader_t (hdr : Byte) (s : State) : (latchHeader hdr s).t = s.t := rfl
@[simp] theorem latchHeader_hdr (hdr : Byte) (s : State) : (latchHeader hdr s).hdr = hdr := rfl
@[simp] theorem latchHeader_len (hdr : Byte) (s : State) : (latchHeader hdr s).len = headerLen hdr := rfl
@[simp] theorem latchHeader_off (hdr : Byte) (s : State) : (latchHeader hdr s).off = s.off := rfl
@[simp] theorem latchHeader_cmd (hdr : Byte) (s : State) : (latchHeader hdr s).cmd = s.cmd := rfl
@[simp] theorem latchHeader_inLen (hdr : Byte) (s : State) : (latchHeader hdr s).inLen = s.inLen := rfl
@[simp] theorem latchHeader_outCap (hdr : Byte) (s : State) : (latchHeader hdr s).outCap = s.outCap := rfl
@[simp] theorem latchHeader_outLen (hdr : Byte) (s : State) : (latchHeader hdr s).outLen = s.outLen := rfl
@[simp] theorem latchHeader_status (hdr : Byte) (s : State) : (latchHeader hdr s).status = s.status := rfl
@[simp] theorem latchHeader_faultKind (hdr : Byte) (s : State) : (latchHeader hdr s).faultKind = s.faultKind := rfl
@[simp] theorem latchHeader_faultCause (hdr : Byte) (s : State) : (latchHeader hdr s).faultCause = s.faultCause := rfl
@[simp] theorem latchHeader_faultPos (hdr : Byte) (s : State) : (latchHeader hdr s).faultPos = s.faultPos := rfl
@[simp] theorem latchHeader_head (hdr : Byte) (s : State) : (latchHeader hdr s).head = s.head := rfl
@[simp] theorem latchHeader_chain (hdr : Byte) (s : State) : (latchHeader hdr s).chain = s.chain := rfl
@[simp] theorem latchHeader_inp (hdr : Byte) (s : State) : (latchHeader hdr s).inp = s.inp := rfl
@[simp] theorem latchHeader_out (hdr : Byte) (s : State) : (latchHeader hdr s).out = s.out := rfl
@[simp] theorem latchHeader_host (hdr : Byte) (s : State) : (latchHeader hdr s).host = s.host := rfl

/-! ### `latchOffset` -/

@[simp] theorem latchOffset_i (off : OffField) (s : State) : (latchOffset off s).i = s.i := rfl
@[simp] theorem latchOffset_lit (off : OffField) (s : State) : (latchOffset off s).lit = s.lit := rfl
@[simp] theorem latchOffset_o (off : OffField) (s : State) : (latchOffset off s).o = s.o := rfl
@[simp] theorem latchOffset_h (off : OffField) (s : State) : (latchOffset off s).h = s.h := rfl
@[simp] theorem latchOffset_c (off : OffField) (s : State) : (latchOffset off s).c = s.c := rfl
@[simp] theorem latchOffset_p (off : OffField) (s : State) : (latchOffset off s).p = s.p := rfl
@[simp] theorem latchOffset_bestLen (off : OffField) (s : State) : (latchOffset off s).bestLen = s.bestLen := rfl
@[simp] theorem latchOffset_bestOff (off : OffField) (s : State) : (latchOffset off s).bestOff = s.bestOff := rfl
@[simp] theorem latchOffset_k (off : OffField) (s : State) : (latchOffset off s).k = s.k := rfl
@[simp] theorem latchOffset_t (off : OffField) (s : State) : (latchOffset off s).t = s.t := rfl
@[simp] theorem latchOffset_hdr (off : OffField) (s : State) : (latchOffset off s).hdr = s.hdr := rfl
@[simp] theorem latchOffset_len (off : OffField) (s : State) : (latchOffset off s).len = s.len := rfl
@[simp] theorem latchOffset_off (off : OffField) (s : State) : (latchOffset off s).off = off := rfl
@[simp] theorem latchOffset_cmd (off : OffField) (s : State) : (latchOffset off s).cmd = s.cmd := rfl
@[simp] theorem latchOffset_inLen (off : OffField) (s : State) : (latchOffset off s).inLen = s.inLen := rfl
@[simp] theorem latchOffset_outCap (off : OffField) (s : State) : (latchOffset off s).outCap = s.outCap := rfl
@[simp] theorem latchOffset_outLen (off : OffField) (s : State) : (latchOffset off s).outLen = s.outLen := rfl
@[simp] theorem latchOffset_status (off : OffField) (s : State) : (latchOffset off s).status = s.status := rfl
@[simp] theorem latchOffset_faultKind (off : OffField) (s : State) :
    (latchOffset off s).faultKind = s.faultKind := rfl
@[simp] theorem latchOffset_faultCause (off : OffField) (s : State) :
    (latchOffset off s).faultCause = s.faultCause := rfl
@[simp] theorem latchOffset_faultPos (off : OffField) (s : State) : (latchOffset off s).faultPos = s.faultPos := rfl
@[simp] theorem latchOffset_head (off : OffField) (s : State) : (latchOffset off s).head = s.head := rfl
@[simp] theorem latchOffset_chain (off : OffField) (s : State) : (latchOffset off s).chain = s.chain := rfl
@[simp] theorem latchOffset_inp (off : OffField) (s : State) : (latchOffset off s).inp = s.inp := rfl
@[simp] theorem latchOffset_out (off : OffField) (s : State) : (latchOffset off s).out = s.out := rfl
@[simp] theorem latchOffset_host (off : OffField) (s : State) : (latchOffset off s).host = s.host := rfl

/-! ### `completeToken` -/

@[simp] theorem completeToken_i (m : Memory) (produced consumed : Nat) (s : State) :
    (completeToken m produced consumed s).i = s.i := rfl
@[simp] theorem completeToken_lit (m : Memory) (produced consumed : Nat) (s : State) :
    (completeToken m produced consumed s).lit = s.lit := rfl
@[simp] theorem completeToken_o (m : Memory) (produced consumed : Nat) (s : State) :
    (completeToken m produced consumed s).o = BitVec.ofNat 32 (s.o.toNat + produced) := rfl
@[simp] theorem completeToken_h (m : Memory) (produced consumed : Nat) (s : State) :
    (completeToken m produced consumed s).h = s.h := rfl
@[simp] theorem completeToken_c (m : Memory) (produced consumed : Nat) (s : State) :
    (completeToken m produced consumed s).c = s.c := rfl
@[simp] theorem completeToken_p (m : Memory) (produced consumed : Nat) (s : State) :
    (completeToken m produced consumed s).p = s.p := rfl
@[simp] theorem completeToken_bestLen (m : Memory) (produced consumed : Nat) (s : State) :
    (completeToken m produced consumed s).bestLen = s.bestLen := rfl
@[simp] theorem completeToken_bestOff (m : Memory) (produced consumed : Nat) (s : State) :
    (completeToken m produced consumed s).bestOff = s.bestOff := rfl
@[simp] theorem completeToken_k (m : Memory) (produced consumed : Nat) (s : State) :
    (completeToken m produced consumed s).k = s.k := rfl
@[simp] theorem completeToken_t (m : Memory) (produced consumed : Nat) (s : State) :
    (completeToken m produced consumed s).t = BitVec.ofNat 32 (s.t.toNat + consumed) := rfl
@[simp] theorem completeToken_hdr (m : Memory) (produced consumed : Nat) (s : State) :
    (completeToken m produced consumed s).hdr = s.hdr := rfl
@[simp] theorem completeToken_len (m : Memory) (produced consumed : Nat) (s : State) :
    (completeToken m produced consumed s).len = s.len := rfl
@[simp] theorem completeToken_off (m : Memory) (produced consumed : Nat) (s : State) :
    (completeToken m produced consumed s).off = s.off := rfl
@[simp] theorem completeToken_cmd (m : Memory) (produced consumed : Nat) (s : State) :
    (completeToken m produced consumed s).cmd = s.cmd := rfl
@[simp] theorem completeToken_inLen (m : Memory) (produced consumed : Nat) (s : State) :
    (completeToken m produced consumed s).inLen = s.inLen := rfl
@[simp] theorem completeToken_outCap (m : Memory) (produced consumed : Nat) (s : State) :
    (completeToken m produced consumed s).outCap = s.outCap := rfl
@[simp] theorem completeToken_outLen (m : Memory) (produced consumed : Nat) (s : State) :
    (completeToken m produced consumed s).outLen = s.outLen := rfl
@[simp] theorem completeToken_status (m : Memory) (produced consumed : Nat) (s : State) :
    (completeToken m produced consumed s).status = s.status := rfl
@[simp] theorem completeToken_faultKind (m : Memory) (produced consumed : Nat) (s : State) :
    (completeToken m produced consumed s).faultKind = s.faultKind := rfl
@[simp] theorem completeToken_faultCause (m : Memory) (produced consumed : Nat) (s : State) :
    (completeToken m produced consumed s).faultCause = s.faultCause := rfl
@[simp] theorem completeToken_faultPos (m : Memory) (produced consumed : Nat) (s : State) :
    (completeToken m produced consumed s).faultPos = s.faultPos := rfl
@[simp] theorem completeToken_head (m : Memory) (produced consumed : Nat) (s : State) :
    (completeToken m produced consumed s).head = s.head := rfl
@[simp] theorem completeToken_chain (m : Memory) (produced consumed : Nat) (s : State) :
    (completeToken m produced consumed s).chain = s.chain := rfl
@[simp] theorem completeToken_inp (m : Memory) (produced consumed : Nat) (s : State) :
    (completeToken m produced consumed s).inp = s.inp := rfl
@[simp] theorem completeToken_out (m : Memory) (produced consumed : Nat) (s : State) :
    (completeToken m produced consumed s).out = m := rfl
@[simp] theorem completeToken_host (m : Memory) (produced consumed : Nat) (s : State) :
    (completeToken m produced consumed s).host = s.host := rfl

/-! ### `emitBytes` -/

@[simp] theorem emitBytes_i (bytes : List Byte) (s : State) : (emitBytes bytes s).i = s.i := rfl
@[simp] theorem emitBytes_lit (bytes : List Byte) (s : State) : (emitBytes bytes s).lit = s.lit := rfl
@[simp] theorem emitBytes_o (bytes : List Byte) (s : State) :
    (emitBytes bytes s).o = BitVec.ofNat 32 (s.o.toNat + bytes.length) := rfl
@[simp] theorem emitBytes_h (bytes : List Byte) (s : State) : (emitBytes bytes s).h = s.h := rfl
@[simp] theorem emitBytes_c (bytes : List Byte) (s : State) : (emitBytes bytes s).c = s.c := rfl
@[simp] theorem emitBytes_p (bytes : List Byte) (s : State) : (emitBytes bytes s).p = s.p := rfl
@[simp] theorem emitBytes_bestLen (bytes : List Byte) (s : State) : (emitBytes bytes s).bestLen = s.bestLen := rfl
@[simp] theorem emitBytes_bestOff (bytes : List Byte) (s : State) : (emitBytes bytes s).bestOff = s.bestOff := rfl
@[simp] theorem emitBytes_k (bytes : List Byte) (s : State) : (emitBytes bytes s).k = s.k := rfl
@[simp] theorem emitBytes_t (bytes : List Byte) (s : State) : (emitBytes bytes s).t = s.t := rfl
@[simp] theorem emitBytes_hdr (bytes : List Byte) (s : State) : (emitBytes bytes s).hdr = s.hdr := rfl
@[simp] theorem emitBytes_len (bytes : List Byte) (s : State) : (emitBytes bytes s).len = s.len := rfl
@[simp] theorem emitBytes_off (bytes : List Byte) (s : State) : (emitBytes bytes s).off = s.off := rfl
@[simp] theorem emitBytes_cmd (bytes : List Byte) (s : State) : (emitBytes bytes s).cmd = s.cmd := rfl
@[simp] theorem emitBytes_inLen (bytes : List Byte) (s : State) : (emitBytes bytes s).inLen = s.inLen := rfl
@[simp] theorem emitBytes_outCap (bytes : List Byte) (s : State) : (emitBytes bytes s).outCap = s.outCap := rfl
@[simp] theorem emitBytes_outLen (bytes : List Byte) (s : State) : (emitBytes bytes s).outLen = s.outLen := rfl
@[simp] theorem emitBytes_status (bytes : List Byte) (s : State) : (emitBytes bytes s).status = s.status := rfl
@[simp] theorem emitBytes_faultKind (bytes : List Byte) (s : State) :
    (emitBytes bytes s).faultKind = s.faultKind := rfl
@[simp] theorem emitBytes_faultCause (bytes : List Byte) (s : State) :
    (emitBytes bytes s).faultCause = s.faultCause := rfl
@[simp] theorem emitBytes_faultPos (bytes : List Byte) (s : State) : (emitBytes bytes s).faultPos = s.faultPos := rfl
@[simp] theorem emitBytes_head (bytes : List Byte) (s : State) : (emitBytes bytes s).head = s.head := rfl
@[simp] theorem emitBytes_chain (bytes : List Byte) (s : State) : (emitBytes bytes s).chain = s.chain := rfl
@[simp] theorem emitBytes_inp (bytes : List Byte) (s : State) : (emitBytes bytes s).inp = s.inp := rfl
@[simp] theorem emitBytes_out (bytes : List Byte) (s : State) :
    (emitBytes bytes s).out = writeBytes s.out s.o.toNat bytes := rfl
@[simp] theorem emitBytes_host (bytes : List Byte) (s : State) : (emitBytes bytes s).host = s.host := rfl

/-! ### `insertAt` -/

@[simp] theorem insertAt_i (hf : Config.HashFn) (q : Nat) (s : State) : (insertAt hf q s).i = s.i := rfl
@[simp] theorem insertAt_lit (hf : Config.HashFn) (q : Nat) (s : State) : (insertAt hf q s).lit = s.lit := rfl
@[simp] theorem insertAt_o (hf : Config.HashFn) (q : Nat) (s : State) : (insertAt hf q s).o = s.o := rfl
@[simp] theorem insertAt_h (hf : Config.HashFn) (q : Nat) (s : State) : (insertAt hf q s).h = s.h := rfl
@[simp] theorem insertAt_c (hf : Config.HashFn) (q : Nat) (s : State) : (insertAt hf q s).c = s.c := rfl
@[simp] theorem insertAt_p (hf : Config.HashFn) (q : Nat) (s : State) : (insertAt hf q s).p = s.p := rfl
@[simp] theorem insertAt_bestLen (hf : Config.HashFn) (q : Nat) (s : State) :
    (insertAt hf q s).bestLen = s.bestLen := rfl
@[simp] theorem insertAt_bestOff (hf : Config.HashFn) (q : Nat) (s : State) :
    (insertAt hf q s).bestOff = s.bestOff := rfl
@[simp] theorem insertAt_k (hf : Config.HashFn) (q : Nat) (s : State) : (insertAt hf q s).k = s.k := rfl
@[simp] theorem insertAt_t (hf : Config.HashFn) (q : Nat) (s : State) : (insertAt hf q s).t = s.t := rfl
@[simp] theorem insertAt_hdr (hf : Config.HashFn) (q : Nat) (s : State) : (insertAt hf q s).hdr = s.hdr := rfl
@[simp] theorem insertAt_len (hf : Config.HashFn) (q : Nat) (s : State) : (insertAt hf q s).len = s.len := rfl
@[simp] theorem insertAt_off (hf : Config.HashFn) (q : Nat) (s : State) : (insertAt hf q s).off = s.off := rfl
@[simp] theorem insertAt_cmd (hf : Config.HashFn) (q : Nat) (s : State) : (insertAt hf q s).cmd = s.cmd := rfl
@[simp] theorem insertAt_inLen (hf : Config.HashFn) (q : Nat) (s : State) : (insertAt hf q s).inLen = s.inLen := rfl
@[simp] theorem insertAt_outCap (hf : Config.HashFn) (q : Nat) (s : State) :
    (insertAt hf q s).outCap = s.outCap := rfl
@[simp] theorem insertAt_outLen (hf : Config.HashFn) (q : Nat) (s : State) :
    (insertAt hf q s).outLen = s.outLen := rfl
@[simp] theorem insertAt_status (hf : Config.HashFn) (q : Nat) (s : State) :
    (insertAt hf q s).status = s.status := rfl
@[simp] theorem insertAt_faultKind (hf : Config.HashFn) (q : Nat) (s : State) :
    (insertAt hf q s).faultKind = s.faultKind := rfl
@[simp] theorem insertAt_faultCause (hf : Config.HashFn) (q : Nat) (s : State) :
    (insertAt hf q s).faultCause = s.faultCause := rfl
@[simp] theorem insertAt_faultPos (hf : Config.HashFn) (q : Nat) (s : State) :
    (insertAt hf q s).faultPos = s.faultPos := rfl
@[simp] theorem insertAt_head (hf : Config.HashFn) (q : Nat) (s : State) :
    (insertAt hf q s).head = writeCell s.head (hashAt hf s q).toNat (BitVec.ofNat 32 (q + 1)) := rfl
@[simp] theorem insertAt_chain (hf : Config.HashFn) (q : Nat) (s : State) :
    (insertAt hf q s).chain = writeCell s.chain (chainSlot q) (headAt s (hashAt hf s q)) := rfl
@[simp] theorem insertAt_inp (hf : Config.HashFn) (q : Nat) (s : State) : (insertAt hf q s).inp = s.inp := rfl
@[simp] theorem insertAt_out (hf : Config.HashFn) (q : Nat) (s : State) : (insertAt hf q s).out = s.out := rfl
@[simp] theorem insertAt_host (hf : Config.HashFn) (q : Nat) (s : State) : (insertAt hf q s).host = s.host := rfl

/-! ### `storeSearch` -/

@[simp] theorem storeSearch_i (hash : HashVal) (r : Search) (s : State) : (storeSearch hash r s).i = s.i := rfl
@[simp] theorem storeSearch_lit (hash : HashVal) (r : Search) (s : State) : (storeSearch hash r s).lit = s.lit := rfl
@[simp] theorem storeSearch_o (hash : HashVal) (r : Search) (s : State) : (storeSearch hash r s).o = s.o := rfl
@[simp] theorem storeSearch_h (hash : HashVal) (r : Search) (s : State) : (storeSearch hash r s).h = hash := rfl
@[simp] theorem storeSearch_c (hash : HashVal) (r : Search) (s : State) :
    (storeSearch hash r s).c = BitVec.ofNat 32 r.c := rfl
@[simp] theorem storeSearch_p (hash : HashVal) (r : Search) (s : State) :
    (storeSearch hash r s).p = BitVec.ofNat 32 r.p := rfl
@[simp] theorem storeSearch_bestLen (hash : HashVal) (r : Search) (s : State) :
    (storeSearch hash r s).bestLen = BitVec.ofNat 32 r.bestLen := rfl
@[simp] theorem storeSearch_bestOff (hash : HashVal) (r : Search) (s : State) :
    (storeSearch hash r s).bestOff = BitVec.ofNat 16 r.bestOff := rfl
@[simp] theorem storeSearch_k (hash : HashVal) (r : Search) (s : State) :
    (storeSearch hash r s).k = BitVec.ofNat 32 r.k := rfl
@[simp] theorem storeSearch_t (hash : HashVal) (r : Search) (s : State) : (storeSearch hash r s).t = s.t := rfl
@[simp] theorem storeSearch_hdr (hash : HashVal) (r : Search) (s : State) : (storeSearch hash r s).hdr = s.hdr := rfl
@[simp] theorem storeSearch_len (hash : HashVal) (r : Search) (s : State) : (storeSearch hash r s).len = s.len := rfl
@[simp] theorem storeSearch_off (hash : HashVal) (r : Search) (s : State) : (storeSearch hash r s).off = s.off := rfl
@[simp] theorem storeSearch_cmd (hash : HashVal) (r : Search) (s : State) : (storeSearch hash r s).cmd = s.cmd := rfl
@[simp] theorem storeSearch_inLen (hash : HashVal) (r : Search) (s : State) :
    (storeSearch hash r s).inLen = s.inLen := rfl
@[simp] theorem storeSearch_outCap (hash : HashVal) (r : Search) (s : State) :
    (storeSearch hash r s).outCap = s.outCap := rfl
@[simp] theorem storeSearch_outLen (hash : HashVal) (r : Search) (s : State) :
    (storeSearch hash r s).outLen = s.outLen := rfl
@[simp] theorem storeSearch_status (hash : HashVal) (r : Search) (s : State) :
    (storeSearch hash r s).status = s.status := rfl
@[simp] theorem storeSearch_faultKind (hash : HashVal) (r : Search) (s : State) :
    (storeSearch hash r s).faultKind = s.faultKind := rfl
@[simp] theorem storeSearch_faultCause (hash : HashVal) (r : Search) (s : State) :
    (storeSearch hash r s).faultCause = s.faultCause := rfl
@[simp] theorem storeSearch_faultPos (hash : HashVal) (r : Search) (s : State) :
    (storeSearch hash r s).faultPos = s.faultPos := rfl
@[simp] theorem storeSearch_head (hash : HashVal) (r : Search) (s : State) :
    (storeSearch hash r s).head = s.head := rfl
@[simp] theorem storeSearch_chain (hash : HashVal) (r : Search) (s : State) :
    (storeSearch hash r s).chain = s.chain := rfl
@[simp] theorem storeSearch_inp (hash : HashVal) (r : Search) (s : State) : (storeSearch hash r s).inp = s.inp := rfl
@[simp] theorem storeSearch_out (hash : HashVal) (r : Search) (s : State) : (storeSearch hash r s).out = s.out := rfl
@[simp] theorem storeSearch_host (hash : HashVal) (r : Search) (s : State) :
    (storeSearch hash r s).host = s.host := rfl

end Sys2Proof.Machine
end

