-- ==== Sys2Proof/Laws/Ops.lean ====
section
/-! SUPPORT. What the shared operations do: how pieces of an instruction are put together, what reading a changed state
gives, what a completed emission wrote. -/

namespace Sys2Proof.Machine

/-! ### Putting pieces together -/

@[simp] theorem settle_ok (s : State) : settle (.ok s) = .next s := rfl
@[simp] theorem settle_raised (s : State) : settle (.error (.raised s)) = .next s := rfl
@[simp] theorem settle_stuck (f : Fault) : settle (.error (.stuck f)) = .fault f := rfl

/-- An instruction answers a next state exactly when its last piece went on or the engine took a fault of its own. -/
theorem settle_eq_next {x : Exec State} {s' : State} :
    settle x = .next s' ↔ x = .ok s' ∨ x = .error (.raised s') := by
  rcases x with (s | f) | s <;> simp

@[simp] theorem ok_bind {α β : Type} (a : α) (f : α → Exec β) : ((Except.ok a : Exec α) >>= f) = f a := rfl
@[simp] theorem error_bind {α β : Type} (e : Halt) (f : α → Exec β) :
    ((Except.error e : Exec α) >>= f) = .error e := rfl
@[simp] theorem ok_map {α β : Type} (a : α) (f : α → β) : (Except.ok a : Exec α).map f = .ok (f a) := rfl
@[simp] theorem error_map {α β : Type} (e : Halt) (f : α → β) :
    (Except.error e : Exec α).map f = .error e := rfl

theorem bind_eq_ok {α β : Type} {x : Exec α} {f : α → Exec β} {b : β} :
    (x >>= f) = .ok b ↔ ∃ a, x = .ok a ∧ f a = .ok b := by
  cases x <;> simp

theorem bind_eq_error {α β : Type} {x : Exec α} {f : α → Exec β} {e : Halt} :
    (x >>= f) = .error e ↔ x = .error e ∨ ∃ a, x = .ok a ∧ f a = .error e := by
  cases x <;> simp

/-! ### Reading -/

theorem inByte_congr {s s' : State} (h : s'.inp = s.inp) (a : Nat) : inByte s' a = inByte s a := by
  simp [inByte, h]

theorem inSlice_congr {s s' : State} (h : s'.inp = s.inp) (a n : Nat) : inSlice s' a n = inSlice s a n := by
  simp [inSlice, inByte_congr h]

@[simp] theorem inSlice_length (s : State) (a n : Nat) : (inSlice s a n).length = n := by simp [inSlice]

@[simp] theorem inSlice_getElem (s : State) (a n j : Nat) (h : j < (inSlice s a n).length) :
    (inSlice s a n)[j] = inByte s (a + j) := by simp [inSlice]

theorem hashAt_congr {s s' : State} (h : s'.inp = s.inp) (hf : Config.HashFn) (p : Nat) :
    hashAt hf s' p = hashAt hf s p := by simp [hashAt, inByte_congr h]

theorem limit_le_maxWord (s : State) : limit s < 4294967296 := by
  unfold limit; split
  · exact s.outCap.isLt
  · decide

@[simp] theorem limit_latchHeader (hdr : Byte) (s : State) : limit (latchHeader hdr s) = limit s := rfl
@[simp] theorem limit_latchOffset (off : OffField) (s : State) : limit (latchOffset off s) = limit s := rfl

theorem real_limit {s : State} (h : real s) : limit s = s.outCap.toNat := by simp [limit, h]

/-- A number that fits a register reads back from it. -/
theorem word_toNat {n : Nat} (h : n < 4294967296) : (BitVec.ofNat 32 n).toNat = n := by
  rw [BitVec.toNat_ofNat]; exact Nat.mod_eq_of_lt h

theorem lenField_toNat {n : Nat} (h : n < 128) : (BitVec.ofNat 7 n).toNat = n := by
  rw [BitVec.toNat_ofNat]; exact Nat.mod_eq_of_lt h

theorem offField_toNat {n : Nat} (h : n < 65536) : (BitVec.ofNat 16 n).toNat = n := by
  rw [BitVec.toNat_ofNat]; exact Nat.mod_eq_of_lt h

/-! ### Emission -/

/-- What an emission of bytes leaves in OUT: the bytes from `o` on, every other index as before. -/
theorem emitBytes_holds (bytes : List Byte) (s : State) : outHolds (emitBytes bytes s) s.o.toNat bytes := by
  intro j h
  exact readCell_writeBytes_inside bytes s.out h

theorem emitBytes_outside (bytes : List Byte) (s : State) :
    outSameOutside s.o.toNat (s.o.toNat + bytes.length) s (emitBytes bytes s) := by
  intro a h
  exact readCell_writeBytes_outside bytes s.out h

/-- The number an emission brings `o` to, where it fits. -/
theorem emitBytes_o_toNat {bytes : List Byte} {s : State} (h : fitsOut bytes.length s) :
    (emitBytes bytes s).o.toNat = s.o.toNat + bytes.length := by
  simp only [emitBytes_o]
  exact word_toNat (Nat.lt_of_le_of_lt h s.outCap.isLt)

/-! ### Token headers -/

@[simp] theorem encodeLit_length (bytes : List Byte) : (encodeLit bytes).length = bytes.length + 1 := rfl
@[simp] theorem encodeMatch_length (len : LenField) (off : OffField) : (encodeMatch len off).length = 3 := rfl

theorem litHeader_toNat (len : LenField) : (litHeader len).toNat = len.toNat := by
  have := len.isLt
  simp [litHeader]; omega

theorem matchHeader_toNat (len : LenField) : (matchHeader len).toNat = 128 + len.toNat := by
  revert len; decide

@[simp] theorem headerLen_litHeader (len : LenField) : headerLen (litHeader len) = len := by
  revert len; decide
@[simp] theorem headerLen_matchHeader (len : LenField) : headerLen (matchHeader len) = len := by
  revert len; decide
@[simp] theorem headerIsMatch_litHeader (len : LenField) : headerIsMatch (litHeader len) = false := by
  revert len; decide
@[simp] theorem headerIsMatch_matchHeader (len : LenField) : headerIsMatch (matchHeader len) = true := by
  revert len; decide

theorem litHeader_headerLen {hdr : Byte} (h : headerIsMatch hdr = false) : litHeader (headerLen hdr) = hdr := by
  revert hdr; decide
theorem matchHeader_headerLen {hdr : Byte} (h : headerIsMatch hdr = true) : matchHeader (headerLen hdr) = hdr := by
  revert hdr; decide

theorem headerLen_toNat (hdr : Byte) : (headerLen hdr).toNat = hdr.toNat % 128 := by simp [headerLen]

theorem headerIsMatch_iff (hdr : Byte) : headerIsMatch hdr = true ↔ 128 ≤ hdr.toNat := by
  revert hdr; decide

theorem offsetOf_toNat (hi lo : Byte) : (offsetOf hi lo).toNat = 256 * hi.toNat + lo.toNat := by
  rw [offsetOf, BitVec.toNat_append, Nat.shiftLeft_eq, Nat.mul_comm, ← Nat.two_pow_add_eq_or_of_lt lo.isLt]

theorem offsetHi_toNat (off : OffField) : (offsetHi off).toNat = off.toNat / 256 := by
  have := off.isLt
  simp [offsetHi, Nat.shiftRight_eq_div_pow]; omega

theorem offsetLo_toNat (off : OffField) : (offsetLo off).toNat = off.toNat % 256 := by simp [offsetLo]

/-- The two offset bytes give the offset back (R95, R96). -/
@[simp] theorem offsetOf_bytes (off : OffField) : offsetOf (offsetHi off) (offsetLo off) = off := by
  apply BitVec.eq_of_toNat_eq
  rw [offsetOf_toNat, offsetHi_toNat, offsetLo_toNat]; omega

@[simp] theorem offsetHi_offsetOf (hi lo : Byte) : offsetHi (offsetOf hi lo) = hi := by
  apply BitVec.eq_of_toNat_eq
  rw [offsetHi_toNat, offsetOf_toNat]; have := lo.isLt; omega

@[simp] theorem offsetLo_offsetOf (hi lo : Byte) : offsetLo (offsetOf hi lo) = lo := by
  apply BitVec.eq_of_toNat_eq
  rw [offsetLo_toNat, offsetOf_toNat]; have := lo.isLt; omega

/-! ### Well-formedness -/

theorem wf_lit (bytes : List Byte) : (Instr.lit bytes).wf = true ↔ 1 ≤ bytes.length ∧ bytes.length ≤ 127 := by
  rw [Instr.wf, Bool.and_eq_true, decide_eq_true_iff, decide_eq_true_iff]; rfl

theorem wf_matchTok (len : LenField) (off : OffField) :
    (Instr.matchTok len off).wf = true ↔ len ≠ 0#7 ∧ off ≠ 0#16 := by
  simp only [Instr.wf, Bool.and_eq_true, bne_iff_ne, ne_eq]

theorem wf_reservedOff0 (len : LenField) : (Instr.reservedOff0 len).wf = true ↔ len ≠ 0#7 := by
  simp only [Instr.wf, bne_iff_ne, ne_eq]

end Sys2Proof.Machine
end

