-- ==== Sys2Proof/Laws/HashChain.lean ====
section
/-! SUPPORT. The index: what `newest` says, what INSERT writes, what the index update of a step leaves alone. -/

namespace Sys2Proof.Machine

/-! ### `newest` -/

theorem newest_le (has : Nat → Bool) (m : Nat) : newest has m ≤ m := by
  induction m with
  | zero => exact Nat.le_refl 0
  | succ m ih => unfold newest; split <;> omega

/-- The position `newest` names has the property. -/
theorem newest_has {has : Nat → Bool} {m : Nat} (h : newest has m ≠ 0) : has (newest has m - 1) = true := by
  induction m with
  | zero => exact absurd rfl h
  | succ m ih =>
    unfold newest at h ⊢
    split
    · simpa
    · exact ih (by simpa [*] using h)

/-- No position after the one `newest` names has the property. -/
theorem newest_after {has : Nat → Bool} {m q : Nat} (hq : q < m) (h : newest has m ≤ q) : has q = false := by
  induction m with
  | zero => omega
  | succ m ih =>
    unfold newest at h
    split at h
    · omega
    · by_cases e : q = m
      · subst e; simpa using ‹¬ has q = true›
      · exact ih (by omega) h

theorem newest_congr {has has' : Nat → Bool} {m : Nat} (h : ∀ q, q < m → has q = has' q) :
    newest has m = newest has' m := by
  induction m with
  | zero => rfl
  | succ m ih => unfold newest; rw [h m (by omega), ih fun q hq => h q (by omega)]

/-! ### INSERT -/

theorem hasHash_congr {s s' : State} (hi : s'.inp = s.inp) (hn : s'.inLen = s.inLen) (hf : Config.HashFn)
    (h : HashVal) : hasHash hf s' h = hasHash hf s h := by
  funext q; simp [hasHash, hashAt_congr hi, hashable, hn]

theorem insertAt_headAt_same (hf : Config.HashFn) (p : Nat) (s : State) :
    headAt (insertAt hf p s) (hashAt hf s p) = BitVec.ofNat 32 (p + 1) := by
  simp [headAt]

theorem insertAt_headAt_other {hf : Config.HashFn} {p : Nat} {s : State} {h : HashVal} (hne : h ≠ hashAt hf s p) :
    headAt (insertAt hf p s) h = headAt s h := by
  simp only [headAt, insertAt_head]
  exact readCell_writeCell_other _ _ fun e => hne (BitVec.eq_of_toNat_eq e)

theorem insertAt_chainAt_same (hf : Config.HashFn) (p : Nat) (s : State) :
    chainAt (insertAt hf p s) p = headAt s (hashAt hf s p) := by
  simp [chainAt]

theorem insertAt_chainAt_other {hf : Config.HashFn} {p q : Nat} {s : State} (hne : chainSlot q ≠ chainSlot p) :
    chainAt (insertAt hf p s) q = chainAt s q := by
  simp only [chainAt, insertAt_chain]
  exact readCell_writeCell_other _ _ hne

theorem insertAt_tables_wf {hf : Config.HashFn} {p : Nat} {s : State} (hh : Table.wf s.head = true)
    (hc : Table.wf s.chain = true) :
    Table.wf (insertAt hf p s).head = true ∧ Table.wf (insertAt hf p s).chain = true := by
  refine ⟨cellsWf_writeCell _ hh (hashAt hf s p).isLt, cellsWf_writeCell _ hc (Nat.mod_lt _ (by decide))⟩

/-! ### The index update of one encoder step -/

/-- What a whole index update leaves alone: everything but HEAD and CHAIN. -/
theorem insertRange_frame (hf : Config.HashFn) (count q : Nat) (s : State) :
    insertRange hf count q s =
      { s with head := (insertRange hf count q s).head, chain := (insertRange hf count q s).chain } := by
  induction count generalizing q s with
  | zero => rfl
  | succ n ih =>
    rw [insertRange]
    split
    · rw [ih]; rfl
    · exact ih _ _

/-- The index update reads nothing but IN, `IN_LEN` and the tables. -/
theorem insertRange_tables_congr {s s' : State} (hi : s'.inp = s.inp) (hn : s'.inLen = s.inLen)
    (hh : s'.head = s.head) (hc : s'.chain = s.chain) (hf : Config.HashFn) (count q : Nat) :
    (insertRange hf count q s').head = (insertRange hf count q s).head ∧
      (insertRange hf count q s').chain = (insertRange hf count q s).chain := by
  induction count generalizing q s s' with
  | zero => exact ⟨hh, hc⟩
  | succ n ih =>
    rw [insertRange, insertRange]
    simp only [hashable, hn]
    split
    · exact ih (s := insertAt hf q s) (s' := insertAt hf q s') hi hn
        (by simp [hh, hashAt_congr hi]) (by simp [hc, headAt, hh, hashAt_congr hi]) _
    · exact ih hi hn hh hc _

theorem insertRange_tables_wf (hf : Config.HashFn) (count q : Nat) {s : State} (hh : Table.wf s.head = true)
    (hc : Table.wf s.chain = true) :
    Table.wf (insertRange hf count q s).head = true ∧ Table.wf (insertRange hf count q s).chain = true := by
  induction count generalizing q s with
  | zero => exact ⟨hh, hc⟩
  | succ n ih =>
    rw [insertRange]
    split
    · exact ih _ (insertAt_tables_wf hh hc).1 (insertAt_tables_wf hh hc).2
    · exact ih _ hh hc

end Sys2Proof.Machine
end

