-- ==== Sys2Proof/Laws/MatchFinder.lean ====
section
/-! SUPPORT. The search: what the extension measures, what one candidate changes, and what FIND writes. -/

namespace Sys2Proof.Machine

/-! ### The extension -/

theorem extend_le (s : State) (i p left k : Nat) : extend s i p left k ≤ k + left := by
  induction left generalizing k with
  | zero => exact Nat.le_refl _
  | succ n ih => unfold extend; split
                 · have := ih (k + 1); omega
                 · omega

theorem extend_ge (s : State) (i p left k : Nat) : k ≤ extend s i p left k := by
  induction left generalizing k with
  | zero => exact Nat.le_refl _
  | succ n ih => unfold extend; split
                 · have := ih (k + 1); omega
                 · omega

theorem extend_agree (s : State) (i p left k : Nat) :
    ∀ j, k ≤ j → j < extend s i p left k → inByte s (p + j) = inByte s (i + j) := by
  induction left generalizing k with
  | zero => intro j h1 h2; unfold extend at h2; omega
  | succ n ih =>
    intro j h1 h2
    unfold extend at h2
    split at h2
    · by_cases e : j = k
      · subst e; assumption
      · exact ih (k + 1) j (by omega) h2
    · omega

theorem extend_ends (s : State) (i p left k : Nat) (h : extend s i p left k < k + left) :
    inByte s (p + extend s i p left k) ≠ inByte s (i + extend s i p left k) := by
  induction left generalizing k with
  | zero => unfold extend at h; omega
  | succ n ih =>
    unfold extend at h ⊢
    split
    · exact ih (k + 1) (by simp_all; omega)
    · assumption

/-- The extension measures the match length (R144, R148). -/
theorem extend_matchLen (s : State) {i p : Nat} (hi : i ≤ s.inLen.toNat) :
    MatchLen s i p (extend s i p (s.inLen.toNat - i) 0) where
  inside := by have := extend_le s i p (s.inLen.toNat - i) 0; omega
  agree := fun j hj => extend_agree s i p _ 0 j (Nat.zero_le _) hj
  ends := fun h => extend_ends s i p _ 0 (by omega)

/-- A position has one match length. -/
theorem matchLen_unique {s : State} {i p k k' : Nat} (h : MatchLen s i p k) (h' : MatchLen s i p k') : k = k' := by
  rcases Nat.lt_trichotomy k k' with hlt | rfl | hlt
  · exact absurd (h'.agree k hlt) (h.ends (by have := h'.inside; omega))
  · rfl
  · exact absurd (h.agree k' hlt) (h'.ends (by have := h.inside; omega))

/-! ### The walk writes no state: its numbers stay in their registers' ranges -/

/-- What holds of a search between candidates, whatever the tables hold: the incumbent is no longer than the input
allows, a match has an offset of the window, and no match has length 1. -/
structure SearchRange (s : State) (i : Nat) (r : Search) : Prop where
  chain : r.c < 4294967296
  cand : r.p < 4294967296
  count : r.k < 4294967296
  best : 1 ≤ r.bestLen ∧ (i + 1 ≤ s.inLen.toNat → i + r.bestLen ≤ s.inLen.toNat)
  none : r.bestOff = 0 → r.bestLen = 1
  some : r.bestOff ≠ 0 → 1 < r.bestLen ∧ r.bestOff ≤ i ∧ r.bestOff ≤ 65535

theorem seed_range (s : State) (i : Nat) (h : HashVal) : SearchRange s i (seed s h) where
  chain := (headAt s h).isLt
  cand := s.p.isLt
  count := s.k.isLt
  best := ⟨Nat.le_refl 1, fun h => h⟩
  none := fun _ => rfl
  some := fun h => absurd rfl h

theorem tryCandidate_range {s : State} {i : Nat} {r : Search} (hr : SearchRange s i r) (hi : i < s.inLen.toNat)
    (hp : r.p < i) (hw : i - r.p ≤ 65535) : SearchRange s i (tryCandidate s i r) := by
  have hk := extend_le s i r.p (s.inLen.toNat - i) 0
  have hn := s.inLen.isLt
  unfold tryCandidate keepBest
  split
  · simp only
    split
    · refine ⟨hr.chain, hr.cand, ?_, ⟨?_, fun _ => ?_⟩, fun h => ?_, fun _ => ⟨?_, ?_, hw⟩⟩ <;> simp_all <;>
        first | omega | (have := hr.best.1; omega)
    · exact ⟨hr.chain, hr.cand, by simp; omega, hr.best, hr.none, hr.some⟩
  · exact hr

theorem tryCandidate_p (s : State) (i : Nat) (r : Search) : (tryCandidate s i r).p = r.p := by
  unfold tryCandidate keepBest
  split
  · simp only; split <;> rfl
  · rfl

theorem walk_range {s : State} {i fuel : Nat} {r r' : Search} (hr : SearchRange s i r) (hi : i < s.inLen.toNat)
    (h : walk s i fuel r = some r') : SearchRange s i r' := by
  induction fuel generalizing r with
  | zero =>
    unfold walk at h
    split at h
    · cases h; exact hr
    split at h
    · cases h
    split at h
    · cases h; exact hr
    · cases h
  | succ n ih =>
    unfold walk at h
    split at h
    · cases h; exact hr
    split at h
    · cases h
    split at h
    · cases h; exact hr
    rename_i h0 h1 h2
    have hc := hr.chain
    have hr1 : SearchRange s i { r with p := r.c - 1 } :=
      ⟨hr.chain, by show r.c - 1 < _; omega, hr.count, hr.best, hr.none, hr.some⟩
    simp only at h
    split at h
    · cases h; exact hr1
    · have hr2 := tryCandidate_range hr1 hi (by show r.c - 1 < i; omega) (by simpa using h2)
      refine ih ?_ h
      exact ⟨(chainAt s _).isLt, hr2.cand, hr2.count, hr2.best, hr2.none, hr2.some⟩

/-- FIND, wherever it completes: only the MatchFinder's registers change, and the pair is `(0, 1)` or a length 4 to 127
inside the input with an offset of the window (R140). -/
theorem findAt_ok {hf : Config.HashFn} {i : Nat} {s s' : State} (h : findAt hf i s = .ok s') :
    searchFrame s s' ∧ ((s'.bestOff.toNat = 0 ∧ s'.bestLen.toNat = 1) ∨
      (1 ≤ s'.bestOff.toNat ∧ s'.bestOff.toNat ≤ i ∧ 4 ≤ s'.bestLen.toNat ∧ s'.bestLen.toNat ≤ 127 ∧
        i + s'.bestLen.toNat ≤ s.inLen.toNat)) := by
  unfold findAt at h
  split at h
  · rename_i hh
    simp only at h
    split at h
    · rename_i r hw
      cases h
      refine ⟨rfl, ?_⟩
      have hr := walk_range (seed_range s i _) (by omega) hw
      simp only [storeSearch_bestOff, storeSearch_bestLen]
      unfold clampBest
      split
      · left; simp
      · rename_i h4
        have hoff : r.bestOff ≠ 0 := fun e => by have := hr.none e; simp at h4; omega
        have := hr.some hoff
        have hb := hr.best
        simp at h4
        right
        split
        · rename_i h127
          simp at h127
          simp only [offField_toNat (n := r.bestOff) (by omega), Config.maxLen]
          rw [word_toNat (by omega)]
          omega
        · rename_i h127
          simp at h127
          rw [offField_toNat (by omega), word_toNat (by omega)]
          omega
    · cases h
  · cases h

end Sys2Proof.Machine
end

