-- ==== Sys2Proof/Laws/Encoder.lean ====
section
/-! SUPPORT. What the encoder's operations can do, each said once. -/

namespace Sys2Proof.Machine

/-- What FLUSH does: take `BufferTooSmall`, emit the run, or stop outside its contract (R168). -/
theorem flushRun_cases (s : State) :
    (s.lit = 0#7 ∧ flushRun s = .error (.stuck .emptyRun)) ∨
    (s.lit ≠ 0#7 ∧ ¬ fitsOut (1 + s.lit.toNat) s ∧ flushRun s = .error (.raised (bufferTooSmall s))) ∨
    (s.lit ≠ 0#7 ∧ fitsOut (1 + s.lit.toNat) s ∧ (s.i.toNat < s.lit.toNat ∨ s.inLen.toNat < s.i.toNat) ∧
      flushRun s = .error (.stuck .runOutsideInput)) ∨
    (s.lit ≠ 0#7 ∧ fitsOut (1 + s.lit.toNat) s ∧ s.lit.toNat ≤ s.i.toNat ∧ s.i.toNat ≤ s.inLen.toNat ∧
      flushRun s = .ok { emitBytes (encodeLit (pendingRun s)) s with lit := 0#7 }) := by
  unfold flushRun
  by_cases h0 : s.lit = 0#7
  · simp [h0]
  by_cases h1 : fitsOut (1 + s.lit.toNat) s
  · by_cases h2 : s.i.toNat < s.lit.toNat ∨ s.inLen.toNat < s.i.toNat
    · simp [h0, h1, h2]
    · refine .inr (.inr (.inr ⟨h0, h1, by omega, by omega, ?_⟩))
      rw [if_neg h0, if_neg (not_not.mpr h1), if_neg h2]
  · simp [h0, h1]

@[simp] theorem pendingRun_length (s : State) : (pendingRun s).length = s.lit.toNat := by simp [pendingRun]

/-- What an emission inside an ENCSTEP or a flush leads to from `s`, when it goes on: OUT, `o` and `lit` change, OUT
only in `[o, o')` below `OUT_CAP`, and it stays canonical. -/
structure Emitted (s s' : State) : Prop where
  frame : s' = { s with out := s'.out, o := s'.o, lit := s'.lit }
  rises : s.o.toNat ≤ s'.o.toNat
  fits : s.o.toNat ≤ s.outCap.toNat → s'.o.toNat ≤ s.outCap.toNat
  outside : outSameOutside s.o.toNat s.outCap.toNat s s'
  wf : Memory.wf s.out = true → Memory.wf s'.out = true

theorem Emitted.refl (s : State) : Emitted s s := ⟨rfl, Nat.le_refl _, fun h => h, fun _ _ => rfl, fun h => h⟩

theorem emitBytes_emitted {bytes : List Byte} {s : State} {l : LenField} (h : fitsOut bytes.length s) :
    Emitted s { emitBytes bytes s with lit := l } := by
  have ho := emitBytes_o_toNat h
  have hcap := s.outCap.isLt
  refine ⟨rfl, ?_, fun _ => ?_, fun a ha => ?_, fun hw => ?_⟩
  · show s.o.toNat ≤ (emitBytes bytes s).o.toNat; omega
  · show (emitBytes bytes s).o.toNat ≤ s.outCap.toNat; rw [ho]; exact h
  · exact emitBytes_outside bytes s a (by unfold fitsOut at h; omega)
  · exact cellsWf_writeBytes _ hw (by unfold fitsOut at h; omega)

theorem flushRun_ok {s s' : State} (h : flushRun s = .ok s') :
    Emitted s s' ∧ s'.lit = 0#7 ∧ s'.o.toNat = s.o.toNat + 1 + s.lit.toNat ∧ s.lit ≠ 0#7 ∧
      outHolds s' s.o.toNat (encodeLit (pendingRun s)) ∧
      outSameOutside s.o.toNat (s.o.toNat + 1 + s.lit.toNat) s s' := by
  rcases flushRun_cases s with ⟨_, e⟩ | ⟨_, _, e⟩ | ⟨_, _, _, e⟩ | ⟨h0, hf, _, _, e⟩ <;> rw [e] at h <;> cases h
  have hl : (encodeLit (pendingRun s)).length = 1 + s.lit.toNat := by simp; omega
  have hfit : fitsOut (encodeLit (pendingRun s)).length s := by rw [hl]; exact hf
  refine ⟨emitBytes_emitted hfit, rfl, ?_, h0, emitBytes_holds _ s, fun a ha => emitBytes_outside _ s a (by omega)⟩
  have := emitBytes_o_toNat hfit
  show (emitBytes (encodeLit (pendingRun s)) s).o.toNat = _
  omega

theorem emitToken_ok {len : LenField} {off : OffField} {s s' : State} (h : emitToken len off s = .ok s') :
    Emitted s s' ∧ s'.lit = s.lit ∧ s'.o.toNat = s.o.toNat + 3 ∧ outHolds s' s.o.toNat (encodeMatch len off) ∧
      outSameOutside s.o.toNat (s.o.toNat + 3) s s' := by
  unfold emitToken at h
  split at h
  · rename_i hf
    cases h
    have hfit : fitsOut (encodeMatch len off).length s := hf
    exact ⟨emitBytes_emitted (l := s.lit) hfit, rfl, emitBytes_o_toNat hfit, emitBytes_holds _ s,
      emitBytes_outside (encodeMatch len off) s⟩
  · cases h

/-- What the encoder's fault leads to: the fault registers, `OUT_LEN` and STATUS. -/
theorem bufferTooSmall_eq (s : State) : bufferTooSmall s = encoderFault s := rfl

theorem flushRun_raised {s s' : State} (h : flushRun s = .error (.raised s')) : s' = encoderFault s := by
  rcases flushRun_cases s with ⟨_, e⟩ | ⟨_, _, e⟩ | ⟨_, _, _, e⟩ | ⟨_, _, _, _, e⟩ <;> rw [e] at h <;> cases h
  rfl

theorem emitToken_raised {len : LenField} {off : OffField} {s s' : State}
    (h : emitToken len off s = .error (.raised s')) : s' = encoderFault s := by
  unfold emitToken at h
  split at h <;> cases h
  rfl

/-- The pair an ENCSTEP acts on: only the MatchFinder's registers have changed, and it is `(0, 1)`, or a match inside
the input. -/
theorem searchCursor_ok {hf : Config.HashFn} {s : State} {f : Found} (h : searchCursor hf s = .ok f) :
    searchFrame s f.st ∧ ((f.off = 0 ∧ f.len = 1) ∨
      (1 ≤ f.off ∧ f.off ≤ 65535 ∧ f.off ≤ s.i.toNat ∧ 4 ≤ f.len ∧ f.len ≤ 127 ∧
        s.i.toNat + f.len ≤ s.inLen.toNat)) := by
  unfold searchCursor at h
  split at h
  · cases hs : findAt hf s.i.toNat s with
    | error e => rw [hs] at h; cases h
    | ok s1 =>
      rw [hs] at h
      cases h
      obtain ⟨hfr, hp⟩ := findAt_ok hs
      have := s1.bestOff.isLt
      refine ⟨hfr, ?_⟩
      simp only
      omega
  · cases h; exact ⟨rfl, .inl ⟨rfl, rfl⟩⟩

/-- A search never takes a fault of the engine's. -/
theorem searchCursor_not_raised (hf : Config.HashFn) (s s' : State) :
    searchCursor hf s ≠ .error (.raised s') := by
  unfold searchCursor findAt
  intro h
  split at h
  · simp only at h
    split at h
    · cases h
    · cases h
  · cases h

/-- Acting on the pair, when it goes on: a longer run, or the tokens of R163 emitted and no run pending. -/
theorem actOn_ok {f : Found} {s' : State} (h : actOn f = .ok s') :
    Emitted f.st s' ∧
      ((f.off = 0 ∧ s'.lit.toNat = f.st.lit.toNat + 1 ∧ s'.o = f.st.o ∧ s'.out = f.st.out) ∨
       (f.off ≠ 0 ∧ s'.lit = 0#7 ∧
        s'.o.toNat = f.st.o.toNat + (if f.st.lit = 0#7 then 0 else 1 + f.st.lit.toNat) + 3)) := by
  unfold actOn at h
  split at h
  · rename_i h0
    unfold growRun at h
    split at h
    · rename_i hl
      cases h
      simp only [Config.maxLen] at hl
      refine ⟨⟨rfl, Nat.le_refl _, fun h => h, fun _ _ => rfl, fun h => h⟩, .inl ⟨h0, ?_, rfl, rfl⟩⟩
      exact lenField_toNat (by omega)
    · cases h
  · rename_i h0
    unfold takeMatch flushPending at h
    obtain ⟨s1, h1, h2⟩ := bind_eq_ok.mp h
    obtain ⟨e2, l2, o2, -, -⟩ := emitToken_ok h2
    split at h1
    · rename_i hl
      cases h1
      exact ⟨e2, .inr ⟨h0, by rw [l2, hl], by rw [o2, if_pos hl, Nat.add_zero]⟩⟩
    · rename_i hl
      obtain ⟨e1, l1, o1, -, -, -⟩ := flushRun_ok h1
      have hc : s1.outCap = f.st.outCap := by rw [e1.frame]
      refine ⟨⟨?_, by have := e1.rises; have := e2.rises; omega, fun h => ?_, fun a ha => ?_, fun hw => e2.wf (e1.wf hw)⟩,
        .inr ⟨h0, by rw [l2, l1], by rw [o2, o1, if_neg hl]; omega⟩⟩
      · rw [e2.frame, e1.frame]
      · rw [← hc]; exact e2.fits (by rw [hc]; exact e1.fits h)
      · rw [e2.outside a (by have := e1.rises; rw [hc]; omega), e1.outside a ha]

/-- Acting on the pair, when the engine takes its fault: at the cursor, from the state of the search or from the one
the flush of the pending run led to. -/
theorem actOn_raised {f : Found} {s' : State} (h : actOn f = .error (.raised s')) :
    s' = encoderFault f.st ∨ ∃ s1, flushRun f.st = .ok s1 ∧ s' = encoderFault s1 := by
  unfold actOn at h
  split at h
  · unfold growRun at h; split at h <;> cases h
  · unfold takeMatch flushPending at h
    rcases bind_eq_error.mp h with h1 | ⟨s1, h1, h2⟩
    · split at h1
      · cases h1
      · exact .inl (flushRun_raised h1)
    · split at h1
      · cases h1; exact .inl (emitToken_raised h2)
      · exact .inr ⟨s1, h1, emitToken_raised h2⟩

/-- The index update and advance leave everything but the tables and the cursor. -/
theorem advance_frame (hf : Config.HashFn) (len : Nat) (s : State) :
    advance hf len s = { s with
      head := (insertRange hf len s.i.toNat s).head
      chain := (insertRange hf len s.i.toNat s).chain
      i := BitVec.ofNat 32 (s.i.toNat + len) } := by
  unfold advance
  simp only
  rw [insertRange_frame hf len s.i.toNat s]

/-- The pieces of an ENCSTEP that goes on. -/
theorem encodeStep_ok {hf : Config.HashFn} {s s' : State} (h : encodeStep hf s = .ok s') :
    s.i.toNat < s.inLen.toNat ∧ ∃ f s1, searchCursor hf s = .ok f ∧ actOn f = .ok s1 ∧
      limitRun (advance hf f.len s1) = .ok s' := by
  unfold encodeStep at h
  split at h
  · cases h
  · obtain ⟨f, h1, h2⟩ := bind_eq_ok.mp h
    obtain ⟨s1, h3, h4⟩ := bind_eq_ok.mp h2
    exact ⟨by omega, f, s1, h1, h3, h4⟩

/-- The pieces of an ENCSTEP that takes the engine's fault. -/
theorem encodeStep_raised {hf : Config.HashFn} {s s' : State} (h : encodeStep hf s = .error (.raised s')) :
    s.i.toNat < s.inLen.toNat ∧ ∃ f, searchCursor hf s = .ok f ∧
      (actOn f = .error (.raised s') ∨
        ∃ s1, actOn f = .ok s1 ∧ limitRun (advance hf f.len s1) = .error (.raised s')) := by
  unfold encodeStep at h
  split at h
  · cases h
  · rcases bind_eq_error.mp h with h1 | ⟨f, h1, h2⟩
    · exact absurd h1 (searchCursor_not_raised hf s s')
    · refine ⟨by omega, f, h1, ?_⟩
      rcases bind_eq_error.mp h2 with h3 | ⟨s1, h3, h4⟩
      · exact .inl h3
      · exact .inr ⟨s1, h3, h4⟩

/-! ### Everything a step of the encoder can lead to -/

/-- The result registers: STATUS, the fault registers and `OUT_LEN`, as in another state. -/
structure SameResults (s s' : State) : Prop where
  status : s'.status = s.status
  kind : s'.faultKind = s.faultKind
  cause : s'.faultCause = s.faultCause
  pos : s'.faultPos = s.faultPos
  outLen : s'.outLen = s.outLen

theorem SameResults.trans {a b c : State} (h : SameResults a b) (h' : SameResults b c) : SameResults a c :=
  ⟨h'.status.trans h.status, h'.kind.trans h.kind, h'.cause.trans h.cause, h'.pos.trans h.pos,
    h'.outLen.trans h.outLen⟩

/-- Everything an ENCSTEP or a FLUSH can lead to from `s`, going on or taking `BufferTooSmall`. -/
structure EncodeEnd (s s' : State) : Prop where
  frame : s' = { s with
    out := s'.out, i := s'.i, lit := s'.lit, o := s'.o, head := s'.head, chain := s'.chain,
    h := s'.h, c := s'.c, p := s'.p, k := s'.k, bestLen := s'.bestLen, bestOff := s'.bestOff,
    outLen := s'.outLen, status := s'.status, faultKind := s'.faultKind, faultCause := s'.faultCause,
    faultPos := s'.faultPos }
  cursorRises : s.i.toNat ≤ s'.i.toNat
  cursorInside : s.i.toNat ≤ s.inLen.toNat → s'.i.toNat ≤ s.inLen.toNat
  outRises : s.o.toNat ≤ s'.o.toNat
  outside : outSameOutside s.o.toNat s.outCap.toNat s s'
  storage : StorageWf s → StorageWf s'
  results : SameResults s s' ∨
    (s'.status = statusFault ∧ s'.faultKind = kindBufferTooSmall ∧ s'.faultCause = causeEncOutputFull)

theorem EncodeEnd.trans {a b c : State} (h1 : EncodeEnd a b) (h2 : EncodeEnd b c) (hr : SameResults a b) :
    EncodeEnd a c := by
  have hil : b.inLen = a.inLen := by rw [h1.frame]
  have hoc : b.outCap = a.outCap := by rw [h1.frame]
  refine ⟨by rw [h2.frame, h1.frame], Nat.le_trans h1.cursorRises h2.cursorRises, fun h => ?_,
    Nat.le_trans h1.outRises h2.outRises, fun x hx => ?_, fun h => h2.storage (h1.storage h), ?_⟩
  · have := h1.cursorInside h
    rw [← hil] at this ⊢
    exact h2.cursorInside this
  · rw [h2.outside x (by have := h1.outRises; rw [hoc]; omega), h1.outside x hx]
  · exact h2.results.imp hr.trans id

theorem Emitted.sameResults {s s' : State} (h : Emitted s s') : SameResults s s' := by
  rw [h.frame]; exact ⟨rfl, rfl, rfl, rfl, rfl⟩

theorem Emitted.encodeEnd {s s' : State} (h : Emitted s s') : EncodeEnd s s' where
  frame := by rw [h.frame]
  cursorRises := by rw [h.frame]
  cursorInside := by rw [h.frame]; exact id
  outRises := h.rises
  outside := h.outside
  storage w := ⟨by rw [h.frame]; exact w.inp, h.wf w.out, by rw [h.frame]; exact w.head, by rw [h.frame]; exact w.chain⟩
  results := .inl h.sameResults

theorem encoderFault_encodeEnd (s : State) : EncodeEnd s (encoderFault s) where
  frame := rfl
  cursorRises := Nat.le_refl _
  cursorInside := id
  outRises := Nat.le_refl _
  outside _ _ := rfl
  storage w := ⟨w.inp, w.out, w.head, w.chain⟩
  results := .inr ⟨rfl, rfl, rfl⟩

theorem search_sameResults {s s' : State} (h : searchFrame s s') : SameResults s s' := by
  rw [h]; exact ⟨rfl, rfl, rfl, rfl, rfl⟩

theorem search_encodeEnd {s s' : State} (h : searchFrame s s') : EncodeEnd s s' where
  frame := by rw [h]
  cursorRises := by rw [h]
  cursorInside := by rw [h]; exact id
  outRises := by rw [h]
  outside _ _ := by simp only [outByte]; rw [h]
  storage w := by rw [h]; exact ⟨w.inp, w.out, w.head, w.chain⟩
  results := .inl (search_sameResults h)

theorem advance_sameResults (hf : Config.HashFn) (len : Nat) (s : State) : SameResults s (advance hf len s) := by
  rw [advance_frame]; exact ⟨rfl, rfl, rfl, rfl, rfl⟩

theorem advance_encodeEnd {hf : Config.HashFn} {len : Nat} {s : State} (h : s.i.toNat + len ≤ s.inLen.toNat) :
    EncodeEnd s (advance hf len s) := by
  have hlt := s.inLen.isLt
  have hi : (BitVec.ofNat 32 (s.i.toNat + len)).toNat = s.i.toNat + len := word_toNat (by omega)
  refine ⟨?_, ?_, ?_, ?_, ?_, ?_, .inl (advance_sameResults hf len s)⟩ <;> rw [advance_frame]
  · simp only [hi]; omega
  · simp only [hi]; exact fun _ => h
  · exact fun _ _ => rfl
  · exact fun w => ⟨w.inp, w.out, (insertRange_tables_wf hf len _ w.head w.chain).1,
      (insertRange_tables_wf hf len _ w.head w.chain).2⟩

/-- FLUSH, wherever it answers a next state. -/
theorem flushRun_encodeEnd {s s' : State} (h : settle (flushRun s) = .next s') : EncodeEnd s s' := by
  rcases settle_eq_next.mp h with h | h
  · exact (flushRun_ok h).1.encodeEnd
  · rw [flushRun_raised h]; exact encoderFault_encodeEnd s

/-- An ENCSTEP up to its cursor advance. -/
theorem actOn_advance_encodeEnd {hf : Config.HashFn} {s s1 : State} {f : Found} (hi : s.i.toNat < s.inLen.toNat)
    (hs : searchCursor hf s = .ok f) (ha : actOn f = .ok s1) :
    EncodeEnd s (advance hf f.len s1) ∧ SameResults s (advance hf f.len s1) := by
  obtain ⟨hfr, hp⟩ := searchCursor_ok hs
  have he := (actOn_ok ha).1
  have hr := (search_sameResults hfr).trans he.sameResults
  refine ⟨((search_encodeEnd hfr).trans he.encodeEnd (search_sameResults hfr)).trans (advance_encodeEnd ?_) hr,
    hr.trans (advance_sameResults hf f.len s1)⟩
  rw [he.frame]; simp only; rw [hfr]; simp only; omega

/-- ENCSTEP, wherever it answers a next state. -/
theorem encodeStep_encodeEnd {hf : Config.HashFn} {s s' : State} (h : settle (encodeStep hf s) = .next s') :
    EncodeEnd s s' := by
  rcases settle_eq_next.mp h with h | h
  · obtain ⟨hi, f, s1, hs, ha, hl⟩ := encodeStep_ok h
    obtain ⟨he, hr⟩ := actOn_advance_encodeEnd hi hs ha
    unfold limitRun at hl
    split at hl
    · exact he.trans (flushRun_ok hl).1.encodeEnd hr
    · cases hl; exact he
  · obtain ⟨hi, f, hs, ha | ⟨s1, ha, hl⟩⟩ := encodeStep_raised h
    · have hfr := (searchCursor_ok hs).1
      have hsr := search_sameResults hfr
      rcases actOn_raised ha with rfl | ⟨s1, hfl, rfl⟩
      · exact (search_encodeEnd hfr).trans (encoderFault_encodeEnd _) hsr
      · have he := (flushRun_ok hfl).1
        exact ((search_encodeEnd hfr).trans he.encodeEnd hsr).trans (encoderFault_encodeEnd _) (hsr.trans he.sameResults)
    · obtain ⟨he, hr⟩ := actOn_advance_encodeEnd hi hs ha
      unfold limitRun at hl
      split at hl
      · rw [flushRun_raised hl]; exact he.trans (encoderFault_encodeEnd _) hr
      · cases hl

end Sys2Proof.Machine
end

