-- ==== Sys2Proof/Laws/Tokens.lean ====
section
/-! SUPPORT. What a token can do, said once: take `MalformedStream` with nothing else changed but the token registers,
or complete inside its bounds. -/

namespace Sys2Proof.Machine

/-- `s1` is `s` with new token registers (`hdr`, `len`, `off`). -/
def TokenLatch (s s1 : State) : Prop := s1 = { s with hdr := s1.hdr, len := s1.len, off := s1.off }

/-- Everything a token can lead to from `s`. -/
inductive TokenEnd (s : State) : State → Prop where
  /-- It faults: the fault registers, `OUT_LEN`, STATUS and the token registers change (R245, R246). -/
  | faulted (s1 : State) (cause : BitVec 3) : TokenLatch s s1 → 1 ≤ cause.toNat → cause.toNat ≤ 6 →
      TokenEnd s (malformed cause s1)
  /-- It completes: `produced` bytes of output, `consumed` bytes of the stream, both inside their bounds; OUT changes in
  a real decode only, inside `[o, o + produced)` only, and stays canonical. -/
  | completed (s1 : State) (m : Memory) (produced consumed : Nat) : TokenLatch s s1 → 1 ≤ produced → 2 ≤ consumed →
      s.t.toNat + consumed ≤ s.inLen.toNat → s.o.toNat + produced ≤ limit s →
      (¬ real s → m = s.out) →
      (∀ a, a < s.o.toNat ∨ s.o.toNat + produced ≤ a → readCell m a = readCell s.out a) →
      (Memory.wf s.out = true → Memory.wf m = true) →
      TokenEnd s (completeToken m produced consumed s1)

theorem TokenLatch.header (hdr : Byte) (s : State) : TokenLatch s (latchHeader hdr s) := rfl
theorem TokenLatch.offset (hdr : Byte) (off : OffField) (s : State) :
    TokenLatch s (latchOffset off (latchHeader hdr s)) := rfl

theorem zeroLengthToken_end (hdr : Byte) (s : State) :
    ∃ s', zeroLengthToken hdr s = .error (.raised s') ∧ TokenEnd s s' :=
  ⟨_, rfl, .faulted _ _ (.header _ _) (by decide) (by decide)⟩

theorem storeLiteral_wf {bytes : List Byte} {s : State} (h : s.o.toNat + bytes.length ≤ limit s)
    (hw : Memory.wf s.out = true) : Memory.wf (storeLiteral bytes s) = true := by
  unfold storeLiteral
  split
  · have := limit_le_maxWord s
    exact cellsWf_writeBytes _ hw (by omega)
  · exact hw

theorem storeMatch_wf {len : LenField} {off : OffField} {s : State} (h : s.o.toNat + len.toNat ≤ limit s)
    (hw : Memory.wf s.out = true) : Memory.wf (storeMatch len off s) = true := by
  unfold storeMatch
  split
  · have := limit_le_maxWord s
    exact cellsWf_copyBack _ _ hw (by omega)
  · exact hw

theorem storeLiteral_outside {bytes : List Byte} {s : State} {a : Nat}
    (h : a < s.o.toNat ∨ s.o.toNat + bytes.length ≤ a) : readCell (storeLiteral bytes s) a = readCell s.out a := by
  unfold storeLiteral
  split
  · exact readCell_writeBytes_outside _ _ h
  · rfl

theorem storeMatch_outside {len : LenField} {off : OffField} {s : State} {a : Nat}
    (h : a < s.o.toNat ∨ s.o.toNat + len.toNat ≤ a) : readCell (storeMatch len off s) a = readCell s.out a := by
  unfold storeMatch
  split
  · exact readCell_copyBack_outside _ _ _ h
  · rfl

/-- A literal run's ends. -/
theorem literalToken_end (bytes : List Byte) (s : State) :
    ∃ s', settle (literalToken bytes s) = .next s' ∧ TokenEnd s s' := by
  unfold literalToken
  simp only
  split
  · exact ⟨_, rfl, .faulted _ _ (.header _ _) (by decide) (by decide)⟩
  split
  · exact ⟨_, rfl, .faulted _ _ (.header _ _) (by decide) (by decide)⟩
  split
  · exact ⟨_, rfl, .faulted _ _ (.header _ _) (by decide) (by decide)⟩
  rename_i h0 h1 h2
  simp only [latchHeader_inLen, latchHeader_t, latchHeader_o] at h1 h2
  have h2' : s.o.toNat + bytes.length ≤ limit s := Nat.le_of_not_lt h2
  refine ⟨_, rfl, .completed _ _ _ _ (.header _ _) (by omega) (by omega) (by omega) h2' ?_ ?_ ?_⟩
  · intro hr; unfold storeLiteral; rw [if_neg (by simpa [real] using hr)]; rfl
  · intro a ha; exact storeLiteral_outside ha
  · exact storeLiteral_wf (s := latchHeader _ s) h2'

/-- A match's ends. -/
theorem matchToken_end (len : LenField) (off : OffField) (s : State) :
    ∃ s', settle (matchToken len off s) = .next s' ∧ TokenEnd s s' := by
  unfold matchToken
  simp only
  split
  · exact ⟨_, rfl, .faulted _ _ (.header _ _) (by decide) (by decide)⟩
  split
  · exact ⟨_, rfl, .faulted _ _ (.header _ _) (by decide) (by decide)⟩
  split
  · exact ⟨_, rfl, .faulted _ _ (.offset _ _ _) (by decide) (by decide)⟩
  split
  · exact ⟨_, rfl, .faulted _ _ (.offset _ _ _) (by decide) (by decide)⟩
  split
  · exact ⟨_, rfl, .faulted _ _ (.offset _ _ _) (by decide) (by decide)⟩
  rename_i h0 h1 _ _ h2
  simp only [latchHeader_inLen, latchHeader_t, Config.matchBytes, latchHeader_o, latchOffset_o] at h1 h2
  have h2' : s.o.toNat + len.toNat ≤ limit s := Nat.le_of_not_lt h2
  have h0' : len.toNat ≠ 0 := fun e => h0 (BitVec.eq_of_toNat_eq (by simpa using e))
  refine ⟨_, rfl, .completed _ _ _ _ (.offset _ _ _) (by omega) (by simp) (by simp; omega) h2' ?_ ?_ ?_⟩
  · intro hr; unfold storeMatch; rw [if_neg (by simpa [real] using hr)]; rfl
  · intro a ha; exact storeMatch_outside ha
  · exact storeMatch_wf (s := latchOffset off (latchHeader _ s)) h2'

/-- A token the stream ends in the middle of faults, if it has a header. -/
theorem truncatedToken_end (r : Reject) (s : State) (hr : r ≠ .noHeader) :
    ∃ s', truncatedToken r s = .next s' ∧ TokenEnd s s' := by
  cases r with
  | noHeader => exact absurd rfl hr
  | truncatedLiteral len => exact ⟨_, rfl, .faulted _ _ (.header _ _) (by decide) (by decide)⟩
  | truncatedMatch len => exact ⟨_, rfl, .faulted _ _ (.header _ _) (by decide) (by decide)⟩

/-- The instructions the token decoder answers: the five token rows, and none with an empty payload. -/
theorem decodeToken_isToken {bytes rest : List Byte} {i : Instr} (h : decodeToken bytes = .ok i rest) (s : State) :
    ∃ s', exec i s = .next s' ∧ TokenEnd s s' := by
  unfold decodeToken at h
  split at h
  · cases h
  · simp only at h
    split at h
    · cases h
      split
      · exact ⟨_, rfl, .faulted _ _ (.header _ _) (by decide) (by decide)⟩
      · exact ⟨_, rfl, .faulted _ _ (.header _ _) (by decide) (by decide)⟩
    split at h
    · split at h
      · cases h
        split
        · exact matchToken_end _ _ s
        · exact matchToken_end _ _ s
      · cases h
    split at h
    · cases h
    · cases h; exact literalToken_end _ s

/-- The decoder finds a header wherever there is a byte. -/
theorem decodeToken_reject_header {b : Byte} {bytes : List Byte} {r : Reject}
    (h : decodeToken (b :: bytes) = .reject r) : r ≠ .noHeader := by
  unfold decodeToken at h
  simp only at h
  split at h
  · cases h
  split at h
  · split at h <;> cases h; simp
  split at h <;> cases h; simp

theorem tokenWindow_length (s : State) : (tokenWindow s).length = min 128 (s.inLen.toNat - s.t.toNat) := by
  simp [tokenWindow]

/-- The token step of a walk with input left: one of a token's ends, never a stop. -/
theorem tokenStep_end {s : State} (h : s.t.toNat < s.inLen.toNat) : ∃ s', tokenStep s = .next s' ∧ TokenEnd s s' := by
  unfold tokenStep
  split
  · exact decodeToken_isToken ‹_› s
  · rename_i r hr
    refine truncatedToken_end r s ?_
    have hl := tokenWindow_length s
    cases hw : tokenWindow s with
    | nil => rw [hw] at hl; simp at hl; omega
    | cons b bs => rw [hw] at hr; exact decodeToken_reject_header hr

end Sys2Proof.Machine
end

