-- ==== Sys2Proof/Laws/Engine.lean ====
section
/-! SUPPORT. What a step can be, said once: the cases of the engine's step and of the machine's. -/

namespace Sys2Proof.Machine

/-- The engine's step, case by case. -/
inductive EngineCase (s : State) : Prop where
  | idle : ¬ busy s → engineStep s = .next s → EngineCase s
  | encStep : busy s → s.cmd = opEncode → s.i.toNat < s.inLen.toNat →
      engineStep s = settle (encodeStep hashFn s) → EngineCase s
  | lastFlush : busy s → s.cmd = opEncode → s.inLen.toNat ≤ s.i.toNat → s.lit ≠ 0#7 →
      engineStep s = settle (flushRun s) → EngineCase s
  | encodeEnds : busy s → s.cmd = opEncode → s.inLen.toNat ≤ s.i.toNat → s.lit = 0#7 →
      engineStep s = .next (endCommand s) → EngineCase s
  | noCommand : busy s → s.cmd = opReserved → engineStep s = .fault .noCommand → EngineCase s
  | token : busy s → s.cmd = opDecode ∨ s.cmd = opProbe → s.t.toNat < s.inLen.toNat →
      engineStep s = tokenStep s → EngineCase s
  | walkEnds : busy s → s.cmd = opDecode ∨ s.cmd = opProbe → s.inLen.toNat ≤ s.t.toNat →
      engineStep s = .next (endCommand s) → EngineCase s

theorem op_cases (op : BitVec 2) : op = opReserved ∨ op = opEncode ∨ op = opDecode ∨ op = opProbe := by
  revert op; decide

theorem walk_ops {op : BitVec 2} (h : op = opDecode ∨ op = opProbe) : op ≠ opEncode ∧ op ≠ opReserved := by
  revert op; decide

theorem engineStep_cases (s : State) : EngineCase s := by
  by_cases hb : busy s
  · have hb' := not_not.mpr hb
    by_cases he : s.cmd = opEncode
    · by_cases hi : s.i.toNat < s.inLen.toNat
      · exact .encStep hb he hi (by rw [engineStep, if_neg hb', if_pos he, compressStep, if_pos hi]; rfl)
      · by_cases hl : s.lit = 0#7
        · exact .encodeEnds hb he (by omega) hl (by
            rw [engineStep, if_neg hb', if_pos he, compressStep, if_neg hi, if_pos hl])
        · exact .lastFlush hb he (by omega) hl (by
            rw [engineStep, if_neg hb', if_pos he, compressStep, if_neg hi, if_neg hl]; rfl)
    · by_cases hr : s.cmd = opReserved
      · exact .noCommand hb hr (by rw [engineStep, if_neg hb', if_neg he, if_pos hr])
      · have hw : s.cmd = opDecode ∨ s.cmd = opProbe := by have := op_cases s.cmd; tauto
        by_cases ht : s.t.toNat < s.inLen.toNat
        · exact .token hb hw ht (by rw [engineStep, if_neg hb', if_neg he, if_neg hr, walkStep, if_pos ht])
        · exact .walkEnds hb hw (by omega) (by
            rw [engineStep, if_neg hb', if_neg he, if_neg hr, walkStep, if_neg ht])
  · exact .idle hb (by rw [engineStep, if_pos hb])

/-- A step on the engine's turn is the engine's step. -/
theorem step_engineTurn {s s0 : State} (h : engineTurn s s0) : step s = engineStep s0 := by
  rcases h with ⟨hh, rfl⟩ | ⟨rest, hh, rfl⟩ <;> simp [step, hh]

/-- A step on the host's turn is the host's move. -/
theorem step_hostTurn {s : State} {m : HostMove} {rest : List (Option HostMove)} (h : s.host = some m :: rest) :
    step s = hostStep m { s with host := rest } := by simp [step, h]

/-- Whose turn it is. -/
theorem step_turns (s : State) :
    (∃ s0, engineTurn s s0 ∧ step s = engineStep s0) ∨
    (∃ m rest, s.host = some m :: rest ∧ step s = hostStep m { s with host := rest }) := by
  cases hh : s.host with
  | nil => exact .inl ⟨s, .inl ⟨hh, rfl⟩, step_engineTurn (.inl ⟨hh, rfl⟩)⟩
  | cons slot rest =>
    cases slot with
    | none => exact .inl ⟨_, .inr ⟨rest, hh, rfl⟩, step_engineTurn (.inr ⟨rest, hh, rfl⟩)⟩
    | some m => exact .inr ⟨m, rest, rfl, step_hostTurn hh⟩

/-- What the engine sees on its turn is the state but for the host's slot. -/
theorem engineTurn_frame {s s0 : State} (h : engineTurn s s0) : s0 = { s with host := s0.host } := by
  rcases h with ⟨-, rfl⟩ | ⟨rest, -, rfl⟩ <;> rfl

/-- The commands a CMD write names. -/
theorem exec_decodeCmd (op : BitVec 2) (s : State) :
    exec (decodeCmd op) s = .next (if op = opReserved then s else if op = opEncode then unlessBusy startEncode s
      else unlessBusy (startWalk op) s) := by
  have h := op_cases op
  rcases h with rfl | rfl | rfl | rfl <;> rfl

end Sys2Proof.Machine
end

