-- ==== Sys2Proof/Laws/PerInstr.lean ====
section
/-! SUPPORT. Families of statements about the instructions as syntax, one lemma per constructor. -/

namespace Sys2Proof.Laws.EncodingSize

/-- A token's encoding is 1 to 128 bytes long, as long as its header says where its length is not 0 (R90, R97), and
only the tokens have one. -/
def Statement (i : Instr) : Prop :=
  i.wf = true → ∀ bytes, tokenEncoding i = some bytes →
    1 ≤ bytes.length ∧ bytes.length ≤ Config.maxTokenBytes ∧
      ∀ hdr rest, bytes = hdr :: rest → headerLen hdr ≠ 0#7 → bytes.length = tokenBytes hdr

open Sys2Proof.Machine

theorem lit (bytes : List Byte) : Statement (.lit bytes) := by
  intro hw enc h
  obtain rfl : encodeLit bytes = enc := by simpa [tokenEncoding, encode] using h
  have := (wf_lit bytes).mp hw
  refine ⟨by simp, by simp; omega, ?_⟩
  intro hdr rest e _
  obtain ⟨rfl, rfl⟩ := List.cons.inj e
  simp [tokenBytes, Nat.mod_eq_of_lt (show bytes.length < 128 by omega)]
  omega

theorem encodeMatch_size (len : LenField) (off : OffField) (enc : List Byte) (h : encodeMatch len off = enc) :
    1 ≤ enc.length ∧ enc.length ≤ Config.maxTokenBytes ∧
      ∀ hdr rest, enc = hdr :: rest → headerLen hdr ≠ 0#7 → enc.length = tokenBytes hdr := by
  subst h
  refine ⟨by simp, by simp, ?_⟩
  intro hdr rest e _
  obtain ⟨rfl, rfl⟩ := List.cons.inj e
  simp [tokenBytes]

theorem matchTok (len : LenField) (off : OffField) : Statement (.matchTok len off) := fun _ enc h =>
  encodeMatch_size len off enc (by simpa [tokenEncoding, encode] using h)

theorem reservedLit0 : Statement .reservedLit0 := by
  intro _ enc h
  obtain rfl : [0x00#8] = enc := by simpa [tokenEncoding, encode] using h
  refine ⟨by simp, by simp, fun hdr rest e hl => ?_⟩
  obtain ⟨rfl, rfl⟩ := List.cons.inj e
  exact absurd rfl hl

theorem reservedMatch0 : Statement .reservedMatch0 := by
  intro _ enc h
  obtain rfl : [0x80#8] = enc := by simpa [tokenEncoding, encode] using h
  refine ⟨by simp, by simp, fun hdr rest e hl => ?_⟩
  obtain ⟨rfl, rfl⟩ := List.cons.inj e
  exact absurd rfl hl

theorem reservedOff0 (len : LenField) : Statement (.reservedOff0 len) := fun _ enc h =>
  encodeMatch_size len 0#16 enc (by simpa [tokenEncoding, encode] using h)

theorem cmdReserved : Statement .cmdReserved := fun _ _ h => by simp [tokenEncoding, encode] at h
theorem encode : Statement .encode := fun _ _ h => by simp [tokenEncoding, Sys2Proof.encode] at h
theorem decode : Statement .decode := fun _ _ h => by simp [tokenEncoding, Sys2Proof.encode] at h
theorem probe : Statement .probe := fun _ _ h => by simp [tokenEncoding, Sys2Proof.encode] at h
theorem hash (p : Word) : Statement (.hash p) := fun _ _ h => by simp [tokenEncoding, Sys2Proof.encode] at h
theorem lookup (h : HashVal) : Statement (.lookup h) := fun _ _ e => by simp [tokenEncoding, Sys2Proof.encode] at e
theorem chainOf (p : Word) : Statement (.chainOf p) := fun _ _ h => by simp [tokenEncoding, Sys2Proof.encode] at h
theorem insert (p : Word) : Statement (.insert p) := fun _ _ h => by simp [tokenEncoding, Sys2Proof.encode] at h
theorem find (i : Word) : Statement (.find i) := fun _ _ h => by simp [tokenEncoding, Sys2Proof.encode] at h
theorem encStep : Statement .encStep := fun _ _ h => by simp [tokenEncoding, Sys2Proof.encode] at h
theorem flush : Statement .flush := fun _ _ h => by simp [tokenEncoding, Sys2Proof.encode] at h
theorem emitMatch (len : LenField) (off : OffField) : Statement (.emitMatch len off) := fun _ _ h => by
  simp [tokenEncoding, Sys2Proof.encode] at h

end Sys2Proof.Laws.EncodingSize
end

