-- ==== Sys2Proof/Machine/Text.lean ====
section
/-! DEFINITION. The spec's textual notation of a token stream, one token per line (R105, R106), payload bytes as two
digit hexadecimal. Texts are lists of characters. -/

namespace Sys2Proof.Machine

/-- A hexadecimal digit. -/
def hexDigit (n : Nat) : Char := if n < 10 then Char.ofNat (48 + n) else Char.ofNat (55 + n)

/-- A byte as two hexadecimal digits (R9). -/
def hexByte (b : Byte) : List Char := [hexDigit (b.toNat / 16), hexDigit (b.toNat % 16)]

/-- The decimal digits of a number below `10 ^ fuel`, no leading zero. -/
def decimal : Nat → Nat → List Char
  | 0, _ => []
  | fuel + 1, n => if n < 10 then [hexDigit n] else decimal fuel (n / 10) ++ [hexDigit (n % 10)]

/-- A token's line (R105); none for what is no token. -/
def tokenText : Instr → Option (List Char)
  | .lit bytes => some (['L', 'I', 'T', ' '] ++ decimal 5 bytes.length ++ [','] ++ bytes.flatMap fun b => ' ' :: hexByte b)
  | .matchTok len off =>
    some (['M', 'A', 'T', 'C', 'H', ' '] ++ decimal 5 len.toNat ++ [',', ' '] ++ decimal 5 off.toNat)
  | _ => none

end Sys2Proof.Machine
end

