-- ==== Sys2Proof/Tests/Slice0.lean ====
section
/-! SUPPORT. The model's own tests. Expected values are those of spec/95_test_vectors.md (the vector is named) or of the
spec's tables, never the model's own answers; and, for every obligation with hypotheses, a witness that meets them. -/

namespace Sys2Proof.Tests

open Sys2Proof.Machine

/-! ### Helpers -/

/-- An idle engine with this input and this capacity of OUT. -/
def loaded (input : List Byte) (cap : Nat) : State :=
  { State.reset with inp := writeBytes [] 0 input, inLen := BitVec.ofNat 32 input.length, outCap := BitVec.ofNat 32 cap }

/-- A DECODE at token index `t` with these bytes produced. -/
def decoding (input : List Byte) (t : Nat) (produced : List Byte) (cap : Nat) : State :=
  { loaded input cap with
    status := statusBusy, cmd := opDecode, t := BitVec.ofNat 32 t
    o := BitVec.ofNat 32 produced.length, out := writeBytes [] 0 produced }

/-- An ENCODE at cursor `i` with a pending run and these bytes emitted. -/
def encoding (input : List Byte) (i lit : Nat) (emitted : List Byte) (cap : Nat) (head chain : Table) : State :=
  { loaded input cap with
    status := statusBusy, cmd := opEncode, i := BitVec.ofNat 32 i, lit := BitVec.ofNat 7 lit
    o := BitVec.ofNat 32 emitted.length, out := writeBytes [] 0 emitted, head := head, chain := chain }

/-- The next state of an outcome. -/
def nextState : Host.Outcome State Fault Refusal → Option State
  | .next s => some s
  | _ => none

/-- The fault or refusal of an outcome. -/
def stopOf : Host.Outcome State Fault Refusal → Option (Fault ⊕ Refusal)
  | .next _ => none
  | .fault f => some (.inl f)
  | .refused r => some (.inr r)

/-- OUT from index 0, in the next state. -/
def outAfter (x : Host.Outcome State Fault Refusal) (count : Nat) : Option (List Byte) :=
  (nextState x).map fun s => outSlice s count

/-- STATUS, FAULT_KIND, FAULT_CAUSE, FAULT_POS and OUT_LEN in the next state, as numbers. -/
def results (x : Host.Outcome State Fault Refusal) : Option (List Nat) :=
  (nextState x).map fun s =>
    [s.status.toNat, s.faultKind.toNat, s.faultCause.toNat, s.faultPos.toNat, s.outLen.toNat]

/-- "ABCDABCD" (S4). -/
def abcd : List Byte := [0x41#8, 0x42#8, 0x43#8, 0x44#8, 0x41#8, 0x42#8, 0x43#8, 0x44#8]

/-- "AAAAA" (V9, V15, V28f). -/
def fiveA : List Byte := [0x41#8, 0x41#8, 0x41#8, 0x41#8, 0x41#8]

/-- P1's stream: `LIT 3, "abc"` then `MATCH 6, 3`. -/
def p1 : List Byte := [0x03#8, 0x61#8, 0x62#8, 0x63#8, 0x86#8, 0x00#8, 0x03#8]

/-- HEAD and CHAIN of "ABCDABCD" at cursor 4 (P4, V8). -/
def abcdHead : Table := [(0x4052, 4#32), (0x4563, 1#32), (0x4674, 2#32), (0x4701, 3#32)]

/-! ### Well-formedness: each check refuses its ill-formed term (R91, R92, R101, R169) -/

theorem test_wf_lit_empty : (Instr.lit []).wf = false := by decide
theorem test_wf_lit_128 : (Instr.lit (List.replicate 128 0#8)).wf = false := by decide +kernel
theorem test_wf_lit_127 : (Instr.lit (List.replicate 127 0#8)).wf = true := by decide +kernel
theorem test_wf_match_len0 : (Instr.matchTok 0#7 1#16).wf = false := by decide
theorem test_wf_match_off0 : (Instr.matchTok 1#7 0#16).wf = false := by decide
theorem test_wf_match_greatest : (Instr.matchTok 127#7 65535#16).wf = true := by decide
theorem test_wf_reservedOff0_len0 : (Instr.reservedOff0 0#7).wf = false := by decide
theorem test_wf_emitMatch_len3 : (Instr.emitMatch 3#7 1#16).wf = false := by decide
theorem test_wf_emitMatch_off0 : (Instr.emitMatch 4#7 0#16).wf = false := by decide
theorem test_wf_emitMatch_least : (Instr.emitMatch 4#7 1#16).wf = true := by decide

/-! ### Decoding: words written out from the tables of R91, R92, R98 and R104 -/

/-- R105's example: `03 61 62 63` is `LIT 3, "abc"`. -/
theorem test_decode_lit : decodeToken [0x03#8, 0x61#8, 0x62#8, 0x63#8] = .ok (.lit [0x61#8, 0x62#8, 0x63#8]) [] := by
  decide
/-- R105's example: `86 00 03` is `MATCH 6, 3`. -/
theorem test_decode_match : decodeToken [0x86#8, 0x00#8, 0x03#8] = .ok (.matchTok 6#7 3#16) [] := by decide
/-- V30: `C9 01 4C` is `MATCH 73, 332`: the high offset byte first. -/
theorem test_decode_match_bigEndian : decodeToken [0xC9#8, 0x01#8, 0x4C#8] = .ok (.matchTok 73#7 332#16) [] := by
  decide
theorem test_decode_reservedLit0 : decodeToken [0x00#8, 0x61#8] = .ok .reservedLit0 [0x61#8] := by decide
/-- V62: the header alone decides. -/
theorem test_decode_reservedMatch0 : decodeToken [0x80#8] = .ok .reservedMatch0 [] := by decide
/-- V69's token. -/
theorem test_decode_reservedOff0 : decodeToken [0x84#8, 0x00#8, 0x00#8] = .ok (.reservedOff0 4#7) [] := by decide
theorem test_decode_commands :
    decodeCmd 0b00#2 = .cmdReserved ∧ decodeCmd 0b01#2 = .encode ∧ decodeCmd 0b10#2 = .decode ∧
      decodeCmd 0b11#2 = .probe := by decide
/-- V65 and V68: a token that is not all there is rejected by name, and so is the end of the stream. -/
theorem test_decode_rejects :
    decodeToken [0x05#8, 0x41#8, 0x42#8] = .reject (.truncatedLiteral 5#7) ∧
      decodeToken [0x84#8] = .reject (.truncatedMatch 4#7) ∧ decodeToken [] = .reject .noHeader := by decide
/-- Table words: byte 0 most significant (rows MATCH and RESERVED_OFF0), commands by their 2 bits, no word for a
micro-operation. -/
theorem test_decodeTableWord :
    decodeTableWord 16 0x0141 = some (.lit [0x41#8]) ∧ decodeTableWord 24 0x860003 = some (.matchTok 6#7 3#16) ∧
      decodeTableWord 8 0x00 = some .reservedLit0 ∧ decodeTableWord 8 0x80 = some .reservedMatch0 ∧
      decodeTableWord 24 0x840000 = some (.reservedOff0 4#7) ∧ decodeTableWord 2 0 = some .cmdReserved ∧
      decodeTableWord 2 1 = some .encode ∧ decodeTableWord 8 2 = some .decode ∧ decodeTableWord 2 3 = some .probe ∧
      decodeTableWord 0 0 = none := by decide +kernel
/-- R96: the encoder's bytes; R107: none for a micro-operation. -/
theorem test_encode :
    encode (.lit [0x61#8, 0x62#8, 0x63#8]) = some (.token [0x03#8, 0x61#8, 0x62#8, 0x63#8]) ∧
      encode (.matchTok 127#7 65535#16) = some (.token [0xFF#8, 0xFF#8, 0xFF#8]) ∧
      encode .probe = some (.command 3#2) ∧ encode .encStep = none ∧ encode (.emitMatch 4#7 4#16) = none := by decide
/-- V50's stream, whole. -/
theorem test_decodeStream :
    decodeStream 2 p1 = some [.lit [0x61#8, 0x62#8, 0x63#8], .matchTok 6#7 3#16] := by decide
/-- R105's notation. -/
theorem test_tokenText :
    tokenText (.matchTok 6#7 3#16) = some "MATCH 6, 3".toList ∧
      tokenText (.lit [0x61#8, 0x0A#8]) = some "LIT 2, 61 0A".toList := by decide

/-! ### Tokens -/

/-- P1 step 1. -/
theorem test_lit : outAfter (exec (.lit [0x61#8, 0x62#8, 0x63#8]) (decoding p1 0 [] 9)) 4 =
    some [0x61#8, 0x62#8, 0x63#8, 0x00#8] := by decide
/-- V76: the literal does not fit; nothing is written. -/
theorem test_lit_overflow : results (exec (.lit [0x61#8, 0x62#8, 0x63#8]) (decoding p1 0 [] 2)) =
    some [4, 1, 6, 0, 0] := by decide
/-- P1 step 2: bytes 4 to 6 of the copy are bytes the same token wrote. -/
theorem test_match : outAfter (exec (.matchTok 6#7 3#16) (decoding p1 4 [0x61#8, 0x62#8, 0x63#8] 9)) 9 =
    some [0x61#8, 0x62#8, 0x63#8, 0x61#8, 0x62#8, 0x63#8, 0x61#8, 0x62#8, 0x63#8] := by decide
/-- V71 with `OUT_CAP` = 1: cause 5 comes before cause 6. -/
theorem test_match_beyond : results (exec (.matchTok 4#7 2#16)
    (decoding [0x01#8, 0x41#8, 0x84#8, 0x00#8, 0x02#8] 2 [0x41#8] 1)) = some [4, 1, 5, 2, 1] := by decide
/-- V60. -/
theorem test_reservedLit0 : results (exec .reservedLit0 (decoding [0x00#8] 0 [] 9)) = some [4, 1, 1, 0, 0] := by decide
/-- V63: before `ZERO_OFFSET`. -/
theorem test_reservedMatch0 : results (exec .reservedMatch0
    (decoding [0x01#8, 0x41#8, 0x80#8, 0x00#8, 0x00#8] 2 [0x41#8] 9)) = some [4, 1, 1, 2, 1] := by decide
/-- V69. -/
theorem test_reservedOff0 : results (exec (.reservedOff0 4#7)
    (decoding [0x01#8, 0x41#8, 0x84#8, 0x00#8, 0x00#8] 2 [0x41#8] 9)) = some [4, 1, 4, 2, 1] := by decide

/-! ### Host commands -/

/-- V80. -/
theorem test_cmdReserved : exec .cmdReserved State.reset = .next State.reset := rfl
/-- V81's start. -/
theorem test_encode_start : results (exec .encode (loaded abcd 16)) = some [1, 0, 0, 0, 0] := by decide
/-- V82: the next start clears the fault registers. -/
theorem test_decode_clears : results (exec .decode
    { loaded p1 9 with status := statusFault, faultKind := 1#2, faultCause := 5#3, faultPos := 7#32, outLen := 6#32 }) =
    some [1, 0, 0, 0, 0] := by decide
/-- V83: PROBE of P1's stream starts whatever `OUT_CAP` is. -/
theorem test_probe_start : (nextState (exec .probe (loaded p1 0))).map (·.cmd) = some 3#2 := by decide
/-- V84: a CMD write while BUSY changes nothing. -/
theorem test_cmd_while_busy :
    (nextState (step { encoding abcd 4 4 [] 16 abcdHead [] with host := [some (.writeReg .cmd 2#32)] })) =
      some (encoding abcd 4 4 [] 16 abcdHead []) := by decide

/-! ### HashChainIndex and MatchFinder -/

/-- V1. -/
theorem test_hash : (nextState (exec (.hash 0#32) (loaded abcd 16))).map (·.h) = some 0x4563#16 := by decide
/-- V4: the middle byte overlaps both neighbours. -/
theorem test_hashFn_overlap : hashFn 0xFF#8 0xFF#8 0xFF#8 = 0xF00F#16 := by decide
/-- V8: `LOOKUP(0x4563) = 5` at the end. -/
theorem test_lookup : (nextState (exec (.lookup 0x4563#16)
    { loaded abcd 16 with head := [(0x4052, 4#32), (0x4563, 5#32)] })).map (·.c) = some 5#32 := by decide
/-- V8: `CHAINOF(4) = 1`; the slot is the position's low 16 bits (R31). -/
theorem test_chainOf :
    (nextState (exec (.chainOf 4#32) { loaded abcd 16 with chain := [(4, 1#32)] })).map (·.c) = some 1#32 ∧
      (nextState (exec (.chainOf 65540#32) { loaded abcd 16 with chain := [(4, 1#32)] })).map (·.c) = some 1#32 := by
  decide
/-- V9, V10: `INSERT(1)` after `INSERT(0)` on "AAAAA": the CHAIN write reads the old head. -/
theorem test_insert : (nextState (exec (.insert 1#32) { loaded fiveA 16 with head := [(0x4551, 1#32)] })).map
    (fun s => (s.head, s.chain)) = some ([(0x4551, 2#32)], [(1, 1#32)]) := by decide
/-- V12: `FIND(4)` on "ABCDABCD" is `(4, 4)`. -/
theorem test_find : (nextState (exec (.find 4#32) (encoding abcd 4 4 [] 16 abcdHead []))).map
    (fun s => (s.bestOff, s.bestLen)) = some (4#16, 4#32) := by decide
/-- V14: `FIND(1)` on "AAAA" measures 3, discarded. -/
theorem test_find_discards : (nextState (exec (.find 1#32)
    (encoding [0x41#8, 0x41#8, 0x41#8, 0x41#8] 1 1 [] 16 [(0x4551, 1#32)] []))).map
    (fun s => (s.bestOff, s.bestLen)) = some (0#16, 1#32) := by decide

/-! ### Encoder -/

/-- P4 step 5: the run and the match go out. -/
theorem test_encStep_out : outAfter (exec .encStep (encoding abcd 4 4 [] 16 abcdHead [])) 9 =
    some [0x04#8, 0x41#8, 0x42#8, 0x43#8, 0x44#8, 0x84#8, 0x00#8, 0x04#8, 0x00#8] := by decide
/-- P4 step 5: positions 4 and 5 are inserted, 6 and 7 are not. -/
theorem test_encStep_index : (nextState (exec .encStep (encoding abcd 4 4 [] 16 abcdHead []))).map
    (fun s => (s.i.toNat, s.lit.toNat, s.head, s.chain)) =
    some (8, 0, [(0x4052, 4#32), (0x4563, 5#32), (0x4674, 6#32), (0x4701, 3#32)], [(4, 1#32), (5, 2#32)]) := by decide
/-- P7 step 5: FLUSH fits, EMITMATCH does not. -/
theorem test_encStep_full : results (exec .encStep (encoding abcd 4 4 [] 7 abcdHead [])) =
    some [4, 2, 1, 4, 5] := by decide
/-- R168's worked example. -/
theorem test_flush : outAfter (exec .flush (encoding abcd 4 4 [] 16 [] [])) 6 =
    some [0x04#8, 0x41#8, 0x42#8, 0x43#8, 0x44#8, 0x00#8] := by decide
/-- V45i: the final flush at `i` = 1 needs 2 bytes. -/
theorem test_flush_full : results (exec .flush (encoding [0x41#8] 1 1 [] 1 [] [])) = some [4, 2, 1, 1, 0] := by decide
/-- R169's worked example, over five bytes emitted. -/
theorem test_emitMatch : outAfter (exec (.emitMatch 4#7 4#16)
    (encoding abcd 4 0 [0x04#8, 0x41#8, 0x42#8, 0x43#8, 0x44#8] 8 [] [])) 8 =
    some [0x04#8, 0x41#8, 0x42#8, 0x43#8, 0x44#8, 0x84#8, 0x00#8, 0x04#8] := by decide
/-- V45b. -/
theorem test_emitMatch_full : results (exec (.emitMatch 4#7 4#16)
    (encoding abcd 4 0 [0x04#8, 0x41#8, 0x42#8, 0x43#8, 0x44#8] 7 [] [])) = some [4, 2, 1, 4, 5] := by decide

/-! ### Steps -/

/-- V67: a match whose offset bytes are not all there. -/
theorem test_step_truncated : results (step (decoding [0x01#8, 0x41#8, 0x84#8, 0x00#8] 2 [0x41#8] 9)) =
    some [4, 1, 3, 2, 1] := by decide
/-- P1's end. -/
theorem test_step_ends : results (step (decoding p1 7 (List.replicate 9 0x61#8) 9)) = some [2, 0, 0, 0, 9] := by decide
/-- U15: a host write of IN while BUSY is refused. -/
theorem test_step_refuses : stopOf (step { decoding p1 0 [] 9 with host := [some (.writeIn 0#32 0#8)] }) =
    some (.inr .operandWriteWhileBusy) := by decide
/-- A table word placed after reset is the first instruction that runs: `MATCH 6, 3` as the first token faults (V72's
reason, R205), and the command ENCODE starts. -/
theorem test_fetchWord :
    results (step (State.reset.withFetchWord 24 0x860003)) = some [4, 1, 5, 0, 0] ∧
      results (step (State.reset.withFetchWord 2 1)) = some [1, 0, 0, 0, 0] := by decide +kernel

/-! ### The closed form of an input (vectors V28f and V28h) -/

theorem test_tokensOf : tokensOf fiveA = [.lit [0x41#8], .matchTok 4#7 1#16] ∧
    tokensOf abcd = [.lit [0x41#8, 0x42#8, 0x43#8, 0x44#8], .matchTok 4#7 4#16] := by decide
/-- S5. -/
theorem test_expand : expand [.lit [0x41#8], .matchTok 10#7 1#16] [] = some (List.replicate 11 0x41#8) := by decide

/-! ### Witnesses: for each obligation with hypotheses, inputs that meet them, every clause at a boundary of its range -/

/-- A PROBE at token index `t` with this many bytes counted. -/
def probing (input : List Byte) (t o : Nat) : State :=
  { loaded input 0 with status := statusBusy, cmd := opProbe, t := BitVec.ofNat 32 t, o := BitVec.ofNat 32 o }

/-- The ENCODE of "AAAAA" after its first step (V15, V28f): the cursor at 1, one byte pending, position 0 inserted. -/
def fiveAt1 : State := encoding fiveA 1 1 [] 16 [(0x4551, 1#32)] []

/-- The ENCODE of 127 zero bytes at its last cursor, were the bytes before it a run of 126: HEAD[0] = 125 and each
CHAIN entry the position before. -/
def runFull (cap : Nat) : State :=
  { encoding [] 126 126 [] cap [(0, 125#32)] ((List.range 124).map fun j => (j + 1, BitVec.ofNat 32 (j + 1))) with
    inLen := 127#32 }

theorem fiveAt1_index : IndexOf hashFn 1 fiveAt1 where
  heads := by
    intro h
    have e : hashAt hashFn fiveAt1 0 = 0x4551#16 := by decide
    by_cases hh : h = 0x4551#16
    · subst hh; decide
    · have hn : h.toNat ≠ 0x4551 := fun c => hh (BitVec.eq_of_toNat_eq c)
      have : newest (hasHash hashFn fiveAt1 h) 1 = 0 := by
        simp [newest, hasHash, e]; intro _; exact fun c => hh c.symm
      rw [this]
      simp [headAt, fiveAt1, encoding, readCell, unlisted, Ne.symm hn]
  chains := by
    intro p hp _ _
    obtain rfl : p = 0 := by omega
    decide

theorem runFull_index (cap : Nat) : IndexOf hashFn 126 (runFull cap) where
  heads := by
    intro h
    have e : ∀ q, hashAt hashFn (runFull cap) q = 0#16 := fun q => by
      simp [hashAt, inByte, runFull, encoding, loaded, State.reset, writeBytes, readCell, unlisted, hashFn]
    by_cases hh : h = 0#16
    · subst hh
      have : hasHash hashFn (runFull cap) 0#16 = fun q => decide (q + 2 < 127) := by
        funext q; simp only [hasHash, e]; simp [hashable, runFull]
      rw [this]; show (125#32).toNat = _; decide +kernel
    · have hz : ∀ m, newest (hasHash hashFn (runFull cap) h) m = 0 := by
        intro m
        induction m with
        | zero => rfl
        | succ m ih =>
          have : hasHash hashFn (runFull cap) h m = false := by
            simp [hasHash, e]; intro _; exact fun c => hh c.symm
          simp [newest, this, ih]
      have hn : h.toNat ≠ 0 := fun c => hh (BitVec.eq_of_toNat_eq c)
      rw [hz]
      simp [headAt, runFull, encoding, readCell, unlisted, Ne.symm hn]
  chains := by
    intro p hp hh _
    have hs : ∀ q, hasHash hashFn (runFull cap) (hashAt hashFn (runFull cap) p) q = decide (q + 2 < 127) := by
      intro q; simp [hasHash, hashable, runFull]; intro _; rfl
    rw [funext hs]
    have all : ∀ q, q < 125 → (readCell ((List.range 124).map fun j => (j + 1, BitVec.ofNat 32 (j + 1))) (chainSlot q)).toNat =
        newest (fun q => decide (q + 2 < 127)) q := by decide +kernel
    have : p < 125 := by simp [hashable, runFull] at hh; omega
    exact all p this

theorem fiveAt1_running : EncodeRunning hashFn fiveAt1 :=
  ⟨by decide, by decide, by decide, by decide, by decide, fiveAt1_index⟩

theorem runFull_running : EncodeRunning hashFn (runFull 252) :=
  ⟨by decide, by decide, by decide, by decide, by decide, runFull_index 252⟩

theorem fiveAt1_inv : Inv fiveAt1 where
  storage := ⟨by decide +kernel, by decide, by decide, by decide⟩
  status := by decide
  faults := ⟨fun _ => by decide, fun h => absurd h (by decide)⟩
  running := fun _ => .inl ⟨rfl, fiveAt1_running⟩

/-- A host write of IN in the slot of a running ENCODE. -/
theorem fiveAt1_host_inv (host : List (Option HostMove)) : Inv { fiveAt1 with host := host } :=
  have r := fiveAt1_running
  { storage := ⟨fiveAt1_inv.storage.1, fiveAt1_inv.storage.2, fiveAt1_inv.storage.3, fiveAt1_inv.storage.4⟩
    status := fiveAt1_inv.status
    faults := ⟨fiveAt1_inv.faults.1, fiveAt1_inv.faults.2⟩
    running := fun _ => .inl ⟨rfl, ⟨r.1, r.2, r.3, r.4, r.5, ⟨r.6.1, r.6.2⟩⟩⟩ }

/-! #### Encodings -/

theorem witness_EveryHeaderByteDecodes :
    (0x00#8).toNat = 0 ∧
    (1 ≤ (0x01#8).toNat ∧ (0x01#8).toNat ≤ 127 ∧ (0x01#8).toNat ≤ [0xFF#8].length) ∧
    (1 ≤ (0x7F#8).toNat ∧ (0x7F#8).toNat ≤ 127 ∧ (0x7F#8).toNat ≤ (List.replicate 127 0x2A#8).length) ∧
    (1 ≤ (0x7F#8).toNat ∧ (0x7F#8).toNat ≤ 127 ∧ (List.replicate 126 0x2A#8).length < (0x7F#8).toNat) ∧
    (0x80#8).toNat = 128 ∧
    (129 ≤ (0x81#8).toNat ∧ 0 < 256 * (0x00#8).toNat + (0x01#8).toNat) ∧
    (129 ≤ (0xFF#8).toNat ∧ 0 < 256 * (0xFF#8).toNat + (0xFF#8).toNat) ∧
    (129 ≤ (0x81#8).toNat ∧ 256 * (0x00#8).toNat + (0x00#8).toNat = 0) ∧
    (129 ≤ (0xFF#8).toNat ∧ [0x00#8].length < 2) := by decide +kernel
theorem witness_DecodeOfEncodeIsIdentity :
    (Instr.lit [0x61#8]).wf = true ∧ encode (.lit [0x61#8]) = some (.token [0x01#8, 0x61#8]) ∧
      Instr.probe.wf = true ∧ encode .probe = some (.command 3#2) := by decide
theorem witness_EncodeOfDecodeIsIdentity :
    decodeToken [0xFF#8, 0x01#8, 0x4C#8, 0x00#8] = .ok (.matchTok 127#7 332#16) [0x00#8] := by decide
theorem witness_TokenStreamsReadBack :
    ∀ i ∈ [Instr.lit [0x61#8], .matchTok 1#7 1#16, .reservedOff0 127#7],
      i.wf = true ∧ (tokenEncoding i).isSome = true := by decide
theorem witness_HeaderGivesTokenLength :
    decodeToken [0x01#8, 0x61#8] = .ok (.lit [0x61#8]) [] ∧ headerLen 0x01#8 ≠ 0#7 ∧
      decodeToken [0x81#8, 0x00#8, 0x01#8] = .ok (.matchTok 1#7 1#16) [] ∧ headerLen 0x81#8 ≠ 0#7 := by decide

/-! #### Tokens -/

/-- One byte short; one byte too much for OUT; exactly fitting both, as a DECODE and as a PROBE. -/
theorem witness_LitMeaning :
    (let s := decoding [0x02#8, 0x61#8] 0 [] 9; s.inLen.toNat < s.t.toNat + 1 + [0x61#8, 0x62#8].length) ∧
    (let s := decoding [0x01#8, 0x61#8] 0 [] 0
     s.t.toNat + 1 + [0x61#8].length ≤ s.inLen.toNat ∧ limit s < s.o.toNat + [0x61#8].length) ∧
    (let s := decoding [0x01#8, 0x61#8] 0 [] 1
     s.t.toNat + 1 + [0x61#8].length ≤ s.inLen.toNat ∧ s.o.toNat + [0x61#8].length ≤ limit s ∧ s.cmd = opDecode) ∧
    (let s := probing [0x01#8, 0x61#8] 0 4294967294
     s.t.toNat + 1 + [0x61#8].length ≤ s.inLen.toNat ∧ s.o.toNat + [0x61#8].length ≤ limit s ∧ s.cmd ≠ opDecode) := by
  decide
/-- P1's match: an offset byte missing; a zero offset; an offset one beyond the output; one byte too much for OUT; exactly fitting, as
a DECODE and as a PROBE. -/
theorem witness_MatchMeaning :
    (6#7 : LenField) ≠ 0#7 ∧ (3#16 : OffField) ≠ 0#16 ∧
    (let s := decoding (p1.take 6) 4 [0x61#8, 0x62#8, 0x63#8] 9; s.inLen.toNat < s.t.toNat + 3) ∧
    (let s := decoding [0x81#8, 0x00#8, 0x00#8] 0 [] 9; s.t.toNat + 3 ≤ s.inLen.toNat) ∧
    (let s := decoding p1 4 [0x61#8, 0x62#8] 9; s.t.toNat + 3 ≤ s.inLen.toNat ∧ s.o.toNat < (3#16).toNat) ∧
    (let s := decoding p1 4 [0x61#8, 0x62#8, 0x63#8] 8
     s.t.toNat + 3 ≤ s.inLen.toNat ∧ (3#16).toNat ≤ s.o.toNat ∧ limit s < s.o.toNat + (6#7).toNat) ∧
    (let s := decoding p1 4 [0x61#8, 0x62#8, 0x63#8] 9
     s.t.toNat + 3 ≤ s.inLen.toNat ∧ (3#16).toNat ≤ s.o.toNat ∧ s.o.toNat + (6#7).toNat ≤ limit s ∧
       s.cmd = opDecode) ∧
    (let s := probing p1 4 3
     s.t.toNat + 3 ≤ s.inLen.toNat ∧ (3#16).toNat ≤ s.o.toNat ∧ s.o.toNat + (6#7).toNat ≤ limit s ∧
       s.cmd ≠ opDecode) := by decide
theorem witness_MatchCopyIsPeriodic :
    let s := decoding p1 4 [0x61#8, 0x62#8, 0x63#8] 9
    (6#7 : LenField) ≠ 0#7 ∧ (3#16 : OffField) ≠ 0#16 ∧ s.cmd = opDecode ∧ s.t.toNat + 3 ≤ s.inLen.toNat ∧
      (3#16).toNat ≤ s.o.toNat ∧ s.o.toNat + (6#7).toNat ≤ s.outCap.toNat := by decide
theorem witness_ReservedTokensRaise :
    (1#7 : LenField) ≠ 0#7 ∧ (let s := decoding [0x81#8, 0x00#8, 0x00#8] 0 [] 9; s.t.toNat + 3 ≤ s.inLen.toNat) ∧
      (let s := decoding [0x81#8, 0x00#8] 0 [] 9; s.inLen.toNat < s.t.toNat + 3) := by decide
theorem witness_TokenStepFollowsPseudocode : let s := decoding p1 6 [] 9; s.t.toNat < s.inLen.toNat := by decide

/-! #### Host commands and the host's side -/

/-- CommandsStart, EncodeStartsWithEmptyIndex. -/
theorem witness_CommandsStart : State.reset.status ≠ statusBusy := by decide
theorem witness_CommandIgnoredWhileBusy : (decoding p1 0 [] 9).status = statusBusy := by decide
theorem witness_HostWritesByAccessRight :
    State.reset.status ≠ statusBusy ∧ (decoding p1 0 [] 9).status = statusBusy ∧
      operandMove (.writeReg .inLen 0#32) = true ∧ operandMove (.writeReg .outCap 0#32) = true ∧
      operandMove (.writeIn 0#32 0#8) = true ∧ operandMove (.writeOut 0#32 0#8) = true := by decide
theorem witness_HostReadsRegisters :
    State.reset.status ≠ statusFault ∧ (tokenFault causeZeroLength 0#8 0#7 0#16 State.reset).status = statusFault := by
  decide

/-! #### HashChainIndex and MatchFinder -/

/-- HashMeaning, InsertMeaning, NoHashNearTheEnd: the last position of "AAAAA" with three bytes, and the next. -/
theorem witness_HashMeaning :
    (2#32 : Word).toNat + 2 < (loaded fiveA 16).inLen.toNat ∧ (loaded fiveA 16).inLen.toNat ≤ (3#32 : Word).toNat + 2 := by
  decide
/-- InsertMeaning's other entries. -/
theorem witness_InsertMeaning :
    (0x4550#16 : HashVal) ≠ hashAt hashFn (loaded fiveA 16) 2 ∧ 3 % 65536 ≠ (2#32 : Word).toNat % 65536 := by decide
theorem witness_InsertKeepsIndex : 1 < 4294967295 ∧ IndexOf hashFn 1 fiveAt1 := ⟨by decide, fiveAt1_index⟩
/-- FindMeaning, FindClosedForm; the match and, with the cursor's index of an empty prefix, no match. -/
theorem witness_FindMeaning : (1#32 : Word).toNat + 2 < fiveAt1.inLen.toNat ∧ IndexOf hashFn (1#32 : Word).toNat fiveAt1 :=
  ⟨by decide, fiveAt1_index⟩

/-! #### Encoder -/

/-- One byte short of OUT, and exactly fitting (R168's example). -/
theorem witness_FlushMeaning :
    (let s := encoding abcd 4 4 [] 4 [] []
     1 ≤ s.lit.toNat ∧ s.lit.toNat ≤ s.i.toNat ∧ s.i.toNat ≤ s.inLen.toNat ∧ s.outCap.toNat < s.o.toNat + 1 + s.lit.toNat) ∧
    (let s := encoding abcd 8 8 [] 9 [] []
     1 ≤ s.lit.toNat ∧ s.lit.toNat ≤ s.i.toNat ∧ s.i.toNat ≤ s.inLen.toNat ∧ s.o.toNat + 1 + s.lit.toNat ≤ s.outCap.toNat) := by
  decide
theorem witness_FlushStopsOutsideContract :
    (encoding abcd 4 0 [] 16 [] []).lit = 0#7 ∧
    (let s := encoding abcd 3 4 [] 5 [] []
     s.lit ≠ 0#7 ∧ s.o.toNat + 1 + s.lit.toNat ≤ s.outCap.toNat ∧ s.i.toNat < s.lit.toNat) ∧
    (let s := encoding abcd 9 4 [] 5 [] []
     s.lit ≠ 0#7 ∧ s.o.toNat + 1 + s.lit.toNat ≤ s.outCap.toNat ∧ s.inLen.toNat < s.i.toNat) := by decide
theorem witness_EmitMatchMeaning :
    (let s := encoding abcd 4 0 [] 2 [] []; s.outCap.toNat < s.o.toNat + 3) ∧
      (let s := encoding abcd 4 0 [] 3 [] []; s.o.toNat + 3 ≤ s.outCap.toNat) := by decide
/-- EncStepCompletes, EncStepKeepsRunning: a match, and a run of 126 at the last byte of the input. -/
theorem witness_EncStepCompletes :
    (EncodeRunning hashFn fiveAt1 ∧ fiveAt1.i.toNat < fiveAt1.inLen.toNat ∧
      fiveAt1.o.toNat + fiveAt1.lit.toNat + 4 ≤ fiveAt1.outCap.toNat ∧ fiveAt1.i.toNat + 2 < fiveAt1.inLen.toNat) ∧
    (let s := runFull 252
     EncodeRunning hashFn s ∧ s.i.toNat < s.inLen.toNat ∧ s.o.toNat + s.lit.toNat + 4 ≤ s.outCap.toNat ∧
       s.inLen.toNat ≤ s.i.toNat + 2 ∧ s.lit.toNat = 126) :=
  ⟨⟨fiveAt1_running, by decide⟩, ⟨runFull_running, by decide⟩⟩
/-- No match at the first byte of "AAAAA", and at its last but one (where FIND is not called). -/
theorem witness_EncStepGrowsRun :
    (let s := encoding fiveA 0 0 [] 16 [] []
     s.i.toNat < s.inLen.toNat ∧ (∃ f, searchCursor hashFn s = .ok f ∧ f.off = 0) ∧ s.lit.toNat < 126 ∧
       s.i.toNat + 2 < s.inLen.toNat) ∧
    (let s := encoding fiveA 3 3 [] 16 [] []
     s.i.toNat < s.inLen.toNat ∧ (∃ f, searchCursor hashFn s = .ok f ∧ f.off = 0) ∧ s.lit.toNat < 126 ∧
       s.inLen.toNat ≤ s.i.toNat + 2) :=
  ⟨⟨by decide, ⟨_, rfl, by decide⟩, by decide⟩, ⟨by decide, ⟨_, rfl, by decide⟩, by decide⟩⟩
theorem witness_EncStepFlushesFullRun (cap : Nat) :
    let s := runFull cap
    (s.i.toNat < s.inLen.toNat ∧ (∃ f, searchCursor hashFn s = .ok f ∧ f.off = 0) ∧ s.lit.toNat = 126 ∧
      126 ≤ s.i.toNat) ∧
    (runFull 128).o.toNat + 128 ≤ (runFull 128).outCap.toNat ∧
    (runFull 127).outCap.toNat < (runFull 127).o.toNat + 128 :=
  ⟨⟨show (126#32).toNat < (127#32).toNat by decide, ⟨_, rfl, rfl⟩, rfl, show 126 ≤ (126#32).toNat by decide⟩, by decide,
    by decide⟩
/-- "AAAAA" at 1: the run of one byte and the match, exactly fitting; with no run pending, likewise. -/
theorem witness_EncStepTakesMatch :
    (let s := encoding fiveA 1 1 [] 5 [(0x4551, 1#32)] []
     s.i.toNat < s.inLen.toNat ∧ s.lit.toNat ≤ s.i.toNat ∧ (∃ f, searchCursor hashFn s = .ok f ∧ f.off ≠ 0) ∧
       s.o.toNat + (if s.lit = 0#7 then 0 else 1 + s.lit.toNat) + 3 ≤ s.outCap.toNat) ∧
    (let s := encoding fiveA 1 0 [] 3 [(0x4551, 1#32)] []
     s.i.toNat < s.inLen.toNat ∧ s.lit.toNat ≤ s.i.toNat ∧ (∃ f, searchCursor hashFn s = .ok f ∧ f.off ≠ 0) ∧
       s.o.toNat + (if s.lit = 0#7 then 0 else 1 + s.lit.toNat) + 3 ≤ s.outCap.toNat) :=
  ⟨⟨by decide, by decide, ⟨_, rfl, by decide⟩, by decide⟩, ⟨by decide, by decide, ⟨_, rfl, by decide⟩, by decide⟩⟩
theorem witness_EncStepRaisesBufferTooSmall :
    (let s := encoding fiveA 1 1 [] 1 [(0x4551, 1#32)] []
     s.i.toNat < s.inLen.toNat ∧ s.lit.toNat ≤ s.i.toNat ∧ (∃ f, searchCursor hashFn s = .ok f ∧ f.off ≠ 0) ∧
       s.lit ≠ 0#7 ∧ s.outCap.toNat < s.o.toNat + 1 + s.lit.toNat) ∧
    (let s := encoding fiveA 1 0 [] 2 [(0x4551, 1#32)] []
     s.i.toNat < s.inLen.toNat ∧ s.lit.toNat ≤ s.i.toNat ∧ (∃ f, searchCursor hashFn s = .ok f ∧ f.off ≠ 0) ∧
       s.lit = 0#7 ∧ s.outCap.toNat < s.o.toNat + 3) ∧
    (let s := encoding fiveA 1 1 [] 4 [(0x4551, 1#32)] []
     s.i.toNat < s.inLen.toNat ∧ s.lit.toNat ≤ s.i.toNat ∧ (∃ f, searchCursor hashFn s = .ok f ∧ f.off ≠ 0) ∧
       s.lit ≠ 0#7 ∧ s.o.toNat + 1 + s.lit.toNat ≤ s.outCap.toNat ∧ s.outCap.toNat < s.o.toNat + 1 + s.lit.toNat + 3) :=
  ⟨⟨by decide, by decide, ⟨_, rfl, by decide⟩, by decide⟩, ⟨by decide, by decide, ⟨_, rfl, by decide⟩, by decide⟩,
    ⟨by decide, by decide, ⟨_, rfl, by decide⟩, by decide⟩⟩

/-! #### Steps -/

/-- A host slot that leaves the step to the engine, and the end of the host's list. -/
theorem witness_engineTurn :
    engineTurn fiveAt1 fiveAt1 ∧ engineTurn { fiveAt1 with host := [none] } fiveAt1 := ⟨.inl ⟨rfl, rfl⟩, .inr ⟨[], rfl, rfl⟩⟩
/-- A whole token, and a token of either kind that is not all there. -/
theorem witness_StepRunsDecodedToken :
    (let s := decoding p1 4 [0x61#8, 0x62#8, 0x63#8] 9
     engineTurn s s ∧ s.status = statusBusy ∧ s.cmd = opDecode ∧ s.t.toNat < s.inLen.toNat ∧
       ∃ rest, decodeToken (tokenWindow s) = .ok (.matchTok 6#7 3#16) rest) ∧
    (let s := probing [0x05#8, 0x41#8] 0 0
     engineTurn s s ∧ s.status = statusBusy ∧ s.cmd = opProbe ∧ s.t.toNat < s.inLen.toNat ∧
       decodeToken (tokenWindow s) = .reject (.truncatedLiteral 5#7)) ∧
    (let s := decoding [0x84#8] 0 [] 9
     engineTurn s s ∧ s.status = statusBusy ∧ s.cmd = opDecode ∧ s.t.toNat < s.inLen.toNat ∧
       decodeToken (tokenWindow s) = .reject (.truncatedMatch 4#7)) :=
  ⟨⟨.inl ⟨rfl, rfl⟩, rfl, rfl, by decide, ⟨[], by decide⟩⟩, ⟨.inl ⟨rfl, rfl⟩, rfl, rfl, by decide⟩,
    ⟨.inl ⟨rfl, rfl⟩, rfl, rfl, by decide⟩⟩
/-- StepRunsEncoder, StepEndsCommand: input left; the final flush; the end, and the end of either token walk. -/
theorem witness_StepRunsEncoder :
    (fiveAt1.status = statusBusy ∧ fiveAt1.cmd = opEncode ∧ fiveAt1.i.toNat < fiveAt1.inLen.toNat) ∧
    (let s := encoding abcd 8 1 [] 16 [] []; s.status = statusBusy ∧ s.inLen.toNat ≤ s.i.toNat ∧ s.lit ≠ 0#7) ∧
    (let s := encoding abcd 8 0 [] 16 [] []; s.status = statusBusy ∧ s.inLen.toNat ≤ s.i.toNat ∧ s.lit = 0#7) ∧
    (let s := decoding p1 7 [] 9; s.status = statusBusy ∧ s.cmd = opDecode ∧ s.inLen.toNat ≤ s.t.toNat) ∧
    (let s := probing p1 7 0; s.status = statusBusy ∧ s.cmd = opProbe ∧ s.inLen.toNat ≤ s.t.toNat) := by decide
theorem witness_StepIdlesWithoutCommand : engineTurn State.reset State.reset ∧ State.reset.status ≠ statusBusy :=
  ⟨.inl ⟨rfl, rfl⟩, by decide⟩
theorem witness_StepTakesHostMove :
    ({ State.reset with host := [some (.writeReg .cmd 2#32)] } : State).host = some (.writeReg .cmd 2#32) :: [] := rfl
theorem witness_FetchWordRunsNext :
    decodeTableWord 24 0x860003 = some (.matchTok 6#7 3#16) ∧ 24 ≤ 1024 ∧ State.reset.t.toNat + 128 ≤ 4294967295 := by
  decide +kernel

/-! #### Whole-machine rules -/

/-- StatusTransitions: no change, a start, an end, a fault, power-on reset while BUSY. -/
theorem witness_StatusTransitions :
    (legalStatus State.reset.status ∧ ∃ s', step State.reset = .next s' ∧ s'.status = State.reset.status) ∧
    (∃ s', step { loaded p1 9 with host := [some (.writeReg .cmd 2#32)] } = .next s' ∧ s'.status = statusBusy) ∧
    (∃ s', step (decoding p1 7 [] 9) = .next s' ∧ s'.status = statusDone) ∧
    (∃ s', step (decoding [0x00#8] 0 [] 9) = .next s' ∧ s'.status = statusFault) ∧
    (∃ s', step { fiveAt1 with host := [some .powerOn] } = .next s' ∧ s'.status = statusIdle) :=
  ⟨⟨by decide, _, rfl, rfl⟩, ⟨_, rfl, rfl⟩, ⟨_, rfl, rfl⟩, ⟨_, rfl, rfl⟩, ⟨_, rfl, rfl⟩⟩
/-- EngineLeavesOperands, CommandsKeepToTheirState, OutputWritesInBounds, SequencingIsForward: a step of each
command. -/
theorem witness_engineStep :
    (∃ s', engineStep fiveAt1 = .next s') ∧ fiveAt1.cmd = opEncode ∧ fiveAt1.i.toNat ≤ fiveAt1.inLen.toNat ∧
    (let s := decoding p1 0 [] 9; (∃ s', engineStep s = .next s') ∧ s.cmd ≠ opEncode ∧ s.t.toNat ≤ s.inLen.toNat) ∧
    (let s := probing p1 0 0; (∃ s', engineStep s = .next s') ∧ s.cmd ≠ opEncode ∧ s.cmd ≠ opDecode) :=
  ⟨⟨_, rfl⟩, rfl, by decide, ⟨⟨_, rfl⟩, by decide, by decide⟩, ⟨⟨_, rfl⟩, by decide, by decide⟩⟩
theorem witness_TokenFaultsArePrecise :
    let s := decoding [0x01#8, 0x41#8, 0x84#8, 0x00#8, 0x02#8] 2 [0x41#8] 9
    s.status = statusBusy ∧ s.cmd ≠ opEncode ∧ ∃ s', engineStep s = .next s' ∧ s'.status = statusFault :=
  ⟨rfl, by decide, _, rfl, rfl⟩
theorem witness_StepKeepsInvariant : Inv fiveAt1 ∧ ∃ s', step fiveAt1 = .next s' := ⟨fiveAt1_inv, _, rfl⟩
/-- StepNeverStops, both outcomes: the engine's turn, and a host write of IN while BUSY. -/
theorem witness_StepNeverStops :
    Inv fiveAt1 ∧ Inv { fiveAt1 with host := [some (.writeIn 0#32 0#8)] } := ⟨fiveAt1_inv, fiveAt1_host_inv _⟩

/-! #### Whole commands -/

theorem witness_TokenWalkTerminates :
    let s := decoding p1 7 [] 9
    s.host = [] ∧ s.status = statusBusy ∧ s.cmd = opDecode ∧ s.t.toNat ≤ s.inLen.toNat := by decide
theorem witness_EncodeTerminates :
    Inv fiveAt1 ∧ fiveAt1.host = [] ∧ fiveAt1.status = statusBusy ∧ fiveAt1.cmd = opEncode :=
  ⟨fiveAt1_inv, rfl, rfl, rfl⟩
/-- CoarseAndFineGrainAgree, EncodeFitsTwiceTheInput, EncodeEmitsClosedForm, RoundTrip's first command: "ABCDABCD" with
16 bytes of OUT. -/
theorem witness_EncodeEmitsClosedForm :
    let s := loaded abcd 16
    quiet s ∧ inputIs s abcd ∧ 2 * s.inLen.toNat ≤ s.outCap.toNat := by decide
/-- DecodeExpandsStream: S5 with exactly its 11 bytes of OUT, and less. -/
theorem witness_DecodeExpandsStream :
    let toks := [Instr.lit [0x41#8], .matchTok 10#7 1#16]
    quiet (loaded (encodeStream toks) 11) ∧ (∀ tok ∈ toks, tok.wf = true) ∧
      expand toks [] = some (List.replicate 11 0x41#8) ∧ inputIs (loaded (encodeStream toks) 11) (encodeStream toks) ∧
      (List.replicate 11 0x41#8).length ≤ (loaded (encodeStream toks) 11).outCap.toNat := by decide
/-- ProbeAndDecodeAgree: a stream that ends in DONE with 11, with the capacity for it and one less; and one that faults
after its first byte (V71). -/
theorem witness_ProbeAndDecodeAgree :
    (∃ p, settle (wholeWalk opProbe (loaded [0x01#8, 0x41#8, 0x8A#8, 0x00#8, 0x01#8] 0)) = .next p ∧
      p.status = statusDone ∧ p.outLen.toNat ≤ (11#32).toNat ∧ (10#32).toNat < p.outLen.toNat) ∧
    (∃ p, settle (wholeWalk opProbe (loaded [0x01#8, 0x41#8, 0x84#8, 0x00#8, 0x02#8] 0)) = .next p ∧
      p.status = statusFault ∧ p.outLen.toNat ≤ (1#32).toNat) :=
  ⟨⟨_, rfl, by decide⟩, ⟨_, rfl, by decide⟩⟩
/-- RoundTrip's second command: S4's stream with exactly 8 bytes of OUT. -/
theorem witness_RoundTrip :
    let d := loaded [0x04#8, 0x41#8, 0x42#8, 0x43#8, 0x44#8, 0x84#8, 0x00#8, 0x04#8] 8
    quiet d ∧ inSlice d 0 d.inLen.toNat = [0x04#8, 0x41#8, 0x42#8, 0x43#8, 0x44#8, 0x84#8, 0x00#8, 0x04#8] ∧
      abcd.length ≤ d.outCap.toNat := by decide

end Sys2Proof.Tests
end

section
/-! ## The index of the input before the cursor (R129)

Every INSERT at the cursor, and so every index update of an ENCSTEP, keeps HEAD and CHAIN the index of the input. -/

namespace Sys2Proof.Machine

/-- Being the index depends on IN, `IN_LEN` and the two tables only. -/
theorem IndexOf.congr {hf : Config.HashFn} {i : Nat} {s s' : State} (h : IndexOf hf i s) (hi : s'.inp = s.inp)
    (hn : s'.inLen = s.inLen) (hh : s'.head = s.head) (hc : s'.chain = s.chain) : IndexOf hf i s' where
  heads q := by rw [hasHash_congr hi hn, ← h.heads q, headAt, headAt, hh]
  chains p hp hs hd := by
    rw [hasHash_congr hi hn, hashAt_congr hi, ← h.chains p hp (by rwa [hashable, ← hn]) hd, chainAt, chainAt, hc]

theorem hasHash_iff {hf : Config.HashFn} {s : State} {h : HashVal} {q : Nat} :
    hasHash hf s h q = true ↔ hashable s q ∧ hashAt hf s q = h := by
  simp [hasHash]

theorem newest_succ (has : Nat → Bool) (m : Nat) :
    newest has (m + 1) = if has m then m + 1 else newest has m := rfl

/-- Where the cursor's position cannot be inserted, the index is already the one before the next cursor (R121). -/
theorem IndexOf.after_skip {hf : Config.HashFn} {i : Nat} {s : State} (h : IndexOf hf i s) (hs : ¬ hashable s i) :
    IndexOf hf (i + 1) s where
  heads q := by
    rw [newest_succ, if_neg fun e => hs (hasHash_iff.mp e).1]
    exact h.heads q
  chains p hp hsp hd := by
    have hne : p ≠ i := fun e => hs (e ▸ hsp)
    exact h.chains p (by omega) hsp (by omega)

@[simp] theorem hashAt_insertAt (hf g : Config.HashFn) (p q : Nat) (s : State) :
    hashAt hf (insertAt g p s) q = hashAt hf s q := rfl

@[simp] theorem hasHash_insertAt (hf g : Config.HashFn) (p : Nat) (s : State) :
    hasHash hf (insertAt g p s) = hasHash hf s := rfl

/-- INSERT at the cursor gives the index before the next cursor: its own slot of CHAIN belonged to a position more than
65536 back. -/
theorem IndexOf.after_insertAt {hf : Config.HashFn} {i : Nat} {s : State} (h : IndexOf hf i s) (hs : hashable s i)
    (hi : i < 4294967295) : IndexOf hf (i + 1) (insertAt hf i s) where
  heads q := by
    rw [hasHash_insertAt, newest_succ]
    by_cases hq : q = hashAt hf s i
    · subst hq
      rw [insertAt_headAt_same, if_pos (hasHash_iff.mpr ⟨hs, rfl⟩), word_toNat (by omega)]
    · rw [insertAt_headAt_other hq, if_neg fun e => hq (hasHash_iff.mp e).2.symm, h.heads]
  chains p hp hsp hd := by
    rw [hasHash_insertAt, hashAt_insertAt]
    by_cases hpi : p = i
    · subst hpi
      rw [insertAt_chainAt_same, h.heads]
    · have hslot : chainSlot p ≠ chainSlot i := by
        simp only [chainSlot, Config.tableSize] at hd ⊢
        omega
      rw [insertAt_chainAt_other hslot]
      exact h.chains p (by omega) hsp (by omega)

/-- The index update of an ENCSTEP (R164) moves the index on by the positions it passes. -/
theorem IndexOf.after_insertRange {hf : Config.HashFn} (count : Nat) {i : Nat} {s : State} (h : IndexOf hf i s)
    (hi : i + count ≤ s.inLen.toNat) : IndexOf hf (i + count) (insertRange hf count i s) := by
  induction count generalizing i s with
  | zero => exact h
  | succ n ih =>
    have hn := s.inLen.isLt
    rw [insertRange, show i + (n + 1) = i + 1 + n by omega]
    split
    · exact ih (h.after_insertAt ‹_› (by omega)) (by rw [insertAt_inLen]; omega)
    · exact ih (h.after_skip ‹_›) (by omega)

/-- The empty tables are the index of the empty prefix (R281). -/
theorem indexOf_startEncode (hf : Config.HashFn) (s : State) : IndexOf hf 0 (startEncode s) where
  heads _ := rfl
  chains _ hp _ _ := absurd hp (Nat.not_lt_zero _)

end Sys2Proof.Machine

/-! ## FIND in closed form (R148)

The walk carries the best match among the positions it has passed. What it returns is the pair of the closed form, in
which no hash function occurs. -/

namespace Sys2Proof.Machine

theorem MatchLen.congr {s s' : State} {i p k : Nat} (h : MatchLen s i p k) (hi : s'.inp = s.inp)
    (hn : s'.inLen = s.inLen) : MatchLen s' i p k where
  inside := by rw [hn]; exact h.inside
  agree j hj := by rw [inByte_congr hi, inByte_congr hi]; exact h.agree j hj
  ends hk := by rw [inByte_congr hi, inByte_congr hi]; exact h.ends (by rwa [← hn])

/-- The closed form depends on IN and `IN_LEN` only. -/
theorem FindResult.congr {s s' : State} {i off len : Nat} (h : FindResult s i off len) (hi : s'.inp = s.inp)
    (hn : s'.inLen = s.inLen) : FindResult s' i off len := by
  cases h with
  | noMatch hno => exact .noMatch fun p k hw hk => hno p k hw (hk.congr hi.symm hn.symm)
  | isMatch p m hw hm h4 hbest =>
    exact .isMatch p m hw (hm.congr hi hn) h4 fun q k hq hk => hbest q k hq (hk.congr hi.symm hn.symm)

/-- The closed form names one pair. -/
theorem FindResult.unique {s : State} {i off len off' len' : Nat} (h : FindResult s i off len)
    (h' : FindResult s i off' len') : off = off' ∧ len = len' := by
  cases h with
  | noMatch hno =>
    cases h' with
    | noMatch => exact ⟨rfl, rfl⟩
    | isMatch p m hw hm h4 _ => exact absurd (hno p m hw hm) (by omega)
  | isMatch p m hw hm h4 hbest =>
    cases h' with
    | noMatch hno => exact absurd (hno p m hw hm) (by omega)
    | isMatch p' m' hw' hm' _ hbest' =>
      have := hbest p' m' hw' hm'
      have := hbest' p m hw hm
      obtain ⟨rfl, rfl⟩ : m = m' ∧ p = p' := by omega
      exact ⟨rfl, rfl⟩

/-- A match of 3 bytes and more has the cursor's hash, whatever the hash function. -/
theorem MatchLen.hashAt_eq {s : State} {i p k : Nat} (h : MatchLen s i p k) (hk : 3 ≤ k) (hf : Config.HashFn) :
    hashAt hf s p = hashAt hf s i := by
  have h0 := h.agree 0 (by omega)
  have h1 := h.agree 1 (by omega)
  have h2 := h.agree 2 (by omega)
  simp only [Nat.add_zero] at h0
  rw [hashAt, hashAt, h0, h1, h2]

/-- The pair `(off, len)` is the best match among the positions from `m` up to the cursor, as far as FIND answers it:
a match length below 4 need not be the greatest. -/
structure Incumbent (s : State) (i m off len : Nat) : Prop where
  found : (off = 0 ∧ len = 1) ∨ ∃ p, inWindow i p ∧ off = i - p ∧ MatchLen s i p len
  passed : m ≤ i - off
  best : ∀ q k, m ≤ q → inWindow i q → MatchLen s i q k → Config.minMatch ≤ k → k < len ∨ (k = len ∧ q ≤ i - off)

theorem Incumbent.start (s : State) (i : Nat) : Incumbent s i i 0 1 where
  found := .inl ⟨rfl, rfl⟩
  passed := Nat.le_refl _
  best q _ hq hw := absurd hw.1 (by omega)

/-- Positions that can neither beat nor equal the incumbent may be passed. -/
theorem Incumbent.pass {s : State} {i m m' off len : Nat} (h : Incumbent s i m off len) (hm : m' ≤ m)
    (hskip : ∀ q k, m' ≤ q → q < m → inWindow i q → MatchLen s i q k → Config.minMatch ≤ k → k ≤ len) :
    Incumbent s i m' off len where
  found := h.found
  passed := Nat.le_trans hm h.passed
  best q k hq hw hk h4 := by
    have hpassed := h.passed
    by_cases hqm : m ≤ q
    · exact h.best q k hqm hw hk h4
    · have := hskip q k hq (by omega) hw hk h4
      omega

/-- What one candidate does (R143 to R145): a strictly longer match takes over, or the candidate's match is no longer
than the incumbent's. -/
theorem tryCandidate_cases {s : State} {i : Nat} (r : Search) (hi : i ≤ s.inLen.toNat) :
    (∃ k, r.bestLen < k ∧ MatchLen s i r.p k ∧ (tryCandidate s i r).bestLen = k ∧
      (tryCandidate s i r).bestOff = i - r.p) ∨
    ((∀ k, MatchLen s i r.p k → k ≤ r.bestLen) ∧ (tryCandidate s i r).bestLen = r.bestLen ∧
      (tryCandidate s i r).bestOff = r.bestOff) := by
  have hext := extend_matchLen s (p := r.p) hi
  unfold tryCandidate keepBest
  split
  · simp only
    split
    · exact .inl ⟨_, ‹_›, hext, rfl, rfl⟩
    · exact .inr ⟨fun k hk => by rw [matchLen_unique hk hext]; omega, rfl, rfl⟩
  · rename_i hreject
    exact .inr ⟨fun k hk => Nat.le_of_not_lt fun hlt => hreject (hk.agree _ hlt), rfl, rfl⟩

/-- Trying the next candidate down keeps the incumbent the best. -/
theorem Incumbent.after_tryCandidate {s : State} {i : Nat} {r : Search} (hi : i ≤ s.inLen.toNat) (hw : inWindow i r.p)
    (h : Incumbent s i (r.p + 1) r.bestOff r.bestLen) :
    Incumbent s i r.p (tryCandidate s i r).bestOff (tryCandidate s i r).bestLen := by
  rcases tryCandidate_cases r hi with ⟨k, hlt, hk, elen, eoff⟩ | ⟨hle, elen, eoff⟩ <;> rw [elen, eoff]
  · refine ⟨.inr ⟨r.p, hw, rfl, hk⟩, by have := hw.1; omega, fun q k' hq hwq hk' h4 => ?_⟩
    by_cases hqp : q = r.p
    · subst hqp
      have := matchLen_unique hk hk'
      have := hw.1
      omega
    · have := h.best q k' (by omega) hwq hk' h4
      omega
  · refine h.pass (Nat.le_succ _) fun q k hq hqm _ hk _ => hle k ?_
    rwa [show r.p = q by omega]

/-- Positions between two links of the cursor's chain have another hash, so they match for fewer than 3 bytes. -/
theorem Incumbent.skipToLink {hf : Config.HashFn} {s : State} {i m off len : Nat} (hi : hashable s i)
    (h : Incumbent s i m off len) : Incumbent s i (newest (hasHash hf s (hashAt hf s i)) m) off len := by
  refine h.pass (newest_le _ m) fun q k hq hqm hw hk h4 => ?_
  have hno := newest_after hqm hq
  have hyes : hasHash hf s (hashAt hf s i) q = true :=
    hasHash_iff.mpr ⟨by have := hw.1; omega, hk.hashAt_eq (by simp at h4; omega) hf⟩
  simp [hyes] at hno

/-- A chain value the walk meets: the sentinel, or one plus a position before the cursor that has its hash. -/
def OnChain (hf : Config.HashFn) (s : State) (i c : Nat) : Prop :=
  c ≠ 0 → c ≤ i ∧ hasHash hf s (hashAt hf s i) (c - 1) = true

theorem onChain_newest (hf : Config.HashFn) (s : State) {i m : Nat} (hm : m ≤ i) :
    OnChain hf s i (newest (hasHash hf s (hashAt hf s i)) m) := fun h0 =>
  ⟨Nat.le_trans (newest_le _ m) hm, newest_has h0⟩

theorem OnChain.le {hf : Config.HashFn} {s : State} {i c : Nat} (h : OnChain hf s i c) : c ≤ i := by
  by_cases h0 : c = 0
  · omega
  · exact (h h0).1

/-- CHAIN leads from a chain value inside the window to the one before it (R125, R129). -/
theorem OnChain.next {hf : Config.HashFn} {s : State} {i c : Nat} (h : OnChain hf s i c) (hidx : IndexOf hf i s)
    (h0 : c ≠ 0) (hwin : i - (c - 1) ≤ Config.window) :
    (chainAt s (c - 1)).toNat = newest (hasHash hf s (hashAt hf s i)) (c - 1) := by
  obtain ⟨hle, hhas⟩ := h h0
  obtain ⟨hs, hhash⟩ := hasHash_iff.mp hhas
  have hreach : i - (c - 1) ≤ Config.tableSize := Nat.le_trans hwin (by decide)
  rw [hidx.chains _ (by omega) hs hreach, hhash]

/-- The sentinel and a candidate outside the window end the walk with nothing missed (R142). -/
theorem Incumbent.windowEnd {s : State} {i c off len : Nat} (h : Incumbent s i c off len)
    (hend : c = 0 ∨ Config.window < i - (c - 1)) : Incumbent s i 0 off len :=
  h.pass (Nat.zero_le c) fun q _ _ hq hw => absurd hw.2 (by omega)

/-- An incumbent that reaches the input's end cannot be beaten (R147). -/
theorem Incumbent.inputEnd {s : State} {i c off len : Nat} (h : Incumbent s i c off len)
    (hend : s.inLen.toNat ≤ i + len) : Incumbent s i 0 off len :=
  h.pass (Nat.zero_le c) fun _ _ _ _ _ hk _ => by have := hk.inside; omega

/-- The walk over the index ends with the best match of the window (R142, R147, R149). -/
theorem walk_finds {hf : Config.HashFn} {s : State} {i fuel : Nat} {r : Search} (hidx : IndexOf hf i s)
    (hi : hashable s i) (hc : OnChain hf s i r.c) (hfuel : r.c ≤ fuel + (i - min i Config.window))
    (hinc : Incumbent s i r.c r.bestOff r.bestLen) :
    ∃ r', walk s i fuel r = some r' ∧ Incumbent s i 0 r'.bestOff r'.bestLen := by
  induction fuel generalizing r with
  | zero =>
    have hend : r.c = 0 ∨ Config.window < i - (r.c - 1) := by omega
    refine ⟨r, ?_, hinc.windowEnd hend⟩
    have hci := hc.le
    unfold walk
    by_cases h0 : r.c = 0
    · rw [if_pos h0]
    · rw [if_neg h0, if_neg (by omega), if_pos (hend.resolve_left h0)]
  | succ n ih =>
    have hci := hc.le
    unfold walk
    by_cases h0 : r.c = 0
    · exact ⟨r, if_pos h0, hinc.windowEnd (.inl h0)⟩
    rw [if_neg h0, if_neg (by omega)]
    by_cases hwin : Config.window < i - (r.c - 1)
    · exact ⟨r, if_pos hwin, hinc.windowEnd (.inr hwin)⟩
    rw [if_neg hwin]
    by_cases hend : s.inLen.toNat ≤ i + r.bestLen
    · exact ⟨_, if_pos hend, hinc.inputEnd hend⟩
    have hnext := hc.next hidx h0 (by omega)
    have hcand : Incumbent s i (r.c - 1 + 1) r.bestOff r.bestLen := by rwa [Nat.sub_add_cancel (by omega)]
    have htried := Incumbent.after_tryCandidate (r := { r with p := r.c - 1 }) (by omega)
      ⟨show r.c - 1 < i by omega, Nat.le_of_not_lt hwin⟩ hcand
    simp only [if_neg hend, tryCandidate_p]
    apply ih <;> simp only [hnext]
    · exact onChain_newest hf s (by omega)
    · have := newest_le (hasHash hf s (hashAt hf s i)) (r.c - 1)
      omega
    · exact htried.skipToLink hi

/-- The pair left after the length test and the clamp (R146) is the closed form. -/
theorem Incumbent.findResult {s : State} {i : Nat} {r : Search} (h : Incumbent s i 0 r.bestOff r.bestLen) :
    FindResult s i (clampBest r).bestOff (clampBest r).bestLen := by
  unfold clampBest
  by_cases h4 : r.bestLen < Config.minMatch
  · rw [if_pos h4]
    refine .noMatch fun p k hw hk => ?_
    by_contra hge
    have := h.best p k (Nat.zero_le p) hw hk (by omega)
    omega
  · rw [if_neg h4]
    rcases h.found with ⟨_, h1⟩ | ⟨p, hw, hoff, hm⟩
    · exact absurd (h1 ▸ (by decide : 1 < Config.minMatch)) h4
    · have hres := FindResult.isMatch p r.bestLen hw hm (by omega) fun q k hq hk => by
        by_cases hk4 : Config.minMatch ≤ k
        · have := h.best q k (Nat.zero_le q) hq hk hk4
          have := hw.1
          omega
        · omega
      split
      · rwa [Nat.min_eq_right (by omega), ← hoff] at hres
      · rwa [Nat.min_eq_left (by omega), ← hoff] at hres

/-- The pair fits its registers, so FIND's answer is read back from them. -/
theorem FindResult.fits {s : State} {i off len : Nat} (h : FindResult s i off len) : off < 65536 ∧ len < 128 := by
  cases h with
  | noMatch => decide
  | isMatch p m hw =>
    have := hw.2
    simp only [Config.window, Config.maxLen] at this ⊢
    omega

/-- FIND over the index of the input before its cursor completes with the closed form (R140, R148). -/
theorem findAt_finds {hf : Config.HashFn} {s : State} {i : Nat} (hidx : IndexOf hf i s) (hi : hashable s i) :
    ∃ s', findAt hf i s = .ok s' ∧ FindResult s i s'.bestOff.toNat s'.bestLen.toNat := by
  have hseed : (seed s (hashAt hf s i)).c = newest (hasHash hf s (hashAt hf s i)) i := hidx.heads _
  obtain ⟨r, hwalk, hbest⟩ := walk_finds (fuel := min i Config.window) (r := seed s (hashAt hf s i)) hidx hi
    (hseed ▸ onChain_newest hf s (Nat.le_refl i)) (by have := newest_le (hasHash hf s (hashAt hf s i)) i; omega)
    (hseed ▸ (Incumbent.start s i).skipToLink hi)
  refine ⟨storeSearch (hashAt hf s i) (clampBest r) s, ?_, ?_⟩
  · rw [findAt, if_pos hi]
    simp only [hwalk]
  · have hres := hbest.findResult
    obtain ⟨hoff, hlen⟩ := hres.fits
    rwa [storeSearch_bestOff, storeSearch_bestLen, offField_toNat hoff, word_toNat (by omega)]

end Sys2Proof.Machine

/-! ## ENCSTEP between the steps of an ENCODE

From a running state an ENCSTEP acts on the closed form's pair, stops nowhere, and leads to a running state or to the
engine's own fault. -/

namespace Sys2Proof.Machine

/-! ### Pieces that do not stop -/

/-- The model does not stop: the piece goes on, or the engine takes a fault of its own. -/
def Answers {α : Type} (x : Exec α) : Prop := ∀ f, x ≠ .error (.stuck f)

theorem answers_ok {α : Type} (a : α) : Answers (.ok a : Exec α) := fun _ h => nomatch h

theorem answers_raised {α : Type} (s : State) : Answers (.error (.raised s) : Exec α) := fun _ h => nomatch h

theorem Answers.bind {α β : Type} {x : Exec α} {g : α → Exec β} (hx : Answers x)
    (hg : ∀ a, x = .ok a → Answers (g a)) : Answers (x >>= g) := fun f h => by
  rcases bind_eq_error.mp h with h | ⟨a, ha, h⟩
  · exact hx f h
  · exact hg a ha f h

theorem Answers.map {α β : Type} {x : Exec α} (hx : Answers x) (g : α → β) : Answers (x.map g) := by
  rcases x with e | a
  · exact fun f h => hx f (by simpa using h)
  · exact answers_ok _

theorem Answers.settles {x : Exec State} (hx : Answers x) : ∃ s', settle x = .next s' := by
  rcases x with (s | f) | s
  · exact ⟨s, rfl⟩
  · exact absurd rfl (hx f)
  · exact ⟨s, rfl⟩

theorem flushRun_answers {s : State} (h0 : s.lit ≠ 0#7) (hl : s.lit.toNat ≤ s.i.toNat)
    (hi : s.i.toNat ≤ s.inLen.toNat) : Answers (flushRun s) := by
  rcases flushRun_cases s with ⟨h, _⟩ | ⟨_, _, e⟩ | ⟨_, _, h, _⟩ | ⟨_, _, _, _, e⟩
  · exact absurd h h0
  · rw [e]; exact answers_raised _
  · omega
  · rw [e]; exact answers_ok _

theorem flushPending_answers {s : State} (hl : s.lit.toNat ≤ s.i.toNat) (hi : s.i.toNat ≤ s.inLen.toNat) :
    Answers (flushPending s) := by
  unfold flushPending
  split
  · exact answers_ok _
  · exact flushRun_answers ‹_› hl hi

theorem emitToken_answers (len : LenField) (off : OffField) (s : State) : Answers (emitToken len off s) := by
  unfold emitToken
  split
  · exact answers_ok _
  · exact answers_raised _

theorem actOn_answers {f : Found} (hs : f.st.lit.toNat < Config.maxLen) (hl : f.st.lit.toNat ≤ f.st.i.toNat)
    (hi : f.st.i.toNat ≤ f.st.inLen.toNat) : Answers (actOn f) := by
  unfold actOn
  split
  · rw [growRun, if_pos hs]; exact answers_ok _
  · exact (flushPending_answers hl hi).bind fun s1 _ => emitToken_answers _ _ s1

/-! ### The pair at the cursor -/

/-- The pair R161 gives at the cursor: the closed form of FIND, or `(0, 1)` within 2 bytes of the input's end. -/
structure CursorPair (s : State) (off len : Nat) : Prop where
  search : hashable s s.i.toNat → FindResult s s.i.toNat off len
  near : ¬ hashable s s.i.toNat → off = 0 ∧ len = 1

theorem CursorPair.unique {s : State} {off len off' len' : Nat} (h : CursorPair s off len)
    (h' : CursorPair s off' len') : off = off' ∧ len = len' := by
  by_cases hh : hashable s s.i.toNat
  · exact (h.search hh).unique (h'.search hh)
  · obtain ⟨rfl, rfl⟩ := h.near hh
    obtain ⟨rfl, rfl⟩ := h'.near hh
    exact ⟨rfl, rfl⟩

theorem CursorPair.congr {s s' : State} {off len : Nat} (h : CursorPair s off len) (hc : s'.i = s.i)
    (hi : s'.inp = s.inp) (hn : s'.inLen = s.inLen) : CursorPair s' off len where
  search hh := by rw [hashable, hc, hn] at hh; rw [hc]; exact (h.search hh).congr hi hn
  near hh := by rw [hashable, hc, hn] at hh; exact h.near hh

theorem searchCursor_finds {hf : Config.HashFn} {s : State} (hidx : IndexOf hf s.i.toNat s) :
    ∃ f, searchCursor hf s = .ok f ∧ CursorPair s f.off f.len := by
  by_cases hh : hashable s s.i.toNat
  · obtain ⟨s', hs', hres⟩ := findAt_finds hidx hh
    exact ⟨⟨s', s'.bestOff.toNat, s'.bestLen.toNat⟩, by rw [searchCursor, if_pos hh, hs']; rfl,
      fun _ => hres, fun hn => absurd hh hn⟩
  · exact ⟨⟨s, 0, 1⟩, by rw [searchCursor, if_neg hh], fun h => absurd h hh, fun _ => ⟨rfl, rfl⟩⟩

/-! ### The invariant of a running ENCODE -/

/-- The start of an ENCODE is the first state between its steps (R281). -/
theorem encodeRunning_start (hf : Config.HashFn) (s : State) : EncodeRunning hf (startEncode s) where
  cursor := Nat.zero_le _
  runShort := show (0#7 : LenField).toNat < Config.maxLen by decide
  runBehind := Nat.zero_le _
  outFits := Nat.zero_le _
  outBound := Nat.zero_le _
  index := indexOf_startEncode hf s

/-- What holds in the middle of an ENCSTEP, after the cursor's advance and before the length limit: as between steps,
but that the run may have reached 127 bytes (R166). -/
structure EncodeAdvanced (hf : Config.HashFn) (s : State) : Prop where
  cursor : s.i.toNat ≤ s.inLen.toNat
  runBehind : s.lit.toNat ≤ s.i.toNat
  outFits : s.o.toNat ≤ s.outCap.toNat
  outBound : s.o.toNat ≤ Config.encBoundFactor * (s.i.toNat - s.lit.toNat)
  index : IndexOf hf s.i.toNat s

/-- What search and emission leave alone: the cursor, the operands of the command and the index. -/
theorem searched_actOn_keeps {hf : Config.HashFn} {s s1 : State} {f : Found} (hs : searchCursor hf s = .ok f)
    (ha : actOn f = .ok s1) :
    s1.i = s.i ∧ s1.inLen = s.inLen ∧ s1.outCap = s.outCap ∧ s1.inp = s.inp ∧ s1.head = s.head ∧
      s1.chain = s.chain := by
  have hfr := (searchCursor_ok hs).1
  rw [(actOn_ok ha).1.frame]
  simp only
  rw [hfr]
  exact ⟨rfl, rfl, rfl, rfl, rfl, rfl⟩

theorem advance_i_toNat {hf : Config.HashFn} {len : Nat} {s : State} (h : s.i.toNat + len ≤ s.inLen.toNat) :
    (advance hf len s).i.toNat = s.i.toNat + len := by
  rw [advance_frame]
  exact word_toNat (Nat.lt_of_le_of_lt h s.inLen.isLt)

@[simp] theorem advance_lit (hf : Config.HashFn) (len : Nat) (s : State) : (advance hf len s).lit = s.lit := by
  rw [advance_frame]
@[simp] theorem advance_o (hf : Config.HashFn) (len : Nat) (s : State) : (advance hf len s).o = s.o := by
  rw [advance_frame]
@[simp] theorem advance_inLen (hf : Config.HashFn) (len : Nat) (s : State) :
    (advance hf len s).inLen = s.inLen := by
  rw [advance_frame]
@[simp] theorem advance_outCap (hf : Config.HashFn) (len : Nat) (s : State) :
    (advance hf len s).outCap = s.outCap := by
  rw [advance_frame]

theorem advance_index {hf : Config.HashFn} {len : Nat} {s : State} (h : IndexOf hf s.i.toNat s)
    (hi : s.i.toNat + len ≤ s.inLen.toNat) : IndexOf hf (advance hf len s).i.toNat (advance hf len s) := by
  rw [advance_i_toNat hi]
  exact (h.after_insertRange len hi).congr rfl rfl rfl rfl

/-- Acting on the pair and moving past it: an emission is at most twice the bytes it accounts for (R172). -/
theorem actOn_advanced {hf : Config.HashFn} {s s1 : State} {f : Found} (hr : EncodeRunning hf s)
    (hi : s.i.toNat < s.inLen.toNat) (hs : searchCursor hf s = .ok f) (ha : actOn f = .ok s1) :
    EncodeAdvanced hf (advance hf f.len s1) := by
  obtain ⟨-, hshort, hbehind, hfits, hbound, hidx⟩ := hr
  obtain ⟨hfr, hpair⟩ := searchCursor_ok hs
  obtain ⟨hem, hact⟩ := actOn_ok ha
  obtain ⟨ei, en, ecap, einp, ehead, echain⟩ := searched_actOn_keeps hs ha
  have estlit : f.st.lit = s.lit := by rw [hfr]
  have esto : f.st.o = s.o := by rw [hfr]
  have estcap : f.st.outCap = s.outCap := by rw [hfr]
  have hroom : s1.i.toNat + f.len ≤ s1.inLen.toNat := by rw [ei, en]; omega
  have hfits1 : s1.o.toNat ≤ s1.outCap.toNat := by
    rw [ecap, ← estcap]
    exact hem.fits (by rwa [esto, estcap])
  have hlit0 : (0#7 : LenField).toNat = 0 := rfl
  rw [estlit, esto] at hact
  have hrun : s1.lit.toNat ≤ s.i.toNat + f.len ∧
      s1.o.toNat ≤ Config.encBoundFactor * (s.i.toNat + f.len - s1.lit.toNat) := by
    simp only [Config.encBoundFactor] at hbound ⊢
    rcases hact with ⟨_, hlit, ho, -⟩ | ⟨_, hlit, ho⟩ <;> rw [hlit, ho]
    · omega
    · rw [hlit0]
      split <;> omega
  refine ⟨?_, ?_, ?_, ?_, advance_index ?_ hroom⟩
  · rw [advance_i_toNat hroom, advance_inLen]; exact hroom
  · rw [advance_i_toNat hroom, advance_lit, ei]; exact hrun.1
  · rw [advance_o, advance_outCap]; exact hfits1
  · rw [advance_i_toNat hroom, advance_o, advance_lit, ei]; exact hrun.2
  · rw [ei]; exact hidx.congr einp en ehead echain

theorem limitRun_answers {hf : Config.HashFn} {s : State} (h : EncodeAdvanced hf s) : Answers (limitRun s) := by
  unfold limitRun
  split
  · rename_i hfull
    refine flushRun_answers (fun h0 => ?_) h.runBehind h.cursor
    rw [h0] at hfull
    exact absurd hfull (by decide)
  · exact answers_ok _

/-- The length limit restores the invariant: a full run goes out (R166). -/
theorem limitRun_running {hf : Config.HashFn} {s s' : State} (h : EncodeAdvanced hf s)
    (hok : limitRun s = .ok s') : EncodeRunning hf s' := by
  obtain ⟨hcur, hbehind, hfits, hbound, hidx⟩ := h
  unfold limitRun at hok
  split at hok
  · rename_i hfull
    obtain ⟨hem, hlit, ho, -, -, -⟩ := flushRun_ok hok
    have ei : s'.i = s.i := by rw [hem.frame]
    have en : s'.inLen = s.inLen := by rw [hem.frame]
    have ecap : s'.outCap = s.outCap := by rw [hem.frame]
    have hlit0 : s'.lit.toNat = 0 := by rw [hlit]; rfl
    simp only [Config.maxLen, Config.encBoundFactor] at hfull hbound
    refine ⟨?_, ?_, ?_, ?_, ?_, ?_⟩
    · rwa [ei, en]
    · rw [hlit0]; decide
    · rw [hlit0]; exact Nat.zero_le _
    · rw [ecap]; exact hem.fits hfits
    · rw [ei, hlit0, ho, Config.encBoundFactor]; omega
    · rw [ei]; exact hidx.congr (by rw [hem.frame]) en (by rw [hem.frame]) (by rw [hem.frame])
  · rename_i hroom
    cases hok
    have hshort : s.lit.toNat < Config.maxLen := by
      have := s.lit.isLt
      simp only [Config.maxLen] at hroom ⊢
      omega
    exact ⟨hcur, hshort, hbehind, hfits, hbound, hidx⟩

/-- An ENCSTEP of a running ENCODE with input left stops nowhere. -/
theorem encodeStep_answers {hf : Config.HashFn} {s : State} (hr : EncodeRunning hf s)
    (hi : s.i.toNat < s.inLen.toNat) : Answers (encodeStep hf s) := by
  obtain ⟨f, hs, -⟩ := searchCursor_finds hr.index
  have hfr := (searchCursor_ok hs).1
  have hact : Answers (actOn f) := by
    refine actOn_answers ?_ ?_ ?_ <;> rw [hfr]
    · exact hr.runShort
    · exact hr.runBehind
    · exact hr.cursor
  rw [encodeStep, if_neg (by omega), hs]
  exact hact.bind fun s1 ha => limitRun_answers (actOn_advanced hr hi hs ha)

/-- An ENCSTEP that goes on keeps what holds between the steps of an ENCODE. -/
theorem encodeStep_running {hf : Config.HashFn} {s s' : State} (hr : EncodeRunning hf s)
    (h : encodeStep hf s = .ok s') : EncodeRunning hf s' := by
  obtain ⟨hi, f, s1, hs, ha, hl⟩ := encodeStep_ok h
  exact limitRun_running (actOn_advanced hr hi hs ha) hl

theorem encodeEnd_answers {hf : Config.HashFn} {s : State} (hr : EncodeRunning hf s) : Answers (encodeEnd s) :=
  (flushPending_answers hr.runBehind hr.cursor).map endCommand

/-- An ENCODE between its steps, taken to its end at once, stops nowhere. -/
theorem encodeLoop_answers {hf : Config.HashFn} (fuel : Nat) {s : State} (hr : EncodeRunning hf s) :
    Answers (encodeLoop hf fuel s) := by
  induction fuel generalizing s with
  | zero => exact encodeEnd_answers hr
  | succ n ih =>
    rw [encodeLoop]
    split
    · exact (encodeStep_answers hr ‹_›).bind fun s1 h1 => ih (encodeStep_running hr h1)
    · exact encodeEnd_answers hr

end Sys2Proof.Machine

/-! ## What ENCODE shows does not depend on `HASH_FN` (R8)

`hideIndex` blanks what a hash function can be seen in: the two tables and the MatchFinder's registers. An ENCSTEP, seen
through it, is one and the same function of the hidden state and the closed form's pair, so two runs of an ENCODE stay
equal when seen through it. -/

namespace Sys2Proof.Machine

/-- The state without HEAD, CHAIN and the MatchFinder's registers. -/
def hideIndex (s : State) : State :=
  { s with head := [], chain := [], h := 0, c := 0, p := 0, k := 0, bestLen := 0, bestOff := 0 }

/-- What can be read of a state with its index hidden is the same in states that look alike. -/
theorem eq_of_hideIndex_eq {α : Type} {a b : State} (h : hideIndex a = hideIndex b) (view : State → α)
    (hv : ∀ s, view (hideIndex s) = view s) : view a = view b := by
  rw [← hv a, h, hv b]

/-- A piece's answer with the index hidden in its state. -/
def hideAnswer : Exec State → Exec State
  | .ok s => .ok (hideIndex s)
  | .error (.raised s) => .error (.raised (hideIndex s))
  | .error (.stuck f) => .error (.stuck f)

@[simp] theorem hideAnswer_ok (s : State) : hideAnswer (.ok s) = .ok (hideIndex s) := rfl
@[simp] theorem hideAnswer_raised (s : State) :
    hideAnswer (.error (.raised s)) = .error (.raised (hideIndex s)) := rfl
@[simp] theorem hideAnswer_stuck (f : Fault) : hideAnswer (.error (.stuck f)) = .error (.stuck f) := rfl

/-- Hiding goes through a sequence whose second piece it goes through. -/
theorem hideAnswer_bind {x : Exec State} {g g' : State → Exec State}
    (hg : ∀ s, hideAnswer (g s) = g' (hideIndex s)) : hideAnswer (x >>= g) = hideAnswer x >>= g' := by
  rcases x with (s | f) | s
  · rfl
  · rfl
  · exact hg s

theorem settle_hideAnswer {x : Exec State} {a : State} :
    settle (hideAnswer x) = .next a ↔ ∃ b, settle x = .next b ∧ hideIndex b = a := by
  rcases x with (s | f) | s <;> simp

/-- Where one of two answers that look alike is a next state, so is the other, and the states look alike. -/
theorem settle_of_hideAnswer_eq {x y : Exec State} (h : hideAnswer x = hideAnswer y) {a : State}
    (hx : settle x = .next a) : ∃ b, settle y = .next b ∧ hideIndex a = hideIndex b := by
  obtain ⟨b, hb, hab⟩ := settle_hideAnswer.mp (h ▸ settle_hideAnswer.mpr ⟨a, hx, rfl⟩)
  exact ⟨b, hb, hab.symm⟩

/-- Two sequences look alike when their first pieces do and their second pieces do from states that look alike. -/
theorem hideAnswer_bind_congr {x y : Exec State} {g g' : State → Exec State} (h : hideAnswer x = hideAnswer y)
    (hg : ∀ a b, x = .ok a → y = .ok b → hideIndex a = hideIndex b → hideAnswer (g a) = hideAnswer (g' b)) :
    hideAnswer (x >>= g) = hideAnswer (y >>= g') := by
  rcases x with e | a
  · rcases y with e' | b
    · exact h
    · rcases e with s | f <;> simp at h
  · rcases y with (s | f) | b
    · simp at h
    · simp at h
    · exact hg a b rfl rfl (by simpa using h)

/-! ### The pieces of the encoder do not look at the index -/

theorem flushRun_hideIndex (s : State) : hideAnswer (flushRun s) = flushRun (hideIndex s) := by
  rw [flushRun, apply_ite hideAnswer, apply_ite hideAnswer, apply_ite hideAnswer]
  rfl

theorem flushPending_hideIndex (s : State) : hideAnswer (flushPending s) = flushPending (hideIndex s) := by
  rw [flushPending, apply_ite hideAnswer, flushRun_hideIndex]
  rfl

theorem emitToken_hideIndex (len : LenField) (off : OffField) (s : State) :
    hideAnswer (emitToken len off s) = emitToken len off (hideIndex s) := by
  rw [emitToken, apply_ite hideAnswer]
  rfl

theorem growRun_hideIndex (s : State) : hideAnswer (growRun s) = growRun (hideIndex s) := by
  rw [growRun, apply_ite hideAnswer]
  rfl

theorem takeMatch_hideIndex (off len : Nat) (s : State) :
    hideAnswer (takeMatch off len s) = takeMatch off len (hideIndex s) := by
  rw [takeMatch, hideAnswer_bind (emitToken_hideIndex _ _), flushPending_hideIndex]
  rfl

theorem actOn_hideIndex (f : Found) : hideAnswer (actOn f) = actOn { f with st := hideIndex f.st } := by
  rw [actOn, apply_ite hideAnswer, growRun_hideIndex, takeMatch_hideIndex]
  rfl

theorem limitRun_hideIndex (s : State) : hideAnswer (limitRun s) = limitRun (hideIndex s) := by
  rw [limitRun, apply_ite hideAnswer, flushRun_hideIndex]
  rfl

theorem encodeEnd_hideIndex (s : State) : hideAnswer (encodeEnd s) = encodeEnd (hideIndex s) := by
  rw [encodeEnd, encodeEnd, ← flushPending_hideIndex]
  rcases flushPending s with (s1 | f) | s1 <;> rfl

/-! ### A step and the whole command -/

/-- The end of an ENCSTEP, the index left out: move the cursor, apply the length limit (R165, R166). -/
def finishStep (len : Nat) (s : State) : Exec State :=
  limitRun { s with i := BitVec.ofNat 32 (s.i.toNat + len) }

theorem limitRun_advance_hideIndex (hf : Config.HashFn) (len : Nat) (s : State) :
    hideAnswer (limitRun (advance hf len s)) = finishStep len (hideIndex s) := by
  rw [limitRun_hideIndex, advance_frame]
  rfl

theorem searchFrame.hideIndex_eq {s s' : State} (h : searchFrame s s') : hideIndex s' = hideIndex s := by
  rw [h]
  rfl

/-- An ENCSTEP, the index hidden, is a function of the pair it found: no hash function is left in it. -/
theorem encodeStep_hideIndex {hf : Config.HashFn} {s : State} {f : Found} (hi : s.i.toNat < s.inLen.toNat)
    (hs : searchCursor hf s = .ok f) :
    hideAnswer (encodeStep hf s) = actOn ⟨hideIndex s, f.off, f.len⟩ >>= finishStep f.len := by
  rw [encodeStep, if_neg (by omega), hs, ok_bind, hideAnswer_bind (limitRun_advance_hideIndex hf f.len),
    actOn_hideIndex, (searchCursor_ok hs).1.hideIndex_eq]

/-- Two running ENCODEs that look alike take steps that look alike, whatever their hash functions. -/
theorem encodeStep_alike {hf hf' : Config.HashFn} {s s' : State} (hr : EncodeRunning hf s)
    (hr' : EncodeRunning hf' s') (h : hideIndex s = hideIndex s') (hi : s.i.toNat < s.inLen.toNat) :
    hideAnswer (encodeStep hf s) = hideAnswer (encodeStep hf' s') := by
  have ei := eq_of_hideIndex_eq h.symm State.i fun _ => rfl
  have en := eq_of_hideIndex_eq h.symm State.inLen fun _ => rfl
  have einp := eq_of_hideIndex_eq h.symm State.inp fun _ => rfl
  obtain ⟨f, hs, hpair⟩ := searchCursor_finds hr.index
  obtain ⟨f', hs', hpair'⟩ := searchCursor_finds hr'.index
  obtain ⟨hoff, hlen⟩ := (hpair.congr ei einp en).unique hpair'
  rw [encodeStep_hideIndex hi hs, encodeStep_hideIndex (by rwa [ei, en]) hs', hoff, hlen, h]

theorem encodeEnd_alike {s s' : State} (h : hideIndex s = hideIndex s') :
    hideAnswer (encodeEnd s) = hideAnswer (encodeEnd s') := by
  rw [encodeEnd_hideIndex, encodeEnd_hideIndex, h]

/-- Two running ENCODEs that look alike end alike, whatever their hash functions. -/
theorem encodeLoop_alike {hf hf' : Config.HashFn} (fuel : Nat) {s s' : State} (hr : EncodeRunning hf s)
    (hr' : EncodeRunning hf' s') (h : hideIndex s = hideIndex s') :
    hideAnswer (encodeLoop hf fuel s) = hideAnswer (encodeLoop hf' fuel s') := by
  induction fuel generalizing s s' with
  | zero => exact encodeEnd_alike h
  | succ n ih =>
    have ei := eq_of_hideIndex_eq h.symm State.i fun _ => rfl
    have en := eq_of_hideIndex_eq h.symm State.inLen fun _ => rfl
    rw [encodeLoop, encodeLoop, ei, en]
    split
    · refine hideAnswer_bind_congr (encodeStep_alike hr hr' h ‹_›) fun a b ha hb hab => ?_
      exact ih (encodeStep_running hr ha) (encodeStep_running hr' hb) hab
    · exact encodeEnd_alike h

/-- Settles O54: the run with any `HASH_FN` and the run with the default start in the same state, and so look alike at
their ends once the index is hidden; OUT and the result registers are not hidden. -/
theorem encodeIndependentOfHash : Obligations.EncodeIndependentOfHash := by
  unfold Obligations.EncodeIndependentOfHash
  intro hf s
  have hr := encodeRunning_start hf s
  obtain ⟨a, ha⟩ := (encodeLoop_answers s.inLen.toNat hr).settles
  obtain ⟨b, hb, hab⟩ :=
    settle_of_hideAnswer_eq (encodeLoop_alike s.inLen.toNat hr (encodeRunning_start hashFn s) rfl) ha
  have hsee {α : Type} (view : State → α) := eq_of_hideIndex_eq hab view
  exact ⟨a, b, ha, hb, hsee State.out fun _ => rfl, hsee State.outLen fun _ => rfl, hsee State.status fun _ => rfl,
    hsee State.faultKind fun _ => rfl, hsee State.faultCause fun _ => rfl, hsee State.faultPos fun _ => rfl⟩

end Sys2Proof.Machine
end

section
/-! ## What the engine's step leads to

The engine's step, wherever it answers a next state, has one of four ends. Each rule about every step of the engine is
read off them. -/

namespace Sys2Proof.Machine

/-! ### A token's end -/

/-- What a token can write: OUT, `o`, `t`, the token registers and the result registers. -/
theorem TokenEnd.frame {s s' : State} (h : TokenEnd s s') :
    s' = { s with
      out := s'.out, o := s'.o, t := s'.t, hdr := s'.hdr, len := s'.len, off := s'.off, outLen := s'.outLen,
      status := s'.status, faultKind := s'.faultKind, faultCause := s'.faultCause, faultPos := s'.faultPos } := by
  cases h with
  | faulted s1 _ hlatch => rw [hlatch]; rfl
  | completed s1 _ _ _ hlatch => rw [hlatch]; rfl

/-- A token moves `t` forward or leaves it, and not past `IN_LEN` (R24, R97). -/
theorem TokenEnd.reader {s s' : State} (h : TokenEnd s s') :
    s.t.toNat ≤ s'.t.toNat ∧ (s.t.toNat ≤ s.inLen.toNat → s'.t.toNat ≤ s.inLen.toNat) := by
  cases h with
  | faulted s1 _ hlatch => rw [hlatch]; exact ⟨Nat.le_refl _, id⟩
  | completed s1 m produced consumed hlatch _ _ hin =>
    have ht : (completeToken m produced consumed s1).t.toNat = s.t.toNat + consumed := by
      rw [completeToken_t, hlatch]
      exact word_toNat (Nat.lt_of_le_of_lt hin s.inLen.isLt)
    omega

/-- A token keeps `o` within the walk's `LIMIT` (R203). -/
theorem TokenEnd.outFits {s s' : State} (h : TokenEnd s s') (ho : s.o.toNat ≤ limit s) : s'.o.toNat ≤ limit s' := by
  cases h with
  | faulted s1 _ hlatch => rw [hlatch]; exact ho
  | completed s1 m produced consumed hlatch _ _ _ hfit =>
    have hlimit : limit (completeToken m produced consumed s1) = limit s := by rw [hlatch]; rfl
    have ho' : (completeToken m produced consumed s1).o.toNat = s.o.toNat + produced := by
      rw [completeToken_o, hlatch]
      exact word_toNat (Nat.lt_of_le_of_lt hfit (limit_le_maxWord s))
    omega

theorem TokenEnd.storage {s s' : State} (h : TokenEnd s s') (hw : StorageWf s) : StorageWf s' := by
  obtain ⟨hinp, hout, hhead, hchain⟩ := hw
  cases h with
  | faulted s1 _ hlatch => rw [hlatch]; exact ⟨hinp, hout, hhead, hchain⟩
  | completed s1 m _ _ hlatch _ _ _ _ _ _ hm => rw [hlatch]; exact ⟨hinp, hm hout, hhead, hchain⟩

/-- What holds between the steps of a DECODE or PROBE holds after a token, the faulting one among them. -/
theorem TokenEnd.walkRunning {s s' : State} (h : TokenEnd s s') (hr : WalkRunning s) : WalkRunning s' where
  reader := by rw [show s'.inLen = s.inLen by rw [h.frame]]; exact h.reader.2 hr.reader
  outFits := h.outFits hr.outFits

/-! ### The result registers -/

/-- How a step inside a command leaves the result registers: as they were, or with one of the engine's own faults
recorded (R241 to R245). -/
def KeepsOrFaults (s s' : State) : Prop :=
  SameResults s s' ∨ (s'.status = statusFault ∧ legalFault s'.faultKind s'.faultCause)

theorem TokenEnd.results {s s' : State} (h : TokenEnd s s') : KeepsOrFaults s s' := by
  cases h with
  | faulted s1 _ _ hlo hhi => exact .inr ⟨rfl, .inl ⟨rfl, hlo, hhi⟩⟩
  | completed s1 _ _ _ hlatch => rw [hlatch]; exact .inl ⟨rfl, rfl, rfl, rfl, rfl⟩

theorem EncodeEnd.keepsOrFaults {s s' : State} (h : EncodeEnd s s') : KeepsOrFaults s s' :=
  h.results.imp_right fun ⟨hst, hkind, hcause⟩ => ⟨hst, .inr ⟨hkind, hcause⟩⟩

theorem KeepsOrFaults.status {s s' : State} (h : KeepsOrFaults s s') :
    s'.status = s.status ∨ s'.status = statusFault :=
  h.imp SameResults.status And.left

/-! ### A running ENCODE -/

/-- A flush that goes on keeps what holds between the steps of an ENCODE: the run's one or more bytes pay for its header
(R172). -/
theorem flushRun_running {hf : Config.HashFn} {s s' : State} (h : EncodeRunning hf s) (hok : flushRun s = .ok s') :
    EncodeRunning hf s' := by
  obtain ⟨hcur, -, hbehind, hfits, hbound, hidx⟩ := h
  obtain ⟨hem, hlit, ho, hne, -, -⟩ := flushRun_ok hok
  have ei : s'.i = s.i := by rw [hem.frame]
  have en : s'.inLen = s.inLen := by rw [hem.frame]
  have ecap : s'.outCap = s.outCap := by rw [hem.frame]
  have hlit0 : s'.lit.toNat = 0 := by rw [hlit]; rfl
  have hpos : s.lit.toNat ≠ 0 := fun e => hne (BitVec.eq_of_toNat_eq e)
  simp only [Config.encBoundFactor] at hbound
  refine ⟨?_, ?_, ?_, ?_, ?_, ?_⟩
  · rwa [ei, en]
  · rw [hlit0]; decide
  · rw [hlit0]; exact Nat.zero_le _
  · rw [ecap]; exact hem.fits hfits
  · rw [ei, hlit0, ho, Config.encBoundFactor]; omega
  · rw [ei]; exact hidx.congr (by rw [hem.frame]) en (by rw [hem.frame]) (by rw [hem.frame])

theorem flushRun_keepsRunning {hf : Config.HashFn} {s s' : State} (h : settle (flushRun s) = .next s')
    (hr : EncodeRunning hf s) : s'.status = statusFault ∨ EncodeRunning hf s' := by
  rcases settle_eq_next.mp h with hok | hraised
  · exact .inr (flushRun_running hr hok)
  · rw [flushRun_raised hraised]; exact .inl rfl

/-- An ENCSTEP that takes the engine's fault leaves STATUS at FAULT (R245). -/
theorem encodeStep_raised_status {hf : Config.HashFn} {s s' : State} (h : encodeStep hf s = .error (.raised s')) :
    s'.status = statusFault := by
  obtain ⟨-, f, -, ha | ⟨s1, -, hl⟩⟩ := encodeStep_raised h
  · rcases actOn_raised ha with rfl | ⟨s1, -, rfl⟩ <;> rfl
  · unfold limitRun at hl
    split at hl
    · rw [flushRun_raised hl]; rfl
    · cases hl

theorem encodeStep_keepsRunning {hf : Config.HashFn} {s s' : State} (h : settle (encodeStep hf s) = .next s')
    (hr : EncodeRunning hf s) : s'.status = statusFault ∨ EncodeRunning hf s' := by
  rcases settle_eq_next.mp h with hok | hraised
  · exact .inr (encodeStep_running hr hok)
  · exact .inl (encodeStep_raised_status hraised)

/-! ### The engine's step -/

/-- Everything a step of the engine can lead to from `s`. -/
inductive EngineEnd (s : State) : State → Prop where
  /-- No command runs, and nothing happens (R245, R280). -/
  | idle : ¬ busy s → EngineEnd s s
  /-- An ENCSTEP or the final flush of an ENCODE. -/
  | encoded (s' : State) : busy s → s.cmd = opEncode → EncodeEnd s s' →
      (EncodeRunning hashFn s → s'.status = statusFault ∨ EncodeRunning hashFn s') → EngineEnd s s'
  /-- A token of a DECODE or PROBE. -/
  | token (s' : State) : busy s → s.cmd = opDecode ∨ s.cmd = opProbe → TokenEnd s s' → EngineEnd s s'
  /-- The end of a command without fault (R170, R196). -/
  | ended : busy s → EngineEnd s (endCommand s)

theorem engineStep_end {s s' : State} (h : engineStep s = .next s') : EngineEnd s s' := by
  cases engineStep_cases s with
  | idle hb e => rw [e] at h; cases h; exact .idle hb
  | encStep hb hc _ e =>
    rw [e] at h
    exact .encoded s' hb hc (encodeStep_encodeEnd h) (encodeStep_keepsRunning h)
  | lastFlush hb hc _ _ e =>
    rw [e] at h
    exact .encoded s' hb hc (flushRun_encodeEnd h) (flushRun_keepsRunning h)
  | encodeEnds hb _ _ _ e => rw [e] at h; cases h; exact .ended hb
  | noCommand _ _ e => rw [e] at h; cases h
  | token hb hc ht e =>
    obtain ⟨s1, hs1, hend⟩ := tokenStep_end ht
    rw [e, hs1] at h
    cases h
    exact .token _ hb hc hend
  | walkEnds hb _ _ e => rw [e] at h; cases h; exact .ended hb

/-- STATUS after a step of the engine (R40). -/
theorem EngineEnd.status {s s' : State} (h : EngineEnd s s') :
    s'.status = s.status ∨ (busy s ∧ (s'.status = statusDone ∨ s'.status = statusFault)) := by
  cases h with
  | idle => exact .inl rfl
  | encoded _ hb _ he => exact he.keepsOrFaults.status.imp_right fun hf => ⟨hb, .inr hf⟩
  | token _ hb _ ht => exact ht.results.status.imp_right fun hf => ⟨hb, .inr hf⟩
  | ended hb => exact .inr ⟨hb, .inl rfl⟩

/-- Settles O43: none of the engine's ends writes an operand, the command code or the host's moves. -/
theorem engineLeavesOperands : Obligations.EngineLeavesOperands := by
  unfold Obligations.EngineLeavesOperands
  intro s s' h
  cases engineStep_end h with
  | idle => exact ⟨rfl, rfl, rfl, rfl, rfl⟩
  | encoded _ _ _ he => rw [he.frame]; exact ⟨rfl, rfl, rfl, rfl, rfl⟩
  | token _ _ _ ht => rw [ht.frame]; exact ⟨rfl, rfl, rfl, rfl, rfl⟩
  | ended => exact ⟨rfl, rfl, rfl, rfl, rfl⟩

/-- Settles O46: `i` moves in the encoder's steps only, `t` in the tokens only, each as far as the input has bytes. -/
theorem sequencingIsForward : Obligations.SequencingIsForward := by
  unfold Obligations.SequencingIsForward
  intro s s' h
  cases engineStep_end h with
  | idle => exact ⟨fun _ => ⟨Nat.le_refl _, id⟩, fun _ => ⟨Nat.le_refl _, id⟩⟩
  | encoded _ _ hc he => exact ⟨fun _ => ⟨he.cursorRises, he.cursorInside⟩, fun hne => absurd hc hne⟩
  | token _ _ hc ht => exact ⟨fun he => absurd he (walk_ops hc).1, fun _ => ht.reader⟩
  | ended => exact ⟨fun _ => ⟨Nat.le_refl _, id⟩, fun _ => ⟨Nat.le_refl _, id⟩⟩

end Sys2Proof.Machine

/-! ## What a host move leads to -/

namespace Sys2Proof.Machine

/-- The start of one of the three commands (R281, R282). -/
inductive CommandStart (s : State) : State → Prop where
  | encode : CommandStart s (startEncode s)
  | walk (op : BitVec 2) : op = opDecode ∨ op = opProbe → CommandStart s (startWalk op s)

/-- `s'` is `s` after a host write of an operand or of a byte of IN or OUT. -/
structure OperandWritten (s s' : State) : Prop where
  frame : s' = { s with inLen := s'.inLen, outCap := s'.outCap, inp := s'.inp, out := s'.out }
  inp : Memory.wf s.inp = true → Memory.wf s'.inp = true
  out : Memory.wf s.out = true → Memory.wf s'.out = true

/-- Everything a host move can lead to from `s`. -/
inductive HostEnd (s : State) : HostMove → State → Prop where
  /-- The move is ignored (R226 to R228). -/
  | ignored (m : HostMove) : HostEnd s m s
  /-- A CMD write starts a command (R224). -/
  | started (v : Word) (s' : State) : ¬ busy s → v.setWidth 2 ≠ opReserved → CommandStart s s' →
      HostEnd s (.writeReg .cmd v) s'
  /-- A write of an operand or of a byte lands (R228). -/
  | operand (m : HostMove) (s' : State) : ¬ busy s → OperandWritten s s' → HostEnd s m s'
  /-- Power-on reset (R280). -/
  | powerOn : HostEnd s .powerOn (powerOn s)

theorem operandWrite_next {s next s' : State} (h : operandWrite s next = .next s') : ¬ busy s ∧ s' = next := by
  unfold operandWrite at h
  split at h <;> cases h
  exact ⟨‹_›, rfl⟩

/-- A CMD write's end: ignored with a reserved code and while BUSY, else the command's start. -/
theorem commandWrite_end {s s' : State} {v : Word} (h : hostStep (.writeReg .cmd v) s = .next s') :
    HostEnd s (.writeReg .cmd v) s' := by
  rw [hostStep, exec_decodeCmd] at h
  cases h
  by_cases hr : v.setWidth 2 = opReserved
  · rw [if_pos hr]; exact .ignored _
  · rw [if_neg hr]
    by_cases hb : busy s
    · simp only [unlessBusy, if_pos hb, ite_self]; exact .ignored _
    · simp only [unlessBusy, if_neg hb]
      refine .started v _ hb hr ?_
      split
      · exact .encode
      · rename_i he
        exact .walk _ (((op_cases _).resolve_left hr).resolve_left he)

theorem hostStep_end {m : HostMove} {s s' : State} (h : hostStep m s = .next s') : HostEnd s m s' := by
  cases m with
  | writeReg r v =>
    cases r with
    | cmd => exact commandWrite_end h
    | inLen => obtain ⟨hb, rfl⟩ := operandWrite_next h; exact .operand _ _ hb ⟨rfl, id, id⟩
    | outCap => obtain ⟨hb, rfl⟩ := operandWrite_next h; exact .operand _ _ hb ⟨rfl, id, id⟩
    | outLen | status | faultKind | faultCause | faultPos => cases h; exact .ignored _
  | writeIn a b =>
    obtain ⟨hb, rfl⟩ := operandWrite_next h
    exact .operand _ _ hb ⟨rfl, fun hw => cellsWf_writeCell b hw a.isLt, id⟩
  | writeOut a b =>
    obtain ⟨hb, rfl⟩ := operandWrite_next h
    exact .operand _ _ hb ⟨rfl, id, fun hw => cellsWf_writeCell b hw a.isLt⟩
  | powerOn => cases h; exact .powerOn

theorem CommandStart.status {s s' : State} (h : CommandStart s s') : s'.status = statusBusy := by
  cases h <;> rfl

/-- Settles O42: on the engine's turn a command ends, on the host's one starts or power-on reset happens; every other
end leaves STATUS. -/
theorem statusTransitions : Obligations.StatusTransitions := by
  unfold Obligations.StatusTransitions
  intro s s' _ h
  rcases step_turns s with ⟨s0, hturn, e⟩ | ⟨m, rest, hhost, e⟩ <;> rw [e] at h
  · have hst : s0.status = s.status := by rw [engineTurn_frame hturn]
    rcases (engineStep_end h).status with hsame | ⟨hb, hend⟩
    · exact .inl (hsame.trans hst)
    · exact .inr (.inr (.inl ⟨hst ▸ hb, hend, s0, hturn⟩))
  · cases hostStep_end h with
    | ignored => exact .inl rfl
    | started v _ hb hop hstart => exact .inr (.inl ⟨hb, hstart.status, v, rest, hhost, hop⟩)
    | operand _ _ _ hw => rw [hw.frame]; exact .inl rfl
    | powerOn => exact .inr (.inr (.inr ⟨rfl, rest, hhost⟩))

/-- Settles O17: of the eight registers only CMD and the fault registers do not read as held, and widening to a word
keeps the number. -/
theorem hostReadsRegisters : Obligations.HostReadsRegisters := by
  unfold Obligations.HostReadsRegisters
  intro s
  refine ⟨rfl, rfl, rfl, rfl, BitVec.toNat_setWidth_of_le (by decide), fun hst => ?_, fun hst => ?_⟩
  · simp only [hostRead, whileFault, if_neg hst, and_self]
  · simp only [hostRead, whileFault, if_pos hst]
    exact ⟨BitVec.toNat_setWidth_of_le (by decide), BitVec.toNat_setWidth_of_le (by decide), BitVec.setWidth_eq _⟩

end Sys2Proof.Machine

/-! ## The invariant of the machine

Every end of the engine's step and of a host move keeps it. -/

namespace Sys2Proof.Machine

/-! ### The invariant's parts -/

/-- While STATUS does not say FAULT, cleared fault registers are all the invariant asks of them (R29). -/
theorem faultRegs_of_clear {s : State} (hst : s.status ≠ statusFault)
    (h : s.faultKind = kindNone ∧ s.faultCause = causeNone ∧ s.faultPos = 0#32) : FaultRegs s :=
  ⟨fun _ => h, fun hf => absurd hf hst⟩

theorem FaultRegs.congr {s s' : State} (h : FaultRegs s) (hr : SameResults s s') : FaultRegs s' where
  clear hst := by rw [hr.kind, hr.cause, hr.pos]; exact h.clear (hr.status ▸ hst)
  legal hst := by rw [hr.kind, hr.cause]; exact h.legal (hr.status ▸ hst)

theorem busy_ne_fault {s : State} (hb : busy s) : s.status ≠ statusFault := by
  rw [hb]; decide

theorem EncodeRunning.withHost {hf : Config.HashFn} {s : State} (h : EncodeRunning hf s)
    (host : List (Option HostMove)) : EncodeRunning hf { s with host := host } :=
  ⟨h.cursor, h.runShort, h.runBehind, h.outFits, h.outBound, h.index.congr rfl rfl rfl rfl⟩

/-- The invariant says nothing of the host's moves to come. -/
theorem Inv.withHost {s : State} (h : Inv s) (host : List (Option HostMove)) : Inv { s with host := host } where
  storage := ⟨h.storage.inp, h.storage.out, h.storage.head, h.storage.chain⟩
  status := h.status
  faults := ⟨h.faults.clear, h.faults.legal⟩
  running hb := (h.running hb).imp (.imp_right fun hr => hr.withHost host)
    (.imp_right fun hr => ⟨hr.reader, hr.outFits⟩)

/-- Inside a command the invariant is carried by canonical storages, the result registers kept or a fault recorded, and,
while the command still runs, what holds between its steps. -/
theorem Inv.of_keepsOrFaults {s s' : State} (h : Inv s) (hstorage : StorageWf s') (hres : KeepsOrFaults s s')
    (hrun : busy s' → (s'.cmd = opEncode ∧ EncodeRunning hashFn s') ∨
      ((s'.cmd = opDecode ∨ s'.cmd = opProbe) ∧ WalkRunning s')) : Inv s' where
  storage := hstorage
  status := by
    rcases hres.status with hst | hst <;> rw [hst]
    · exact h.status
    · exact .inr (.inr (.inr rfl))
  faults := by
    rcases hres with hsame | ⟨hst, hlegal⟩
    · exact h.faults.congr hsame
    · exact ⟨fun hne => absurd hst hne, fun _ => hlegal⟩
  running := hrun

/-! ### The engine's ends -/

theorem Inv.after_encoded {s s' : State} (h : Inv s) (hb : busy s) (hc : s.cmd = opEncode) (he : EncodeEnd s s')
    (hkeeps : EncodeRunning hashFn s → s'.status = statusFault ∨ EncodeRunning hashFn s') : Inv s' := by
  have hr : EncodeRunning hashFn s := by
    rcases h.running hb with ⟨-, hr⟩ | ⟨hw, -⟩
    · exact hr
    · exact absurd hc (walk_ops hw).1
  refine h.of_keepsOrFaults (he.storage h.storage) he.keepsOrFaults fun hb' => .inl ⟨?_, ?_⟩
  · rw [he.frame]; exact hc
  · exact (hkeeps hr).resolve_left (busy_ne_fault hb')

theorem Inv.after_token {s s' : State} (h : Inv s) (hb : busy s) (hc : s.cmd = opDecode ∨ s.cmd = opProbe)
    (ht : TokenEnd s s') : Inv s' := by
  have hr : WalkRunning s := by
    rcases h.running hb with ⟨he, -⟩ | ⟨-, hr⟩
    · exact absurd he (walk_ops hc).1
    · exact hr
  refine h.of_keepsOrFaults (ht.storage h.storage) ht.results fun _ => .inr ⟨?_, ht.walkRunning hr⟩
  rw [ht.frame]; exact hc

theorem Inv.after_endCommand {s : State} (h : Inv s) (hb : busy s) : Inv (endCommand s) where
  storage := ⟨h.storage.inp, h.storage.out, h.storage.head, h.storage.chain⟩
  status := .inr (.inr (.inl rfl))
  faults := faultRegs_of_clear (show statusDone ≠ statusFault by decide) (h.faults.clear (busy_ne_fault hb))
  running hdone := absurd hdone (show statusDone ≠ statusBusy by decide)

theorem engineStep_inv {s s' : State} (h : Inv s) (hs : engineStep s = .next s') : Inv s' := by
  cases engineStep_end hs with
  | idle => exact h
  | encoded _ hb hc he hkeeps => exact h.after_encoded hb hc he hkeeps
  | token _ hb hc ht => exact h.after_token hb hc ht
  | ended hb => exact h.after_endCommand hb

/-! ### The host's ends -/

theorem Inv.after_start {s s' : State} (h : Inv s) (hstart : CommandStart s s') : Inv s' where
  storage := by
    cases hstart with
    | encode => exact ⟨h.storage.inp, h.storage.out, cellsWf_nil _, cellsWf_nil _⟩
    | walk op => exact ⟨h.storage.inp, h.storage.out, h.storage.head, h.storage.chain⟩
  status := .inr (.inl hstart.status)
  faults := faultRegs_of_clear (busy_ne_fault hstart.status) (by cases hstart <;> exact ⟨rfl, rfl, rfl⟩)
  running _ := by
    cases hstart with
    | encode => exact .inl ⟨rfl, encodeRunning_start hashFn s⟩
    | walk op hop => exact .inr ⟨hop, Nat.zero_le _, Nat.zero_le _⟩

theorem Inv.after_operandWrite {s s' : State} (h : Inv s) (hb : ¬ busy s) (hw : OperandWritten s s') : Inv s' := by
  have hsame : SameResults s s' := by rw [hw.frame]; exact ⟨rfl, rfl, rfl, rfl, rfl⟩
  refine h.of_keepsOrFaults ⟨hw.inp h.storage.inp, hw.out h.storage.out, ?_, ?_⟩ (.inl hsame) fun hb' => ?_
  · rw [hw.frame]; exact h.storage.head
  · rw [hw.frame]; exact h.storage.chain
  · exact absurd (hsame.status.symm.trans hb') hb

/-- Settles O48: after reset the storages list nothing, STATUS is IDLE and the fault registers are 0. -/
theorem resetMeetsInvariant : Obligations.ResetMeetsInvariant where
  storage := ⟨cellsWf_nil _, cellsWf_nil _, cellsWf_nil _, cellsWf_nil _⟩
  status := .inl rfl
  faults := faultRegs_of_clear (show statusIdle ≠ statusFault by decide) ⟨rfl, rfl, rfl⟩
  running hb := absurd hb (show statusIdle ≠ statusBusy by decide)

theorem hostStep_inv {m : HostMove} {s s' : State} (h : Inv s) (hs : hostStep m s = .next s') : Inv s' := by
  cases hostStep_end hs with
  | ignored => exact h
  | started _ _ _ _ hstart => exact h.after_start hstart
  | operand _ _ hb hw => exact h.after_operandWrite hb hw
  | powerOn => exact resetMeetsInvariant.withHost s.host

/-- Settles O49: each end of the engine's step and of a host move keeps the invariant, whatever moves the host has left
to make. -/
theorem stepKeepsInvariant : Obligations.StepKeepsInvariant := by
  unfold Obligations.StepKeepsInvariant
  intro s s' h hs
  rcases step_turns s with ⟨s0, hturn, e⟩ | ⟨m, rest, -, e⟩ <;> rw [e] at hs
  · rw [engineTurn_frame hturn] at hs
    exact engineStep_inv (h.withHost s0.host) hs
  · exact hostStep_inv (h.withHost rest) hs

end Sys2Proof.Machine
end

section
/-! ## What each command writes

The frames of a step's ends: a token writes OUT in a real decode only, and every step writes it in `[o, OUT_CAP)` only. -/

namespace Sys2Proof.Machine

/-- A token of a PROBE writes no byte of OUT (R197). -/
theorem TokenEnd.out_of_not_real {s s' : State} (h : TokenEnd s s') (hr : ¬ real s) : s'.out = s.out := by
  cases h with
  | faulted s1 _ hlatch => rw [hlatch]; rfl
  | completed s1 _ _ _ _ _ _ _ _ hprobe => exact hprobe hr

/-- A token writes OUT below `OUT_CAP` and not below `o`: what it produces is inside `LIMIT`, which is `OUT_CAP` wherever
it writes (R203). -/
theorem TokenEnd.outside {s s' : State} (h : TokenEnd s s') : outSameOutside s.o.toNat s.outCap.toNat s s' := by
  intro a ha
  by_cases hr : real s
  · cases h with
    | faulted s1 _ hlatch => rw [hlatch]; rfl
    | completed s1 m produced _ _ _ _ _ hfit _ hkept =>
      rw [real_limit hr] at hfit
      exact hkept a (by omega)
  · simp only [outByte, h.out_of_not_real hr]

/-- Settles O44: a token writes within its frame and, in a PROBE, not OUT; an ENCSTEP or flush does not write the
decoder's registers; the end of a command writes `OUT_LEN` and STATUS only. -/
theorem commandsKeepToTheirState : Obligations.CommandsKeepToTheirState := by
  unfold Obligations.CommandsKeepToTheirState
  intro s s' h
  cases engineStep_end h with
  | idle => exact ⟨fun _ => rfl, fun _ _ => rfl, fun _ => ⟨rfl, rfl, rfl, rfl⟩⟩
  | encoded _ _ hc he =>
    refine ⟨fun hne => absurd hc hne, fun hne => absurd hc hne, fun _ => ?_⟩
    rw [he.frame]
    exact ⟨rfl, rfl, rfl, rfl⟩
  | token _ _ hc ht =>
    exact ⟨fun _ => ht.frame, fun _ hd => ht.out_of_not_real hd, fun he => absurd he (walk_ops hc).1⟩
  | ended => exact ⟨fun _ => rfl, fun _ _ => rfl, fun _ => ⟨rfl, rfl, rfl, rfl⟩⟩

/-- Settles O45: only the encoder's emissions and the tokens write OUT, each inside its bounds. -/
theorem outputWritesInBounds : Obligations.OutputWritesInBounds := by
  unfold Obligations.OutputWritesInBounds
  intro s s' h
  cases engineStep_end h with
  | idle => exact fun _ _ => rfl
  | encoded _ _ _ he => exact he.outside
  | token _ _ _ ht => exact ht.outside
  | ended => exact fun _ _ => rfl

end Sys2Proof.Machine
end

section
/-! ## Reading back what was encoded

A token's encoding is read back whatever bytes follow it (R97), so the rest of a stream can be those bytes (R65). -/

namespace Sys2Proof.Machine

/-- A header of length 0 is decided on its own (R99, R100). -/
theorem decodeToken_zeroLength {hdr : Byte} (h : headerLen hdr = 0#7) (rest : List Byte) :
    decodeToken (hdr :: rest) = .ok (if headerIsMatch hdr then .reservedMatch0 else .reservedLit0) rest :=
  if_pos h

/-- A literal run reads back its own payload and stops there: its header counts it (R91). -/
theorem decodeToken_encodeLit {bytes : List Byte} (h1 : 1 ≤ bytes.length) (h2 : bytes.length ≤ 127)
    (rest : List Byte) : decodeToken (encodeLit bytes ++ rest) = .ok (.lit bytes) rest := by
  have hlen : (BitVec.ofNat 7 bytes.length).toNat = bytes.length := lenField_toNat (by omega)
  have hne : BitVec.ofNat 7 bytes.length ≠ 0#7 := fun e => by rw [e] at hlen; simp at hlen; omega
  simp [encodeLit, decodeToken, hne, hlen]

/-- A match of nonzero length reads back its length and offset; offset 0 is the reserved form (R92, R101). -/
theorem decodeToken_encodeMatch {len : LenField} (h : len ≠ 0#7) (off : OffField) (rest : List Byte) :
    decodeToken (encodeMatch len off ++ rest) =
      .ok (if off = 0#16 then .reservedOff0 len else .matchTok len off) rest := by
  simp [encodeMatch, decodeToken, h]

/-- Decoding inverts encoding: a well-formed token is read back from its bytes, whatever bytes follow. -/
theorem decodeToken_tokenEncoding {i : Instr} {bytes : List Byte} (hw : i.wf = true)
    (he : tokenEncoding i = some bytes) (rest : List Byte) : decodeToken (bytes ++ rest) = .ok i rest := by
  cases i with
  | lit payload =>
    cases he
    obtain ⟨h1, h2⟩ := (wf_lit payload).mp hw
    exact decodeToken_encodeLit h1 h2 rest
  | matchTok len off =>
    cases he
    obtain ⟨hlen, hoff⟩ := (wf_matchTok len off).mp hw
    rw [decodeToken_encodeMatch hlen, if_neg hoff]
  | reservedOff0 len =>
    cases he
    rw [decodeToken_encodeMatch ((wf_reservedOff0 len).mp hw), if_pos rfl]
  | reservedLit0 | reservedMatch0 => cases he; exact decodeToken_zeroLength rfl rest
  | cmdReserved | encode | decode | probe | hash | lookup | chainOf | insert | find | encStep | flush | emitMatch =>
    cases he

/-- Reading a stream reads its first token and then the stream of the bytes after it. -/
theorem decodeStream_of_decodeToken {bytes rest : List Byte} {i : Instr} (h : decodeToken bytes = .ok i rest)
    (fuel : Nat) : decodeStream (fuel + 1) bytes = (decodeStream fuel rest).map (i :: ·) := by
  cases bytes with
  | nil => cases h
  | cons b bs => rw [decodeStream, h]

theorem encodeStream_cons {i : Instr} {bytes : List Byte} (he : tokenEncoding i = some bytes) (is : List Instr) :
    encodeStream (i :: is) = bytes ++ encodeStream is := by
  simp [encodeStream, he]

/-- Settles O5, by induction on the stream: the encodings of the later tokens are bytes that follow the first one's. -/
theorem tokenStreamsReadBack : Obligations.TokenStreamsReadBack := by
  unfold Obligations.TokenStreamsReadBack
  intro is
  induction is with
  | nil => exact fun _ => rfl
  | cons i is ih =>
    intro h
    obtain ⟨⟨hw, hsome⟩, hrest⟩ := List.forall_mem_cons.mp h
    obtain ⟨bytes, he⟩ := Option.isSome_iff_exists.mp hsome
    have hhead := decodeToken_tokenEncoding hw he (encodeStream is)
    rw [encodeStream_cons he, List.length_cons, decodeStream_of_decodeToken hhead, ih hrest, Option.map_some]

end Sys2Proof.Machine
end

section
/-! ## The decoder and the encoder against each other

The decoder is said once, an equation for each row of R98. What it accepts it read from the token's own encoding, and
so the two invert each other. -/

namespace Sys2Proof.Machine

/-! ### Header bytes as numbers -/

theorem headerLen_eq_zero_iff (hdr : Byte) : headerLen hdr = 0#7 ↔ hdr.toNat % 128 = 0 := by
  rw [← headerLen_toNat, ← BitVec.toNat_inj]; rfl

theorem headerIsMatch_eq_false_iff (hdr : Byte) : headerIsMatch hdr = false ↔ hdr.toNat < 128 := by
  rw [← Bool.not_eq_true, headerIsMatch_iff, Nat.not_le]

theorem headerLen_eq_ofNat (hdr : Byte) : headerLen hdr = BitVec.ofNat 7 hdr.toNat :=
  (BitVec.ofNat_toNat 7 hdr).symm

/-- The length field of a match header is what its byte says beyond `0x80` (R92). -/
theorem headerLen_eq_ofNat_sub {hdr : Byte} (h : 128 ≤ hdr.toNat) :
    headerLen hdr = BitVec.ofNat 7 (hdr.toNat - 128) := by
  apply BitVec.eq_of_toNat_eq
  have := hdr.isLt
  rw [headerLen_toNat, lenField_toNat (by omega)]; omega

theorem matchHeader_eq_ofNat (len : LenField) : matchHeader len = BitVec.ofNat 8 (128 + len.toNat) := by
  rw [← matchHeader_toNat, BitVec.ofNat_toNat, BitVec.setWidth_eq]

theorem offsetOf_eq_ofNat (hi lo : Byte) : offsetOf hi lo = BitVec.ofNat 16 (256 * hi.toNat + lo.toNat) := by
  rw [← offsetOf_toNat, BitVec.ofNat_toNat, BitVec.setWidth_eq]

theorem offsetOf_eq_zero_iff (hi lo : Byte) : offsetOf hi lo = 0#16 ↔ 256 * hi.toNat + lo.toNat = 0 := by
  rw [← offsetOf_toNat, ← BitVec.toNat_inj]; rfl

/-! ### The rows of R98 for a nonzero length -/

section
variable {hdr : Byte} {rest : List Byte} (hlen : headerLen hdr ≠ 0#7)
include hlen

theorem decodeToken_literal (hm : headerIsMatch hdr = false) (h : (headerLen hdr).toNat ≤ rest.length) :
    decodeToken (hdr :: rest) =
      .ok (.lit (rest.take (headerLen hdr).toNat)) (rest.drop (headerLen hdr).toNat) := by
  simp [decodeToken, hlen, hm, Nat.not_lt.mpr h]

theorem decodeToken_truncatedLiteral (hm : headerIsMatch hdr = false) (h : rest.length < (headerLen hdr).toNat) :
    decodeToken (hdr :: rest) = .reject (.truncatedLiteral (headerLen hdr)) := by
  simp [decodeToken, hlen, hm, h]

theorem decodeToken_match (hm : headerIsMatch hdr = true) (hi lo : Byte) (rest : List Byte) :
    decodeToken (hdr :: hi :: lo :: rest) =
      .ok (if offsetOf hi lo = 0#16 then .reservedOff0 (headerLen hdr)
        else .matchTok (headerLen hdr) (offsetOf hi lo)) rest := by
  simp [decodeToken, hlen, hm]

theorem decodeToken_truncatedMatch (hm : headerIsMatch hdr = true) (h : rest.length < 2) :
    decodeToken (hdr :: rest) = .reject (.truncatedMatch (headerLen hdr)) := by
  match rest with
  | [] | [_] => simp [decodeToken, hlen, hm]
  | _ :: _ :: _ => simp at h

end

/-! ### What the decoder accepts -/

theorem encodeLit_eq_cons {hdr : Byte} (hm : headerIsMatch hdr = false) {payload : List Byte}
    (h : payload.length = (headerLen hdr).toNat) : encodeLit payload = hdr :: payload := by
  rw [encodeLit, h, BitVec.ofNat_toNat, BitVec.setWidth_eq, litHeader_headerLen hm]

theorem encodeMatch_eq_cons {hdr : Byte} (hm : headerIsMatch hdr = true) (hi lo : Byte) :
    encodeMatch (headerLen hdr) (offsetOf hi lo) = [hdr, hi, lo] := by
  rw [encodeMatch, matchHeader_headerLen hm, offsetHi_offsetOf, offsetLo_offsetOf]

/-- `i` is an instruction whose encoding, taken off the front of `bytes`, leaves `rest`. -/
def ReadFrom (i : Instr) (bytes rest : List Byte) : Prop :=
  i.wf = true ∧ ∃ read, encode i = some (.token read) ∧ bytes = read ++ rest

theorem zeroLength_readFrom {hdr : Byte} (hlen : headerLen hdr = 0#7) (rest : List Byte) :
    ReadFrom (if headerIsMatch hdr then .reservedMatch0 else .reservedLit0) (hdr :: rest) rest := by
  cases hm : headerIsMatch hdr with
  | false =>
    have hhdr : hdr = 0x00#8 := by rw [← litHeader_headerLen hm, hlen]; rfl
    exact ⟨rfl, [0x00#8], rfl, by rw [hhdr]; rfl⟩
  | true =>
    have hhdr : hdr = 0x80#8 := by rw [← matchHeader_headerLen hm, hlen]; rfl
    exact ⟨rfl, [0x80#8], rfl, by rw [hhdr]; rfl⟩

theorem literal_readFrom {hdr : Byte} {rest : List Byte} (hlen : headerLen hdr ≠ 0#7)
    (hm : headerIsMatch hdr = false) (hfit : (headerLen hdr).toNat ≤ rest.length) :
    ReadFrom (.lit (rest.take (headerLen hdr).toNat)) (hdr :: rest) (rest.drop (headerLen hdr).toNat) := by
  have hpay : (rest.take (headerLen hdr).toNat).length = (headerLen hdr).toNat := List.length_take_of_le hfit
  have hpos : (headerLen hdr).toNat ≠ 0 := fun e => hlen (BitVec.eq_of_toNat_eq e)
  have := (headerLen hdr).isLt
  refine ⟨(wf_lit _).mpr (by omega), encodeLit _, rfl, ?_⟩
  rw [encodeLit_eq_cons hm hpay, List.cons_append, List.take_append_drop]

theorem match_readFrom {hdr : Byte} (hlen : headerLen hdr ≠ 0#7) (hm : headerIsMatch hdr = true) (hi lo : Byte)
    (rest : List Byte) :
    ReadFrom (if offsetOf hi lo = 0#16 then .reservedOff0 (headerLen hdr)
      else .matchTok (headerLen hdr) (offsetOf hi lo)) (hdr :: hi :: lo :: rest) rest := by
  have hbytes := encodeMatch_eq_cons hm hi lo
  split
  next hoff =>
    rw [hoff] at hbytes
    exact ⟨(wf_reservedOff0 _).mpr hlen, _, rfl, by rw [hbytes]; rfl⟩
  next hoff => exact ⟨(wf_matchTok _ _).mpr ⟨hlen, hoff⟩, _, rfl, by rw [hbytes]; rfl⟩

/-- Encoding inverts decoding: what the decoder answers is read from its own encoding. -/
theorem readFrom_of_decodeToken {bytes rest : List Byte} {i : Instr} (h : decodeToken bytes = .ok i rest) :
    ReadFrom i bytes rest := by
  match bytes with
  | [] => cases h
  | hdr :: tail =>
    by_cases hlen : headerLen hdr = 0#7
    · rw [decodeToken_zeroLength hlen] at h
      cases h
      exact zeroLength_readFrom hlen _
    cases hm : headerIsMatch hdr with
    | false =>
      by_cases hfit : (headerLen hdr).toNat ≤ tail.length
      · rw [decodeToken_literal hlen hm hfit] at h
        cases h
        exact literal_readFrom hlen hm hfit
      · rw [decodeToken_truncatedLiteral hlen hm (Nat.lt_of_not_le hfit)] at h
        cases h
    | true =>
      match tail with
      | [] | [_] => rw [decodeToken_truncatedMatch hlen hm (by simp)] at h; cases h
      | hi :: lo :: _ =>
        rw [decodeToken_match hlen hm] at h
        cases h
        exact match_readFrom hlen hm hi lo _

theorem encode_decodeCmd (op : BitVec 2) : encode (decodeCmd op) = some (.command op) := by
  obtain rfl | rfl | rfl | rfl := op_cases op <;> rfl

theorem decodeCmd_of_encode {i : Instr} {op : BitVec 2} (h : encode i = some (.command op)) : decodeCmd op = i := by
  cases i with
  | cmdReserved | encode | decode | probe => cases h; rfl
  | lit | matchTok | reservedLit0 | reservedMatch0 | reservedOff0 | hash | lookup | chainOf | insert | find | encStep
  | flush | emitMatch => cases h

theorem tokenEncoding_eq_some_iff {i : Instr} {bytes : List Byte} :
    tokenEncoding i = some bytes ↔ encode i = some (.token bytes) := by
  unfold tokenEncoding
  split
  next read he => simp [he]
  next hnone => simpa using hnone bytes

/-! ### The obligations about the decoder and the encoder -/

/-- Settles O3: a token by the read-back of its bytes, a command by its code. -/
theorem decodeOfEncodeIsIdentity : Obligations.DecodeOfEncodeIsIdentity := by
  unfold Obligations.DecodeOfEncodeIsIdentity
  intro i hw
  exact ⟨fun bytes h => decodeToken_tokenEncoding hw (tokenEncoding_eq_some_iff.mpr h), fun op => decodeCmd_of_encode⟩

/-- Settles O4: each row of R98 that is accepted was read from the bytes of its encoding. -/
theorem encodeOfDecodeIsIdentity : Obligations.EncodeOfDecodeIsIdentity :=
  ⟨fun _ _ _ => readFrom_of_decodeToken, encode_decodeCmd⟩

/-- Settles O2, row by row of R98: the header's value says which of the decoder's equations applies. -/
theorem everyHeaderByteDecodes : Obligations.EveryHeaderByteDecodes := by
  unfold Obligations.EveryHeaderByteDecodes
  intro hdr rest
  have hzero := headerLen_eq_zero_iff hdr
  have hlit := headerIsMatch_eq_false_iff hdr
  have hmatch := headerIsMatch_iff hdr
  have hbyte := hdr.isLt
  refine ⟨fun h => ?_, fun h1 h2 hfit => ?_, fun h1 h2 hshort => ?_, fun h => ?_, fun h hi lo rest' e hoff => ?_,
    fun h hi lo rest' e hoff => ?_, fun h hshort => ?_⟩
  · rw [decodeToken_zeroLength (hzero.mpr (by omega)), hlit.mpr (by omega)]; rfl
  · have hval : (headerLen hdr).toNat = hdr.toNat := by rw [headerLen_toNat]; omega
    rw [decodeToken_literal (mt hzero.mp (by omega)) (hlit.mpr (by omega)) (by omega), hval]
  · have hval : (headerLen hdr).toNat = hdr.toNat := by rw [headerLen_toNat]; omega
    rw [decodeToken_truncatedLiteral (mt hzero.mp (by omega)) (hlit.mpr (by omega)) (by omega), headerLen_eq_ofNat]
  · rw [decodeToken_zeroLength (hzero.mpr (by omega)), hmatch.mpr (by omega)]; rfl
  · rw [e, decodeToken_match (mt hzero.mp (by omega)) (hmatch.mpr (by omega)),
      if_neg (mt (offsetOf_eq_zero_iff hi lo).mp (by omega)), headerLen_eq_ofNat_sub (by omega), offsetOf_eq_ofNat]
  · rw [e, decodeToken_match (mt hzero.mp (by omega)) (hmatch.mpr (by omega)),
      if_pos ((offsetOf_eq_zero_iff hi lo).mpr hoff), headerLen_eq_ofNat_sub (by omega)]
  · rw [decodeToken_truncatedMatch (mt hzero.mp (by omega)) (hmatch.mpr (by omega)) hshort,
      headerLen_eq_ofNat_sub (by omega)]

/-- The sizes of encodings (R90, R97), for all instructions at once. -/
theorem encodingSize (i : Instr) : Laws.EncodingSize.Statement i :=
  match i with
  | .lit bytes => Laws.EncodingSize.lit bytes
  | .matchTok len off => Laws.EncodingSize.matchTok len off
  | .reservedLit0 => Laws.EncodingSize.reservedLit0
  | .reservedMatch0 => Laws.EncodingSize.reservedMatch0
  | .reservedOff0 len => Laws.EncodingSize.reservedOff0 len
  | .cmdReserved => Laws.EncodingSize.cmdReserved
  | .encode => Laws.EncodingSize.encode
  | .decode => Laws.EncodingSize.decode
  | .probe => Laws.EncodingSize.probe
  | .hash p => Laws.EncodingSize.hash p
  | .lookup h => Laws.EncodingSize.lookup h
  | .chainOf p => Laws.EncodingSize.chainOf p
  | .insert p => Laws.EncodingSize.insert p
  | .find p => Laws.EncodingSize.find p
  | .encStep => Laws.EncodingSize.encStep
  | .flush => Laws.EncodingSize.flush
  | .emitMatch len off => Laws.EncodingSize.emitMatch len off

theorem tokenBytes_eq (hdr : Byte) : tokenBytes hdr = if hdr.getLsbD 7 then 3 else 1 + hdr.toNat % 128 := by
  rw [tokenBytes, headerLen_toNat]; rfl

/-- Settles O6: the bytes read are the token's encoding, which is as long as its header says. -/
theorem headerGivesTokenLength : Obligations.HeaderGivesTokenLength := by
  unfold Obligations.HeaderGivesTokenLength
  intro hdr rest rest' i h hlen
  obtain ⟨hw, read, henc, hbytes⟩ := readFrom_of_decodeToken h
  obtain ⟨hpos, -, hsize⟩ := encodingSize i hw read (tokenEncoding_eq_some_iff.mpr henc)
  obtain ⟨first, tail, rfl⟩ := List.exists_cons_of_length_pos hpos
  obtain ⟨rfl, htail : rest = tail ++ rest'⟩ := List.cons.inj hbytes
  have hread := hsize hdr tail rfl hlen
  rw [tokenBytes_eq, List.length_cons] at hread
  rw [htail, List.length_append]; omega

/-- Settles O1: closed words, evaluated. -/
theorem writtenOutWordsDecode : Obligations.WrittenOutWordsDecode := by
  unfold Obligations.WrittenOutWordsDecode
  decide

/-! ### The reserved encodings -/

/-- Raising `MalformedStream` after the token fetch is the fault R245 says. -/
theorem TokenLatch.raisedMalformed {s s1 : State} (h : TokenLatch s s1) (cause : BitVec 3) :
    raisedMalformed cause s (malformed cause s1) := by
  rw [h]; rfl

section
variable {len : LenField} {off : OffField} {s : State} (hlen : len ≠ 0#7)
include hlen

theorem matchToken_truncated (off : OffField) (h : s.inLen.toNat < s.t.toNat + 3) :
    matchToken len off s = .error (.raised (malformed causeTruncatedMatch (latchHeader (matchHeader len) s))) := by
  rw [matchToken, if_neg hlen]
  exact if_pos h

/-- The offset is looked at once the token is known to be whole (R200). -/
theorem matchToken_zeroOffset (h : s.t.toNat + 3 ≤ s.inLen.toNat) :
    matchToken len 0#16 s =
      .error (.raised (malformed causeZeroOffset (latchOffset 0#16 (latchHeader (matchHeader len) s)))) := by
  rw [matchToken, if_neg hlen]
  exact if_neg (Nat.not_lt.mpr h)

end

/-- Settles O10: the decoder's rows for the reserved headers, and the first guards of the token's meaning. -/
theorem reservedTokensRaise : Obligations.ReservedTokensRaise := by
  unfold Obligations.ReservedTokensRaise
  intro s len rest hlen
  refine ⟨decodeToken_zeroLength rfl rest, decodeToken_zeroLength rfl rest, ?_,
    ⟨_, rfl, (TokenLatch.header 0x00#8 s).raisedMalformed _⟩, ⟨_, rfl, (TokenLatch.header 0x80#8 s).raisedMalformed _⟩,
    fun h => ⟨_, congrArg settle (matchToken_zeroOffset hlen h), (TokenLatch.offset _ _ s).raisedMalformed _⟩,
    fun h => ⟨_, congrArg settle (matchToken_truncated hlen 0#16 h), (TokenLatch.header _ s).raisedMalformed _⟩⟩
  rw [← matchHeader_eq_ofNat]
  exact decodeToken_encodeMatch hlen 0#16 rest

end Sys2Proof.Machine

/-! ## A table word placed for the next step (log entry 5) -/

namespace Sys2Proof.Machine

/-- What a table word that stands for an instruction is: a value of `CMD.op`, or bytes that begin with a token. -/
theorem decodeTableWord_eq_some {nbits w : Nat} {ins : Instr} (h : decodeTableWord nbits w = some ins) :
    (isCommandWord nbits w = true ∧ ins = decodeCmd (BitVec.ofNat 2 w)) ∨
    (isCommandWord nbits w = false ∧ ∃ rest, decodeToken (tableToken nbits w) = .ok ins rest) := by
  unfold decodeTableWord at h
  split at h
  · cases h
  split at h
  next hc => cases h; exact .inl ⟨hc, rfl⟩
  next hc =>
    split at h
    next rest hd => cases h; exact .inr ⟨Bool.eq_false_iff.mpr hc, rest, hd⟩
    next => cases h

@[simp] theorem tableBytes_length (n w : Nat) : (tableBytes n w).length = n := by
  induction n with
  | zero => rfl
  | succ n ih => rw [tableBytes, List.length_cons, ih]

theorem tableToken_length {nbits : Nat} (h : nbits ≤ 1024) (w : Nat) : (tableToken nbits w).length = 128 := by
  simp [tableToken]; omega

/-- IN reads back the bytes written to it. -/
theorem inSlice_of_writeBytes {s : State} {m : Memory} {a : Nat} {bytes : List Byte}
    (h : s.inp = writeBytes m a bytes) : inSlice s a bytes.length = bytes := by
  refine List.ext_getElem (inSlice_length _ _ _) fun j _ hj => ?_
  rw [inSlice_getElem, inByte, h, readCell_writeBytes_inside bytes m hj]

/-- The placed token and the zeros after it are inside the input. -/
theorem placeToken_inside {s : State} (ht : s.t.toNat + 128 ≤ 4294967295) (nbits w : Nat) :
    s.t.toNat + 128 ≤ (placeToken nbits w s).inLen.toNat := by
  have := s.inLen.isLt
  have hlen : (placeToken nbits w s).inLen.toNat = max s.inLen.toNat (min 4294967295 (s.t.toNat + 128)) :=
    word_toNat (by simp only [Config.maxWord, Config.maxTokenBytes]; omega)
  omega

theorem placeToken_walks (nbits w : Nat) (s : State) :
    (placeToken nbits w s).cmd = opDecode ∨ (placeToken nbits w s).cmd = opProbe := by
  by_cases h : s.cmd = opProbe
  · exact .inr (if_pos h)
  · exact .inl (if_neg h)

/-- The decoder's window on a state with 128 bytes of input written from `t` on is those bytes. -/
theorem tokenWindow_of_writeBytes {s : State} {m : Memory} {bytes : List Byte} (hlen : bytes.length = 128)
    (hinp : s.inp = writeBytes m s.t.toNat bytes) (hin : s.t.toNat + 128 ≤ s.inLen.toNat) : tokenWindow s = bytes := by
  have hsize : min Config.maxTokenBytes (s.inLen.toNat - s.t.toNat) = bytes.length := by
    rw [hlen, Config.maxTokenBytes]; omega
  rw [tokenWindow, hsize, inSlice_of_writeBytes hinp]

/-- A running token walk with input left takes a token. -/
theorem engineStep_eq_tokenStep {s : State} (hb : busy s) (hc : s.cmd = opDecode ∨ s.cmd = opProbe)
    (ht : s.t.toNat < s.inLen.toNat) : engineStep s = tokenStep s := by
  obtain ⟨hne, hnr⟩ := walk_ops hc
  rw [engineStep, if_neg (not_not.mpr hb), if_neg hne, if_neg hnr, walkStep, if_pos ht]

theorem tokenStep_of_decodeToken {s : State} {ins : Instr} {rest : List Byte}
    (h : decodeToken (tokenWindow s) = .ok ins rest) : tokenStep s = exec ins s := by
  rw [tokenStep, h]

theorem step_placeCommand (w : Nat) (s : State) :
    step (placeCommand w s) = exec (decodeCmd (BitVec.ofNat 2 w)) { placeCommand w s with host := s.host } := by
  have hop : (BitVec.ofNat 32 w).setWidth 2 = BitVec.ofNat 2 w := BitVec.setWidth_ofNat_of_le (by decide) w
  rw [step_hostTurn (s := placeCommand w s) rfl, hostStep, hop]

theorem step_placeToken {nbits w : Nat} {ins : Instr} {rest : List Byte} {s : State}
    (hd : decodeToken (tableToken nbits w) = .ok ins rest) (hbits : nbits ≤ 1024)
    (ht : s.t.toNat + 128 ≤ 4294967295) :
    step (placeToken nbits w s) = exec ins { placeToken nbits w s with host := s.host } := by
  have hin := placeToken_inside ht nbits w
  have hleft : s.t.toNat < (placeToken nbits w s).inLen.toNat := by omega
  have hwindow : tokenWindow { placeToken nbits w s with host := s.host } = tableToken nbits w :=
    tokenWindow_of_writeBytes (tableToken_length hbits w) rfl hin
  calc step (placeToken nbits w s)
      = engineStep { placeToken nbits w s with host := s.host } := step_engineTurn (.inr ⟨s.host, rfl, rfl⟩)
    _ = tokenStep { placeToken nbits w s with host := s.host } :=
        engineStep_eq_tokenStep rfl (placeToken_walks nbits w s) hleft
    _ = exec ins { placeToken nbits w s with host := s.host } := tokenStep_of_decodeToken (hwindow ▸ hd)

/-- Settles O41: a command is the host's next move, a token is what the running walk reads at `t`. -/
theorem fetchWordRunsNext : Obligations.FetchWordRunsNext := by
  unfold Obligations.FetchWordRunsNext
  intro s nbits w ins h hbits ht
  unfold State.withFetchWord
  obtain ⟨hc, rfl⟩ | ⟨hc, rest, hd⟩ := decodeTableWord_eq_some h
  · rw [if_pos hc]
    exact step_placeCommand w s
  · rw [if_neg (Bool.eq_false_iff.mp hc)]
    exact step_placeToken hd hbits ht

end Sys2Proof.Machine
end

section
/-! ## The operations on the index

What HASH, LOOKUP, CHAINOF and INSERT do where three bytes of input stand at their position, and that they and FIND stop
where fewer do. -/

namespace Sys2Proof.Machine

/-! ### The default `HASH_FN` as a number (R123) -/

theorem byte_shiftLeft_eight_le (b : Byte) : b.toNat <<< 8 ≤ 0xFF00 := by
  have := b.isLt; rw [Nat.shiftLeft_eq]; omega

theorem byte_shiftLeft_four_le (b : Byte) : b.toNat <<< 4 ≤ 0x0FF0 := by
  have := b.isLt; rw [Nat.shiftLeft_eq]; omega

/-- Shifting a widened byte drops no bit where the result fits 16 bits. -/
theorem byte_widen_shiftLeft_toNat (b : Byte) {n : Nat} (h : b.toNat <<< n < 65536) :
    (b.setWidth 16 <<< n).toNat = b.toNat <<< n := by
  rw [BitVec.toNat_shiftLeft, BitVec.toNat_setWidth_of_le (by decide), Nat.mod_eq_of_lt h]

/-- R123: the default `HASH_FN` is the exclusive-or of the shifted bytes, with no reduction. -/
theorem hashFn_toNat (b0 b1 b2 : Byte) :
    (hashFn b0 b1 b2).toNat = (b0.toNat <<< 8) ^^^ (b1.toNat <<< 4) ^^^ b2.toNat := by
  have h0 := byte_shiftLeft_eight_le b0
  have h1 := byte_shiftLeft_four_le b1
  rw [hashFn, BitVec.toNat_xor, BitVec.toNat_xor, byte_widen_shiftLeft_toNat b0 (by omega),
    byte_widen_shiftLeft_toNat b1 (by omega), BitVec.toNat_setWidth_of_le (by decide)]

/-- Settles O20: each shifted byte stays below bit 16, and so does a hash, which is their exclusive-or. -/
theorem defaultHashFitsTable : Obligations.DefaultHashFitsTable := by
  unfold Obligations.DefaultHashFitsTable
  refine ⟨fun b0 b1 b2 => ⟨byte_shiftLeft_eight_le b0, byte_shiftLeft_four_le b1, Nat.le_of_lt_succ b2.isLt, ?_,
    hashFn_toNat b0 b1 b2⟩, by decide⟩
  rw [← hashFn_toNat]
  exact Nat.le_of_lt_succ (hashFn b0 b1 b2).isLt

/-! ### Where three bytes of input stand, and where fewer do (R121) -/

theorem settle_whenHashable_inside {s : State} {p : Nat} (h : hashable s p) (next : State) :
    settle (whenHashable p s next) = .next next := by
  rw [whenHashable, if_pos h, settle_ok]

theorem settle_whenHashable_nearEnd {s : State} {p : Nat} (h : ¬ hashable s p) (next : State) :
    settle (whenHashable p s next) = .fault (.inIndex (p + 2)) := by
  rw [whenHashable, if_neg h, settle_stuck]

theorem settle_findAt_nearEnd {s : State} {i : Nat} (h : ¬ hashable s i) (hf : Config.HashFn) :
    settle (findAt hf i s) = .fault (.inIndex (i + 2)) := by
  rw [findAt, if_neg h, settle_stuck]

/-- Settles O21: HASH and INSERT run behind the test `whenHashable`, FIND behind the same test of its own. -/
theorem noHashNearTheEnd : Obligations.NoHashNearTheEnd := by
  unfold Obligations.NoHashNearTheEnd
  intro s p hend
  have hnear : ¬ hashable s p.toNat := Nat.not_lt.mpr hend
  exact ⟨settle_whenHashable_nearEnd hnear _, settle_whenHashable_nearEnd hnear _, settle_findAt_nearEnd hnear hashFn⟩

/-! ### The operations where they complete -/

/-- Settles O19: the default `HASH_FN` of the three bytes, as a number. -/
theorem hashMeaning : Obligations.HashMeaning := by
  unfold Obligations.HashMeaning
  intro s p hin
  exact ⟨_, settle_whenHashable_inside hin _, rfl, hashFn_toNat _ _ _⟩

/-- Settles O22: each is one table read; a CHAIN slot is the position mod 65536. -/
theorem lookupAndChainOfMeaning : Obligations.LookupAndChainOfMeaning := by
  unfold Obligations.LookupAndChainOfMeaning
  exact fun _ _ _ => ⟨rfl, rfl⟩

/-- Settles O23: what `insertAt` wrote, and what it left, read back from HEAD and CHAIN. -/
theorem insertMeaning : Obligations.InsertMeaning := by
  unfold Obligations.InsertMeaning
  intro s p hin
  refine ⟨insertAt hashFn p.toNat s, settle_whenHashable_inside hin _, rfl, ?_, insertAt_chainAt_same _ _ _,
    fun _ hne => insertAt_headAt_other hne, fun _ hne => insertAt_chainAt_other hne⟩
  have := s.inLen.isLt
  rw [insertAt_headAt_same, word_toNat (by omega)]

/-- Settles O24: the cursor is either at a hashable position, which is inserted, or near the end, and is skipped. -/
theorem insertKeepsIndex : Obligations.InsertKeepsIndex := by
  unfold Obligations.InsertKeepsIndex
  intro hf s i hi hidx
  split
  case isTrue hs => exact hidx.after_insertAt hs hi
  case isFalse hs => exact hidx.after_skip hs

end Sys2Proof.Machine
end

section
/-! ## FIND on the index of the input before its cursor

FIND completes there with the closed form (R148), and the closed form's pair is `(0, 1)` or a true match (R140). -/

namespace Sys2Proof.Machine

/-- The bytes of the closed form's pair agree with the cursor's; the pair `(0, 1)` compares the cursor with itself. -/
theorem FindResult.agree {s : State} {i off len : Nat} (h : FindResult s i off len) {j : Nat} (hj : j < len) :
    inByte s (i + j) = inByte s (i - off + j) := by
  cases h with
  | noMatch => rfl
  | isMatch p m hw hm =>
    have hp := hw.1
    rw [Nat.sub_sub_self (by omega)]
    exact (hm.agree j (by omega)).symm

/-- Settles O26: the walk down the cursor's chain carries the best match of the positions it has passed. -/
theorem findClosedForm : Obligations.FindClosedForm := by
  unfold Obligations.FindClosedForm
  exact fun _ _ _ hi hidx => findAt_finds hidx hi

/-- Settles O25: the pair's range holds wherever FIND completes, and its bytes agree because it is the closed form's. -/
theorem findMeaning : Obligations.FindMeaning := by
  unfold Obligations.FindMeaning
  intro s i hi hidx
  obtain ⟨s', hok, hres⟩ := findAt_finds hidx hi
  obtain ⟨hframe, hpair⟩ := findAt_ok hok
  refine ⟨s', settle_eq_next.mpr (.inl hok), hframe, hres, hpair.imp_right ?_⟩
  rintro ⟨hoff1, hoff, hlen4, hlen127, hinside⟩
  exact ⟨hoff1, Nat.le_of_lt_succ s'.bestOff.isLt, hoff, hlen4, hlen127, hinside, fun _ hj => hres.agree hj⟩

end Sys2Proof.Machine
end

section
/-! ## The closed form on byte lists (R148)

`bestMatch` computes on the input's bytes the pair that the closed form states of a machine holding them. -/

namespace Sys2Proof.Machine

/-! ### The length two byte strings share -/

theorem sharedLen_le_right (as bs : List Byte) : sharedLen as bs ≤ bs.length := by
  fun_induction sharedLen as bs with
  | case1 a as bs ih => simpa using ih
  | case2 => exact Nat.zero_le _
  | case3 => exact Nat.zero_le _

theorem sharedLen_agree {as bs : List Byte} {j : Nat} (h : j < sharedLen as bs) : as[j]? = bs[j]? := by
  fun_induction sharedLen as bs generalizing j with
  | case1 a as bs ih =>
    cases j with
    | zero => rfl
    | succ j => simpa using ih (Nat.lt_of_succ_lt_succ h)
  | case2 => omega
  | case3 => omega

theorem sharedLen_ends {as bs : List Byte} (ha : sharedLen as bs < as.length) (hb : sharedLen as bs < bs.length) :
    as[sharedLen as bs]? ≠ bs[sharedLen as bs]? := by
  fun_induction sharedLen as bs with
  | case1 a as bs ih => simpa using ih (Nat.lt_of_succ_lt_succ ha) (Nat.lt_of_succ_lt_succ hb)
  | case2 a as b bs hne => simpa using hne
  | case3 as bs hnil =>
    match as, bs with
    | [], _ => exact absurd ha (Nat.not_lt_zero _)
    | _ :: _, [] => exact absurd hb (Nat.not_lt_zero _)
    | a :: as, b :: bs => exact (hnil a as b bs rfl rfl).elim

/-! ### The input as a byte list -/

theorem inputIs.length_eq {s : State} {input : List Byte} (h : inputIs s input) : input.length = s.inLen.toNat := by
  rw [← h, inSlice_length]

theorem inputIs.getElem?_eq {s : State} {input : List Byte} (h : inputIs s input) {a : Nat}
    (ha : a < s.inLen.toNat) : input[a]? = some (inByte s a) := by
  rw [← h, List.getElem?_eq_getElem (by rwa [inSlice_length]), inSlice_getElem, Nat.zero_add]

theorem inputIs.congr {s s' : State} {input : List Byte} (h : inputIs s input) (hi : s'.inp = s.inp)
    (hn : s'.inLen = s.inLen) : inputIs s' input := by
  rw [inputIs, inSlice_congr hi, hn, h]

/-- `matchLenAt` is `L(p)` (R148): of the two strings it compares, the one from the cursor on is the shorter. -/
theorem matchLenAt_matchLen {s : State} {input : List Byte} (h : inputIs s input) {i p : Nat} (hp : p ≤ i)
    (hi : i ≤ s.inLen.toNat) : MatchLen s i p (matchLenAt input i p) := by
  have hinside : i + matchLenAt input i p ≤ s.inLen.toNat := by
    have := sharedLen_le_right (input.drop p) (input.drop i)
    rw [List.length_drop, h.length_eq] at this
    rw [matchLenAt]
    omega
  have hread {j : Nat} (hj : i + j < s.inLen.toNat) :
      (input.drop p)[j]? = some (inByte s (p + j)) ∧ (input.drop i)[j]? = some (inByte s (i + j)) := by
    rw [List.getElem?_drop, List.getElem?_drop]
    exact ⟨h.getElem?_eq (by omega), h.getElem?_eq hj⟩
  refine ⟨hinside, fun j hj => ?_, fun hend heq => ?_⟩
  · obtain ⟨hpj, hij⟩ := hread (j := j) (by omega)
    have := sharedLen_agree hj
    rwa [hpj, hij, Option.some_inj] at this
  · obtain ⟨hpk, hik⟩ := hread hend
    rw [matchLenAt] at hend
    refine sharedLen_ends ?_ ?_ (hpk.trans (heq ▸ hik.symm))
    · rw [List.length_drop, h.length_eq]; omega
    · rw [List.length_drop, h.length_eq]; omega

/-! ### The winner -/

/-- The closed form with only the positions below `m` looked at: `(0, 0)`, or the offset and the unclamped length of the
most recent of them with the greatest match length. -/
inductive BestBelow (s : State) (i m : Nat) : Nat × Nat → Prop where
  | none : (∀ q k, q < m → inWindow i q → MatchLen s i q k → k < Config.minMatch) → BestBelow s i m (0, 0)
  | found (p k : Nat) : p < m → inWindow i p → MatchLen s i p k → Config.minMatch ≤ k →
      (∀ q k', q < m → inWindow i q → MatchLen s i q k' → k' < k ∨ (k' = k ∧ q ≤ p)) → BestBelow s i m (i - p, k)

/-- A position whose match is too far back, too short, or shorter than the winner's changes nothing. -/
theorem BestBelow.keep {s : State} {i m : Nat} {best : Nat × Nat} (h : BestBelow s i m best)
    (hm : ∀ k, inWindow i m → MatchLen s i m k → k < Config.minMatch ∨ k < best.2) :
    BestBelow s i (m + 1) best := by
  cases h with
  | none hno =>
    refine .none fun q k hq hw hk => ?_
    rcases Nat.lt_succ_iff_lt_or_eq.mp hq with hq | rfl
    · exact hno q k hq hw hk
    · exact (hm k hw hk).resolve_right (Nat.not_lt_zero k)
  | found p len hp hw hlen h4 hbest =>
    refine .found p len (by omega) hw hlen h4 fun q k hq hwq hk => ?_
    rcases Nat.lt_succ_iff_lt_or_eq.mp hq with hq | rfl
    · exact hbest q k hq hwq hk
    · rcases hm k hwq hk with hshort | hshort <;> omega

/-- A position of the window whose match is long enough and no shorter than the winner's takes over. -/
theorem BestBelow.replace {s : State} {i m len : Nat} {best : Nat × Nat} (h : BestBelow s i m best)
    (hw : inWindow i m) (hlen : MatchLen s i m len) (h4 : Config.minMatch ≤ len) (hge : best.2 ≤ len) :
    BestBelow s i (m + 1) (i - m, len) := by
  refine .found m len (Nat.lt_succ_self m) hw hlen h4 fun q k hq hwq hk => ?_
  rcases Nat.lt_succ_iff_lt_or_eq.mp hq with hq | rfl
  · cases h with
    | none hno => have := hno q k hq hwq hk; omega
    | found p k' _ _ _ _ hbest => have := hbest q k hq hwq hk; omega
  · exact .inr ⟨matchLen_unique hk hlen, Nat.le_refl q⟩

theorem bestBelow_best {s : State} {input : List Byte} (h : inputIs s input) {i m : Nat} (hm : m ≤ i)
    (hi : i ≤ s.inLen.toNat) : BestBelow s i m (bestBelow input i m) := by
  induction m with
  | zero => exact .none fun q _ hq => absurd hq (Nat.not_lt_zero q)
  | succ m ih =>
    have hlen := matchLenAt_matchLen h (Nat.le_of_succ_le hm) hi
    rw [bestBelow]
    split
    case isTrue hwins => exact (ih (by omega)).replace ⟨hm, hwins.1⟩ hlen hwins.2.1 hwins.2.2
    case isFalse hloses =>
      refine (ih (by omega)).keep fun k hw hk => ?_
      have := matchLen_unique hk hlen
      have := hw.2
      omega

/-- What the reference looks up at a position is the pair R161 gives there. -/
theorem bestMatch_cursorPair {s : State} {input : List Byte} (h : inputIs s input) :
    CursorPair s (bestMatch input s.i.toNat).1 (bestMatch input s.i.toNat).2 where
  search hh := by
    have hbest := bestBelow_best h (Nat.le_refl s.i.toNat) (by omega)
    rw [bestMatch, h.length_eq]
    generalize bestBelow input s.i.toNat s.i.toNat = best at hbest ⊢
    cases hbest with
    | none hno =>
      rw [if_neg fun hc => hc.2 rfl]
      exact .noMatch fun p k hw => hno p k hw.1 hw
    | found p len hp hw hlen h4 hbest =>
      rw [if_pos ⟨hh, by show s.i.toNat - p ≠ 0; omega⟩]
      exact .isMatch p len hw hlen h4 fun q k hq => hbest q k hq.1 hq
  near hh := by
    rw [bestMatch, h.length_eq, if_neg fun hc => hh hc.1]
    exact ⟨rfl, rfl⟩

end Sys2Proof.Machine
end

section
/-! ## The fine grain of an ENCODE

Left alone, the engine takes the steps of the whole-command function one by one, to the same end (R231). -/

namespace Sys2Proof.Machine

theorem reaches.refl (s : State) : reaches s s := ⟨0, rfl⟩

theorem run_succ_of_step {M : Host.Core} {s s1 : M.State} (h : M.step s = .next s1) (k : Nat) :
    M.run (k + 1) s = M.run k s1 := by
  rw [Host.Core.run, h]

theorem reaches.of_step {s s1 s' : State} (h : step s = .next s1) (h' : reaches s1 s') : reaches s s' := by
  obtain ⟨k, hk⟩ := h'
  exact ⟨k + 1, (run_succ_of_step (M := Sys2Proof.core) h k).trans hk⟩

theorem reaches.single {s s' : State} (h : step s = .next s') : reaches s s' := .of_step h (.refl s')

/-- An ENCODE runs and the host makes no more moves. -/
structure EncodeAlone (s : State) : Prop where
  host : s.host = []
  busy : busy s
  cmd : s.cmd = opEncode

theorem EncodeAlone.congr {s s' : State} (h : EncodeAlone s) (he : EncodeEnd s s') (hr : SameResults s s') :
    EncodeAlone s' where
  host := by rw [he.frame]; exact h.host
  busy := hr.status.trans h.busy
  cmd := by rw [he.frame]; exact h.cmd

theorem EncodeAlone.step_eq {s : State} (h : EncodeAlone s) : step s = compressStep s := by
  rw [step_engineTurn (.inl ⟨h.host, rfl⟩), engineStep, if_neg (not_not.mpr h.busy), if_pos h.cmd]

section
variable {s : State} (h : EncodeAlone s)
include h

theorem EncodeAlone.step_encodeStep (hi : s.i.toNat < s.inLen.toNat) : step s = settle (encodeStep hashFn s) := by
  rw [h.step_eq, compressStep, if_pos hi]
  rfl

theorem EncodeAlone.step_flushRun (hi : s.inLen.toNat ≤ s.i.toNat) (hl : s.lit ≠ 0#7) :
    step s = settle (flushRun s) := by
  rw [h.step_eq, compressStep, if_neg (by omega), if_neg hl]
  rfl

theorem EncodeAlone.step_endCommand (hi : s.inLen.toNat ≤ s.i.toNat) (hl : s.lit = 0#7) :
    step s = .next (endCommand s) := by
  rw [h.step_eq, compressStep, if_neg (by omega), if_pos hl]

/-- With no input left the engine takes at most the final flush and the end of the command (R167, R170). -/
theorem EncodeAlone.reaches_encodeEnd (hi : s.inLen.toNat ≤ s.i.toNat) {s' : State}
    (hs : settle (encodeEnd s) = .next s') : reaches s s' := by
  rw [encodeEnd, flushPending] at hs
  by_cases hl : s.lit = 0#7
  · rw [if_pos hl] at hs
    cases hs
    exact .single (h.step_endCommand hi hl)
  · rw [if_neg hl] at hs
    have hstep := h.step_flushRun hi hl
    cases hfl : flushRun s with
    | error e => rw [hfl] at hs hstep; cases e <;> exact .single (hstep.trans hs)
    | ok s1 =>
      rw [hfl] at hs hstep
      cases hs
      obtain ⟨hem, hlit, -⟩ := flushRun_ok hfl
      refine .of_step hstep (.single ((h.congr hem.encodeEnd hem.sameResults).step_endCommand ?_ hlit))
      rw [hem.frame]
      exact hi

end

/-! ### How an ENCSTEP moves the cursor -/

theorem limitRun_emitted {s s' : State} (h : limitRun s = .ok s') : Emitted s s' := by
  unfold limitRun at h
  split at h
  · exact (flushRun_ok h).1
  · cases h; exact .refl s

/-- An ENCSTEP moves the cursor by the length of the pair it found (R165). -/
theorem advance_actOn_i_toNat {hf : Config.HashFn} {s s1 : State} {f : Found} (hi : s.i.toNat < s.inLen.toNat)
    (hs : searchCursor hf s = .ok f) (ha : actOn f = .ok s1) :
    (advance hf f.len s1).i.toNat = s.i.toNat + f.len := by
  obtain ⟨ei, en, -⟩ := searched_actOn_keeps hs ha
  have hpair := (searchCursor_ok hs).2
  rw [advance_i_toNat (by rw [ei, en]; omega), ei]

theorem encodeStep_ok_encodeEnd {hf : Config.HashFn} {s s' : State} (h : encodeStep hf s = .ok s') :
    EncodeEnd s s' := encodeStep_encodeEnd (settle_eq_next.mpr (.inl h))

/-- An ENCSTEP that goes on leaves STATUS and the other result registers. -/
theorem encodeStep_sameResults {hf : Config.HashFn} {s s' : State} (h : encodeStep hf s = .ok s') :
    SameResults s s' := by
  obtain ⟨hi, f, s1, hs, ha, hl⟩ := encodeStep_ok h
  exact (actOn_advance_encodeEnd hi hs ha).2.trans (limitRun_emitted hl).sameResults

theorem encodeStep_rises {hf : Config.HashFn} {s s' : State} (h : encodeStep hf s = .ok s') :
    s.i.toNat < s'.i.toNat := by
  obtain ⟨hi, f, s1, hs, ha, hl⟩ := encodeStep_ok h
  have hpair := (searchCursor_ok hs).2
  rw [(limitRun_emitted hl).frame]
  show _ < (advance hf f.len s1).i.toNat
  rw [advance_actOn_i_toNat hi hs ha]
  omega

/-- The engine's steps reach the end of the ENCODE pseudocode's loop, given enough turns for the input left. -/
theorem EncodeAlone.reaches_encodeLoop {fuel : Nat} {s s' : State} (h : EncodeAlone s)
    (hfuel : s.inLen.toNat ≤ s.i.toNat + fuel) (hs : settle (encodeLoop hashFn fuel s) = .next s') :
    reaches s s' := by
  induction fuel generalizing s with
  | zero => exact h.reaches_encodeEnd hfuel hs
  | succ n ih =>
    rw [encodeLoop] at hs
    split at hs
    case isFalse hend => exact h.reaches_encodeEnd (by omega) hs
    case isTrue hi =>
      have hstep := h.step_encodeStep hi
      cases he : encodeStep hashFn s with
      | error e => rw [he] at hs hstep; exact .single (hstep.trans hs)
      | ok s1 =>
        rw [he] at hs hstep
        have hend := encodeStep_ok_encodeEnd he
        have hrises := encodeStep_rises he
        refine .of_step hstep (ih (h.congr hend (encodeStep_sameResults he)) ?_ hs)
        rw [show s1.inLen = s.inLen by rw [hend.frame]]
        omega

end Sys2Proof.Machine
end

section
/-! ## ENCODE's stream

Each piece of the encoder appends the encodings of its tokens to OUT, and those are the tokens the closed form has from
the cursor on. With `OUT_CAP` at least twice `IN_LEN` every piece fits (R172), so the whole stream is written. -/

namespace Sys2Proof.Machine

/-! ### What is appended to OUT -/

theorem outSlice_append {s s' : State} {n : Nat} {bytes : List Byte} (hsame : ∀ a, a < n → outByte s' a = outByte s a)
    (hholds : outHolds s' n bytes) : outSlice s' (n + bytes.length) = outSlice s n ++ bytes := by
  have hbelow : outSlice s' n = outSlice s n := List.map_congr_left fun a ha => hsame a (List.mem_range.mp ha)
  rw [outSlice, List.range_add, List.map_append, List.map_map, ← hbelow, outSlice]
  refine congrArg _ (List.ext_getElem (by simp) fun j _ hj => ?_)
  simpa using hholds j hj

theorem encodeStream_append (xs ys : List Instr) : encodeStream (xs ++ ys) = encodeStream xs ++ encodeStream ys :=
  List.flatMap_append

/-- From `s` to `s'` the output written so far has grown by the encodings of these tokens. -/
def Emits (s s' : State) (toks : List Instr) : Prop :=
  outSlice s' s'.o.toNat = outSlice s s.o.toNat ++ encodeStream toks

theorem Emits.of_same {s s' : State} (hout : s'.out = s.out) (ho : s'.o = s.o) : Emits s s' [] := by
  rw [Emits, ho, encodeStream, List.flatMap_nil, List.append_nil]
  simp only [outSlice, outByte, hout]

theorem Emits.trans {a b c : State} {xs ys : List Instr} (h : Emits a b xs) (h' : Emits b c ys) :
    Emits a c (xs ++ ys) := by
  rw [Emits, h', h, encodeStream_append, List.append_assoc]

/-- One token written at `o` and nothing changed below it. -/
theorem Emits.of_token {s s' : State} {tok : Instr} {bytes : List Byte} (he : tokenEncoding tok = some bytes)
    (ho : s'.o.toNat = s.o.toNat + bytes.length) (hem : Emitted s s') (hholds : outHolds s' s.o.toNat bytes) :
    Emits s s' [tok] := by
  rw [Emits, ho, outSlice_append (fun a ha => hem.outside a (.inl ha)) hholds, encodeStream_cons he]
  simp [encodeStream]

theorem flushRun_emits {s s' : State} (h : flushRun s = .ok s') : Emits s s' [.lit (pendingRun s)] := by
  obtain ⟨hem, -, ho, -, hholds, -⟩ := flushRun_ok h
  exact .of_token rfl (by rw [ho, encodeLit_length, pendingRun_length]; omega) hem hholds

theorem emitToken_emits {len : LenField} {off : OffField} {s s' : State} (h : emitToken len off s = .ok s') :
    Emits s s' [.matchTok len off] := by
  obtain ⟨hem, -, ho, hholds, -⟩ := emitToken_ok h
  exact .of_token rfl ho hem hholds

theorem runTokens_of_ne_nil {run : List Byte} (h : run ≠ []) : runTokens run = [.lit run] := if_neg h

theorem pendingRun_eq_nil_iff {s : State} : pendingRun s = [] ↔ s.lit = 0#7 := by
  rw [← List.length_eq_zero_iff, pendingRun_length, BitVec.toNat_eq]
  rfl

theorem flushPending_emits {s s' : State} (h : flushPending s = .ok s') :
    Emits s s' (runTokens (pendingRun s)) := by
  unfold flushPending at h
  split at h
  case isTrue hl =>
    cases h
    rw [pendingRun_eq_nil_iff.mpr hl]
    exact .of_same rfl rfl
  case isFalse hl =>
    rw [runTokens_of_ne_nil (mt pendingRun_eq_nil_iff.mp hl)]
    exact flushRun_emits h

theorem takeMatch_emits {off len : Nat} {s s' : State} (h : takeMatch off len s = .ok s') :
    Emits s s' (runTokens (pendingRun s) ++ [.matchTok (BitVec.ofNat 7 len) (BitVec.ofNat 16 off)]) := by
  obtain ⟨s1, hflush, hmatch⟩ := bind_eq_ok.mp h
  exact (flushPending_emits hflush).trans (emitToken_emits hmatch)

/-! ### With room for twice the input nothing raises `BufferTooSmall` -/

theorem Answers.goesOn {α : Type} {x : Exec α} (h : Answers x) (hr : ∀ s, x ≠ .error (.raised s)) :
    ∃ a, x = .ok a := by
  rcases x with (s | f) | a
  · exact absurd rfl (hr s)
  · exact absurd rfl (h f)
  · exact ⟨a, rfl⟩

theorem flushRun_raised_full {s s' : State} (h : flushRun s = .error (.raised s')) :
    1 ≤ s.lit.toNat ∧ s.outCap.toNat < s.o.toNat + 1 + s.lit.toNat := by
  rcases flushRun_cases s with ⟨_, e⟩ | ⟨h0, hfull, _⟩ | ⟨_, _, _, e⟩ | ⟨_, _, _, _, e⟩
  · rw [e] at h; cases h
  · have hpos : s.lit.toNat ≠ 0 := fun e => h0 (BitVec.eq_of_toNat_eq e)
    unfold fitsOut at hfull
    omega
  · rw [e] at h; cases h
  · rw [e] at h; cases h

theorem emitToken_raised_full {len : LenField} {off : OffField} {s s' : State}
    (h : emitToken len off s = .error (.raised s')) : s.outCap.toNat < s.o.toNat + 3 := by
  unfold emitToken at h
  split at h
  case isTrue => cases h
  case isFalse hfull => simpa [fitsOut] using hfull

/-- A match that does not fit with the run before it has no room for the run's bytes and 4 more (R163). -/
theorem takeMatch_raised_full {off len : Nat} {s s' : State} (h : takeMatch off len s = .error (.raised s')) :
    s.outCap.toNat < s.o.toNat + s.lit.toNat + 4 := by
  unfold takeMatch flushPending at h
  by_cases hl : s.lit = 0#7
  · rw [if_pos hl, ok_bind] at h
    have := emitToken_raised_full h
    omega
  · rw [if_neg hl] at h
    rcases bind_eq_error.mp h with hflush | ⟨s1, hflush, hmatch⟩
    · have := flushRun_raised_full hflush
      omega
    · obtain ⟨hem, -, ho, -⟩ := flushRun_ok hflush
      have hfull := emitToken_raised_full hmatch
      rw [show s1.outCap = s.outCap by rw [hem.frame]] at hfull
      omega

/-- The run's own bytes pay for its header (R172). -/
theorem flushRun_not_raised {s : State} (hi : s.i.toNat ≤ s.inLen.toNat) (hl : s.lit.toNat ≤ s.i.toNat)
    (hbound : s.o.toNat ≤ Config.encBoundFactor * (s.i.toNat - s.lit.toNat))
    (hcap : 2 * s.inLen.toNat ≤ s.outCap.toNat) (s' : State) : flushRun s ≠ .error (.raised s') := fun h => by
  have := flushRun_raised_full h
  simp only [Config.encBoundFactor] at hbound
  omega

theorem limitRun_not_raised {hf : Config.HashFn} {s : State} (h : EncodeAdvanced hf s)
    (hcap : 2 * s.inLen.toNat ≤ s.outCap.toNat) (s' : State) : limitRun s ≠ .error (.raised s') := fun hl => by
  unfold limitRun at hl
  split at hl
  · exact flushRun_not_raised h.cursor h.runBehind h.outBound hcap s' hl
  · cases hl

section
variable {hf : Config.HashFn} {s : State} (hr : EncodeRunning hf s) (hcap : 2 * s.inLen.toNat ≤ s.outCap.toNat)
include hr hcap

theorem EncodeRunning.actOn_not_raised {f : Found} (hs : searchCursor hf s = .ok f) (s' : State) :
    actOn f ≠ .error (.raised s') := fun ha => by
  obtain ⟨hfr, hpair⟩ := searchCursor_ok hs
  unfold actOn at ha
  split at ha
  · unfold growRun at ha; split at ha <;> cases ha
  · have hfull := takeMatch_raised_full ha
    rw [hfr] at hfull
    have hbound := hr.outBound
    have hbehind := hr.runBehind
    simp only [Config.encBoundFactor] at hbound hfull
    omega

theorem EncodeRunning.encodeStep_goesOn (hi : s.i.toNat < s.inLen.toNat) : ∃ s', encodeStep hf s = .ok s' := by
  refine (encodeStep_answers hr hi).goesOn fun s' h => ?_
  obtain ⟨-, f, hs, ha | ⟨s1, ha, hl⟩⟩ := encodeStep_raised h
  · exact hr.actOn_not_raised hcap hs s' ha
  · obtain ⟨-, en, ecap, -⟩ := searched_actOn_keeps hs ha
    refine limitRun_not_raised (actOn_advanced hr hi hs ha) ?_ s' hl
    rwa [advance_inLen, advance_outCap, en, ecap]

theorem EncodeRunning.flushPending_goesOn : ∃ s', flushPending s = .ok s' := by
  refine (flushPending_answers hr.runBehind hr.cursor).goesOn fun s' h => ?_
  unfold flushPending at h
  split at h
  · cases h
  · exact flushRun_not_raised hr.cursor hr.runBehind hr.outBound hcap s' h

end

/-! ### The tokens from the cursor on -/

section
variable {input : List Byte} {i : Nat} {run : List Byte}

theorem tokensFrom_atEnd (h : input.length ≤ i) (fuel : Nat) : tokensFrom input fuel i run = runTokens run := by
  cases fuel with
  | zero => rfl
  | succ n => rw [tokensFrom, dif_neg (by omega)]

theorem tokensFrom_noMatch (h : i < input.length) (hm : (bestMatch input i).1 = 0) (fuel : Nat) :
    tokensFrom input (fuel + 1) i run =
      if (run ++ [input[i]]).length = Config.maxLen then
        .lit (run ++ [input[i]]) :: tokensFrom input fuel (i + 1) []
      else tokensFrom input fuel (i + 1) (run ++ [input[i]]) := by
  rw [tokensFrom, dif_pos h]
  exact if_pos hm

theorem tokensFrom_match (h : i < input.length) (hm : (bestMatch input i).1 ≠ 0) (fuel : Nat) :
    tokensFrom input (fuel + 1) i run =
      runTokens run ++ [.matchTok (BitVec.ofNat 7 (bestMatch input i).2) (BitVec.ofNat 16 (bestMatch input i).1)] ++
        tokensFrom input fuel (i + (bestMatch input i).2) [] := by
  rw [tokensFrom, dif_pos h, List.append_assoc]
  exact if_neg hm

end

/-- The closed form's tokens from a state of the encoder on: from its cursor, with its pending run. -/
def tokensAhead (input : List Byte) (fuel : Nat) (s : State) : List Instr :=
  tokensFrom input fuel s.i.toNat (pendingRun s)

theorem pendingRun_congr {s s' : State} (hi : s'.i = s.i) (hl : s'.lit = s.lit) (hinp : s'.inp = s.inp) :
    pendingRun s' = pendingRun s := by
  rw [pendingRun, hi, hl, inSlice_congr hinp, pendingRun]

theorem inSlice_succ (s : State) (a n : Nat) : inSlice s a (n + 1) = inSlice s a n ++ [inByte s (a + n)] := by
  rw [inSlice, List.range_succ, List.map_append, inSlice]
  rfl

/-- The run grows by the byte at the cursor when both move on by one (R162). -/
theorem pendingRun_grown {s s' : State} (hinp : s'.inp = s.inp) (hl : s'.lit.toNat = s.lit.toNat + 1)
    (hi : s'.i.toNat = s.i.toNat + 1) (hbehind : s.lit.toNat ≤ s.i.toNat) :
    pendingRun s' = pendingRun s ++ [inByte s s.i.toNat] := by
  rw [pendingRun, hl, hi, inSlice_congr hinp, inSlice_succ, Nat.add_sub_add_right, Nat.sub_add_cancel hbehind,
    pendingRun]

/-- The search is seen neither in OUT nor in the pending run. -/
theorem searchFrame.emits {s s' : State} (h : searchFrame s s') : Emits s s' [] :=
  .of_same (by rw [h]) (by rw [h])

theorem searchFrame.pendingRun_eq {s s' : State} (h : searchFrame s s') : pendingRun s' = pendingRun s :=
  pendingRun_congr (by rw [h]) (by rw [h]) (by rw [h])

theorem advance_emits (hf : Config.HashFn) (len : Nat) (s : State) : Emits s (advance hf len s) [] :=
  .of_same (by rw [advance_frame]) (by rw [advance_frame])

@[simp] theorem advance_inp (hf : Config.HashFn) (len : Nat) (s : State) : (advance hf len s).inp = s.inp := by
  rw [advance_frame]

/-! ### One ENCSTEP -/

section
variable {hf : Config.HashFn} {s s1 : State} {f : Found} (hi : s.i.toNat < s.inLen.toNat)
  (hs : searchCursor hf s = .ok f) (ha : actOn f = .ok s1)
include hi hs ha

/-- Without a match nothing is emitted, and the byte at the cursor joins the run (R162). -/
theorem noMatch_emits (h0 : f.off = 0) (hbehind : s.lit.toNat ≤ s.i.toNat) :
    Emits s (advance hf f.len s1) [] ∧ (advance hf f.len s1).i.toNat = s.i.toNat + 1 ∧
      pendingRun (advance hf f.len s1) = pendingRun s ++ [inByte s s.i.toNat] := by
  obtain ⟨hfr, hpair⟩ := searchCursor_ok hs
  obtain ⟨-, -, -, einp, -⟩ := searched_actOn_keeps hs ha
  have hlen : f.len = 1 := by omega
  obtain ⟨hlit, ho, hout⟩ : s1.lit.toNat = f.st.lit.toNat + 1 ∧ s1.o = f.st.o ∧ s1.out = f.st.out := by
    rcases (actOn_ok ha).2 with ⟨_, hgrown⟩ | ⟨hne, _⟩
    · exact hgrown
    · exact absurd h0 hne
  have hcursor : (advance hf f.len s1).i.toNat = s.i.toNat + 1 := by rw [advance_actOn_i_toNat hi hs ha, hlen]
  refine ⟨(hfr.emits.trans (.of_same hout ho)).trans (advance_emits hf f.len s1), hcursor,
    pendingRun_grown (by rw [advance_inp, einp]) ?_ hcursor hbehind⟩
  rw [advance_lit, hlit, hfr]

/-- With a match the run and the match are emitted, and no run is left (R163). -/
theorem match_emits (h0 : f.off ≠ 0) :
    Emits s (advance hf f.len s1)
        (runTokens (pendingRun s) ++ [.matchTok (BitVec.ofNat 7 f.len) (BitVec.ofNat 16 f.off)]) ∧
      (advance hf f.len s1).i.toNat = s.i.toNat + f.len ∧ (advance hf f.len s1).lit = 0#7 := by
  have hfr := (searchCursor_ok hs).1
  have hlit : s1.lit = 0#7 := by
    rcases (actOn_ok ha).2 with ⟨h, _⟩ | ⟨_, hlit, _⟩
    · exact absurd h h0
    · exact hlit
  have htake : takeMatch f.off f.len f.st = .ok s1 := by rw [← ha, actOn, if_neg h0]
  have hem := (hfr.emits.trans (takeMatch_emits htake)).trans (advance_emits hf f.len s1)
  rw [List.nil_append, List.append_nil, hfr.pendingRun_eq] at hem
  exact ⟨hem, advance_actOn_i_toNat hi hs ha, by rw [advance_lit, hlit]⟩

end

/-- A full run goes out and leaves none (R166). -/
theorem limitRun_full {s s' : State} (h : limitRun s = .ok s') (hfull : s.lit.toNat = Config.maxLen) :
    Emits s s' [.lit (pendingRun s)] ∧ pendingRun s' = [] := by
  rw [limitRun, if_pos hfull] at h
  obtain ⟨-, hlit, -⟩ := flushRun_ok h
  exact ⟨flushRun_emits h, pendingRun_eq_nil_iff.mpr hlit⟩

theorem limitRun_short {s s' : State} (h : limitRun s = .ok s') (hshort : s.lit.toNat ≠ Config.maxLen) : s' = s := by
  rw [limitRun, if_neg hshort] at h
  cases h
  rfl

theorem bestMatch_eq_found {hf : Config.HashFn} {s : State} {f : Found} {input : List Byte}
    (hidx : IndexOf hf s.i.toNat s) (hin : inputIs s input) (hs : searchCursor hf s = .ok f) :
    (bestMatch input s.i.toNat).1 = f.off ∧ (bestMatch input s.i.toNat).2 = f.len := by
  obtain ⟨f', hs', hpair⟩ := searchCursor_finds hidx
  cases hs.symm.trans hs'
  exact (bestMatch_cursorPair hin).unique hpair

/-- An ENCSTEP emits the tokens by which the closed form moves on: none or a full run where there is no match, else the
pending run and the match. -/
theorem encodeStep_emits {hf : Config.HashFn} {s s' : State} {input : List Byte} (hr : EncodeRunning hf s)
    (hin : inputIs s input) (h : encodeStep hf s = .ok s') (fuel : Nat) :
    ∃ toks, Emits s s' toks ∧ tokensAhead input (fuel + 1) s = toks ++ tokensAhead input fuel s' := by
  obtain ⟨hi, f, s1, hs, ha, hl⟩ := encodeStep_ok h
  obtain ⟨hoff, hlen⟩ := bestMatch_eq_found hr.index hin hs
  have hlt : s.i.toNat < input.length := by rwa [hin.length_eq]
  have hcursor : s'.i = (advance hf f.len s1).i := by rw [(limitRun_emitted hl).frame]
  by_cases h0 : f.off = 0
  · obtain ⟨hem, hnext, hrun⟩ := noMatch_emits hi hs ha h0 hr.runBehind
    have hbyte : input[s.i.toNat] = inByte s s.i.toNat := by
      rw [← Option.some_inj, ← List.getElem?_eq_getElem hlt, hin.getElem?_eq hi]
    have hstep := tokensFrom_noMatch (run := pendingRun s) hlt (hoff.trans h0) fuel
    rw [hbyte, ← hrun, pendingRun_length, ← hnext] at hstep
    by_cases hfull : (advance hf f.len s1).lit.toNat = Config.maxLen
    · obtain ⟨hflush, hnil⟩ := limitRun_full hl hfull
      refine ⟨_, hem.trans hflush, ?_⟩
      rw [tokensAhead, hstep, if_pos hfull, tokensAhead, hcursor, hnil]
      rfl
    · cases limitRun_short hl hfull
      refine ⟨_, hem, ?_⟩
      rw [tokensAhead, hstep, if_neg hfull, tokensAhead, List.nil_append]
  · obtain ⟨hem, hnext, hnil⟩ := match_emits hi hs ha h0
    cases limitRun_short hl (by rw [hnil]; decide)
    refine ⟨_, hem, ?_⟩
    rw [tokensAhead, tokensFrom_match hlt (hoff ▸ h0), hoff, hlen, tokensAhead, hnext, pendingRun_eq_nil_iff.mpr hnil]

/-! ### The whole command -/

/-- The end of the ENCODE pseudocode writes what is left of the run and ends the command (R167, R170). -/
theorem encodeEnd_emits {hf : Config.HashFn} {s : State} (hr : EncodeRunning hf s)
    (hcap : 2 * s.inLen.toNat ≤ s.outCap.toNat) :
    ∃ s', encodeEnd s = .ok s' ∧ s'.status = statusDone ∧
      outputIs s' (outSlice s s.o.toNat ++ encodeStream (runTokens (pendingRun s))) := by
  obtain ⟨s1, hflush⟩ := hr.flushPending_goesOn hcap
  have hem := flushPending_emits hflush
  exact ⟨endCommand s1, by rw [encodeEnd, hflush, ok_map], rfl, hem⟩

/-- From a running state on, an ENCODE with room for twice its input appends the closed form's tokens and ends DONE. -/
theorem encodeLoop_emits {hf : Config.HashFn} {input : List Byte} (fuel : Nat) {s : State} (hr : EncodeRunning hf s)
    (hin : inputIs s input) (hcap : 2 * s.inLen.toNat ≤ s.outCap.toNat) :
    ∃ s', encodeLoop hf fuel s = .ok s' ∧ s'.status = statusDone ∧
      outputIs s' (outSlice s s.o.toNat ++ encodeStream (tokensAhead input fuel s)) := by
  induction fuel generalizing s with
  | zero => exact encodeEnd_emits hr hcap
  | succ n ih =>
    by_cases hi : s.i.toNat < s.inLen.toNat
    · obtain ⟨s1, hstep⟩ := hr.encodeStep_goesOn hcap hi
      have hframe := (encodeStep_ok_encodeEnd hstep).frame
      have en : s1.inLen = s.inLen := by rw [hframe]
      have ecap : s1.outCap = s.outCap := by rw [hframe]
      obtain ⟨toks, hem, htoks⟩ := encodeStep_emits hr hin hstep n
      obtain ⟨s', hloop, hdone, hout⟩ :=
        ih (encodeStep_running hr hstep) (hin.congr (by rw [hframe]) en) (by rwa [en, ecap])
      refine ⟨s', by rw [encodeLoop, if_pos hi, hstep, ok_bind, hloop], hdone, ?_⟩
      rwa [hem, List.append_assoc, ← encodeStream_append, ← htoks] at hout
    · rw [encodeLoop, if_neg hi, tokensAhead, tokensFrom_atEnd (by rw [hin.length_eq]; omega)]
      exact encodeEnd_emits hr hcap

theorem encodeAlone_start {s : State} (h : quiet s) : EncodeAlone (startEncode s) := ⟨h.2, rfl, rfl⟩

theorem exec_encode_of_quiet {s : State} (h : quiet s) : exec .encode s = .next (startEncode s) :=
  congrArg Host.Outcome.next (if_neg h.1)

/-- Settles O56: the whole-command function emits the closed form's tokens, and the engine's steps reach its end. -/
theorem encodeEmitsClosedForm : Obligations.EncodeEmitsClosedForm := by
  unfold Obligations.EncodeEmitsClosedForm
  intro s input hq hin hcap
  obtain ⟨s', hloop, hdone, hout⟩ :=
    encodeLoop_emits s.inLen.toNat (encodeRunning_start hashFn s) (s := startEncode s) hin hcap
  refine ⟨startEncode s, s', exec_encode_of_quiet hq,
    (encodeAlone_start hq).reaches_encodeLoop (Nat.le_add_left _ _) (congrArg settle hloop), hdone, ?_⟩
  rw [tokensOf, hin.length_eq]
  exact hout

end Sys2Proof.Machine
end

section
/-! ## The ends of an ENCODE's steps

An ENCSTEP of a running ENCODE goes on to a running state or raises the encoder's one fault, and the end of the command
is the end of a running state, whose bound on `o` is R172. -/

namespace Sys2Proof.Machine

/-- The engine's fault in an ENCSTEP is the encoder's own, from the state the step had reached (R243 to R246). -/
theorem encodeStep_raised_fault {hf : Config.HashFn} {s s' : State} (h : encodeStep hf s = .error (.raised s')) :
    ∃ s1, s' = encoderFault s1 := by
  obtain ⟨-, f, -, ha | ⟨s1, -, hl⟩⟩ := encodeStep_raised h
  · rcases actOn_raised ha with rfl | ⟨s1, -, rfl⟩ <;> exact ⟨_, rfl⟩
  · unfold limitRun at hl
    split at hl
    · exact ⟨_, flushRun_raised hl⟩
    · cases hl

/-- Settles O35: an ENCSTEP of a running ENCODE does not stop; where it goes on it keeps the invariant and has moved the
cursor, else it has raised the encoder's fault. -/
theorem encStepKeepsRunning : Obligations.EncStepKeepsRunning := by
  unfold Obligations.EncStepKeepsRunning
  intro hf s hr hi
  rcases hstep : encodeStep hf s with (s' | f) | s'
  · obtain ⟨s1, rfl⟩ := encodeStep_raised_fault hstep
    exact .inr ⟨_, rfl, rfl, rfl, rfl, rfl⟩
  · exact absurd hstep (encodeStep_answers hr hi f)
  · exact .inl ⟨s', rfl, encodeStep_running hr hstep, encodeStep_rises hstep, (encodeStep_sameResults hstep).status⟩

theorem flushPending_running {hf : Config.HashFn} {s s' : State} (hr : EncodeRunning hf s)
    (h : flushPending s = .ok s') : EncodeRunning hf s' ∧ s'.inLen = s.inLen := by
  unfold flushPending at h
  split at h
  · cases h; exact ⟨hr, rfl⟩
  · exact ⟨flushRun_running hr h, by rw [(flushRun_ok h).1.frame]⟩

theorem encodeEnd_ends {hf : Config.HashFn} {s s' : State} (hr : EncodeRunning hf s) (h : encodeEnd s = .ok s') :
    ∃ s1, EncodeRunning hf s1 ∧ s1.inLen = s.inLen ∧ s' = endCommand s1 := by
  rw [encodeEnd] at h
  cases hflush : flushPending s with
  | error e => rw [hflush] at h; cases h
  | ok s1 =>
    rw [hflush] at h
    cases h
    obtain ⟨hr1, en⟩ := flushPending_running hr hflush
    exact ⟨s1, hr1, en, rfl⟩

/-- An ENCODE that ends without fault ends in a state between its steps. -/
theorem encodeLoop_ends {hf : Config.HashFn} (fuel : Nat) {s s' : State} (hr : EncodeRunning hf s)
    (h : encodeLoop hf fuel s = .ok s') :
    ∃ s1, EncodeRunning hf s1 ∧ s1.inLen = s.inLen ∧ s' = endCommand s1 := by
  induction fuel generalizing s with
  | zero => exact encodeEnd_ends hr h
  | succ n ih =>
    rw [encodeLoop] at h
    split at h
    · obtain ⟨s1, hstep, hloop⟩ := bind_eq_ok.mp h
      have en : s1.inLen = s.inLen := by rw [(encodeStep_ok_encodeEnd hstep).frame]
      rw [← en]
      exact ih (encodeStep_running hr hstep) hloop
    · exact encodeEnd_ends hr h

/-- Between the steps of an ENCODE at most twice the input's length is written (R172). -/
theorem EncodeRunning.o_le {hf : Config.HashFn} {s : State} (hr : EncodeRunning hf s) :
    s.o.toNat ≤ 2 * s.inLen.toNat := by
  have hbound := hr.outBound
  have hcursor := hr.cursor
  simp only [Config.encBoundFactor] at hbound
  omega

/-- Settles O55: with that room the whole-command function goes on to its end, and the bound of the running state it
ends in is the bound of `OUT_LEN`. -/
theorem encodeFitsTwiceTheInput : Obligations.EncodeFitsTwiceTheInput := by
  unfold Obligations.EncodeFitsTwiceTheInput
  intro s hq hcap
  have hr := encodeRunning_start hashFn s
  obtain ⟨s', hloop, hdone, -⟩ := encodeLoop_emits s.inLen.toNat hr (s := startEncode s) rfl hcap
  obtain ⟨s1, hr1, en, rfl⟩ := encodeLoop_ends _ hr hloop
  refine ⟨startEncode s, endCommand s1, exec_encode_of_quiet hq,
    (encodeAlone_start hq).reaches_encodeLoop (Nat.le_add_left _ _) (congrArg settle hloop), hdone, ?_⟩
  have ho := hr1.o_le
  rwa [en] at ho

end Sys2Proof.Machine
end

section
/-! ## The closed form's tokens are legal and stand for the input (R174, R175)

`Tokenized` is the run of the closed form, one constructor per decision. What the tokens of an input are is read off it,
by induction on the run. -/

namespace Sys2Proof.Machine

/-! ### The closed form's pair on byte lists -/

/-- `(off, len)` is a true match at cursor `i` within the encoder's bounds (R140, R146). -/
structure TrueMatch (input : List Byte) (i off len : Nat) : Prop where
  offset : 1 ≤ off ∧ off ≤ i ∧ off ≤ 65535
  length : 4 ≤ len ∧ len ≤ 127
  inside : i + len ≤ input.length
  agree : ∀ j, j < len → input[i + j]? = input[i - off + j]?

theorem matchLenAt_inside {input : List Byte} {i : Nat} (hi : i ≤ input.length) (p : Nat) :
    i + matchLenAt input i p ≤ input.length := by
  have := sharedLen_le_right (input.drop p) (input.drop i)
  rw [List.length_drop] at this
  rw [matchLenAt]
  omega

theorem matchLenAt_agree {input : List Byte} {i p j : Nat} (h : j < matchLenAt input i p) :
    input[i + j]? = input[p + j]? := by
  have := sharedLen_agree h
  rw [List.getElem?_drop, List.getElem?_drop] at this
  exact this.symm

/-- The winner below `m` is `(0, 0)` or the offset and match length of a window position. -/
theorem bestBelow_cases (input : List Byte) (i m : Nat) :
    bestBelow input i m = (0, 0) ∨ ∃ p, p < m ∧ i - p ≤ Config.window ∧ Config.minMatch ≤ matchLenAt input i p ∧
      bestBelow input i m = (i - p, matchLenAt input i p) := by
  induction m with
  | zero => exact .inl rfl
  | succ m ih =>
    rw [bestBelow]
    split
    case isTrue hwins => exact .inr ⟨m, Nat.lt_succ_self m, hwins.1, hwins.2.1, rfl⟩
    case isFalse =>
      refine ih.imp_right ?_
      rintro ⟨p, hp, hrest⟩
      exact ⟨p, Nat.lt_succ_of_lt hp, hrest⟩

/-- Where the closed form answers a match, it is a true one. -/
theorem bestMatch_trueMatch {input : List Byte} {i : Nat} (hi : i < input.length) (h : (bestMatch input i).1 ≠ 0) :
    TrueMatch input i (bestMatch input i).1 (bestMatch input i).2 := by
  have hinside := matchLenAt_inside (Nat.le_of_lt hi)
  unfold bestMatch at h ⊢
  simp only at h ⊢
  split at h
  case isFalse => exact absurd rfl h
  case isTrue hc =>
    rw [if_pos hc]
    rcases bestBelow_cases input i i with e | ⟨p, hp, hw, h4, e⟩
    · rw [e] at hc; exact absurd rfl hc.2
    · have := hinside p
      simp only [e, Config.window, Config.minMatch, Config.maxLen] at hw h4 ⊢
      refine ⟨⟨by omega, by omega, hw⟩, ⟨by omega, by omega⟩, by omega, fun j hj => ?_⟩
      rw [Nat.sub_sub_self (Nat.le_of_lt hp)]
      exact matchLenAt_agree (by omega)

/-! ### The run of the closed form -/

/-- The encoder's decisions from cursor `i` with a pending run to the end of the input (R161 to R167), and the tokens
they give. -/
inductive Tokenized (input : List Byte) : Nat → List Byte → List Instr → Prop where
  /-- The input is exhausted: the final flush (R167). -/
  | final (run : List Byte) : Tokenized input input.length run (runTokens run)
  /-- No match and room in the run (R162). -/
  | grown {i : Nat} {run : List Byte} {toks : List Instr} (h : i < input.length) :
      (run ++ [input[i]]).length < Config.maxLen → Tokenized input (i + 1) (run ++ [input[i]]) toks →
      Tokenized input i run toks
  /-- No match, and the run is full (R166). -/
  | full {i : Nat} {run : List Byte} {toks : List Instr} (h : i < input.length) :
      (run ++ [input[i]]).length = Config.maxLen → Tokenized input (i + 1) [] toks →
      Tokenized input i run (.lit (run ++ [input[i]]) :: toks)
  /-- A match (R163). -/
  | matched {i off len : Nat} {run : List Byte} {toks : List Instr} : TrueMatch input i off len →
      Tokenized input (i + len) [] toks →
      Tokenized input i run (runTokens run ++ .matchTok (BitVec.ofNat 7 len) (BitVec.ofNat 16 off) :: toks)

/-- The reference is such a run, given a decision for every byte left. -/
theorem tokensFrom_tokenized {input : List Byte} (fuel : Nat) {i : Nat} {run : List Byte} (hi : i ≤ input.length)
    (hfuel : input.length ≤ i + fuel) (hrun : run.length < Config.maxLen) :
    Tokenized input i run (tokensFrom input fuel i run) := by
  induction fuel generalizing i run with
  | zero =>
    obtain rfl : i = input.length := by omega
    exact .final run
  | succ n ih =>
    by_cases hlt : i < input.length
    · by_cases hm : (bestMatch input i).1 = 0
      · rw [tokensFrom_noMatch hlt hm]
        have hlen : (run ++ [input[i]]).length = run.length + 1 := List.length_append
        split
        case isTrue hfull => exact .full hlt hfull (ih hlt (by omega) (by decide))
        case isFalse hroom =>
          have hshort : (run ++ [input[i]]).length < Config.maxLen := by omega
          exact .grown hlt hshort (ih hlt (by omega) hshort)
      · rw [tokensFrom_match hlt hm, List.append_assoc]
        have htrue := bestMatch_trueMatch hlt hm
        have := htrue.length
        exact .matched htrue (ih htrue.inside (by omega) (by decide))
    · obtain rfl : i = input.length := by omega
      rw [tokensFrom_atEnd (Nat.le_refl _)]
      exact .final run

theorem tokensOf_tokenized (input : List Byte) : Tokenized input 0 [] (tokensOf input) :=
  tokensFrom_tokenized input.length (Nat.zero_le _) (Nat.le_add_left _ _) (by decide)

/-! ### The tokens are legal -/

/-- A token ENCODE may emit: well-formed, and a literal run or a match of 4 bytes and more (R174). -/
def Emittable (tok : Instr) : Prop :=
  tok.wf = true ∧ ((∃ bytes, tok = .lit bytes) ∨ ∃ len off, tok = .matchTok len off ∧ 4 ≤ len.toNat)

theorem emittable_lit {bytes : List Byte} (h1 : 1 ≤ bytes.length) (h2 : bytes.length ≤ 127) :
    Emittable (.lit bytes) := ⟨(wf_lit bytes).mpr ⟨h1, h2⟩, .inl ⟨bytes, rfl⟩⟩

theorem emittable_of_mem_runTokens {run : List Byte} (h : run.length < Config.maxLen) :
    ∀ tok ∈ runTokens run, Emittable tok := by
  intro tok hmem
  unfold runTokens at hmem
  split at hmem
  · cases hmem
  · rename_i hne
    obtain rfl := List.mem_singleton.mp hmem
    exact emittable_lit (List.length_pos_iff.mpr hne) (Nat.le_of_lt h)

section
variable {input : List Byte} {i off len : Nat} (h : TrueMatch input i off len)
include h

theorem TrueMatch.len_toNat : (BitVec.ofNat 7 len).toNat = len := lenField_toNat (by have := h.length; omega)

theorem TrueMatch.off_toNat : (BitVec.ofNat 16 off).toNat = off := offField_toNat (by have := h.offset; omega)

theorem TrueMatch.len_ne_zero : BitVec.ofNat 7 len ≠ 0#7 := fun e => by
  have hlen := h.len_toNat
  have := h.length
  rw [e, BitVec.toNat_zero] at hlen
  omega

theorem TrueMatch.off_ne_zero : BitVec.ofNat 16 off ≠ 0#16 := fun e => by
  have hoff := h.off_toNat
  have := h.offset
  rw [e, BitVec.toNat_zero] at hoff
  omega

theorem TrueMatch.emittable : Emittable (.matchTok (BitVec.ofNat 7 len) (BitVec.ofNat 16 off)) :=
  ⟨(wf_matchTok _ _).mpr ⟨h.len_ne_zero, h.off_ne_zero⟩, .inr ⟨_, _, rfl, by rw [h.len_toNat]; exact h.length.1⟩⟩

end

theorem Tokenized.emittable {input : List Byte} {i : Nat} {run : List Byte} {toks : List Instr}
    (h : Tokenized input i run toks) (hrun : run.length < Config.maxLen) : ∀ tok ∈ toks, Emittable tok := by
  induction h with
  | final run => exact emittable_of_mem_runTokens hrun
  | grown _ hshort _ ih => exact ih hshort
  | full _ hfull _ ih =>
    refine List.forall_mem_cons.mpr ⟨emittable_lit ?_ (Nat.le_of_eq hfull), ih (by decide)⟩
    rw [hfull]; decide
  | matched htrue _ ih =>
    exact List.forall_mem_append.mpr ⟨emittable_of_mem_runTokens hrun,
      List.forall_mem_cons.mpr ⟨htrue.emittable, ih (by decide)⟩⟩

/-! ### Literal runs are as long as they can be -/

/-- Of two adjacent literal runs the first is full (R166, R174). -/
def FullBefore (x y : Instr) : Prop := ∀ a b, x = .lit a → y = .lit b → a.length = 127

theorem isChain_runTokens (run : List Byte) : (runTokens run).IsChain FullBefore := by
  unfold runTokens
  split
  · exact .nil
  · exact .singleton _

theorem Tokenized.isChain {input : List Byte} {i : Nat} {run : List Byte} {toks : List Instr}
    (h : Tokenized input i run toks) : toks.IsChain FullBefore := by
  induction h with
  | final run => exact isChain_runTokens run
  | grown _ _ _ ih => exact ih
  | full _ hfull _ ih =>
    refine List.isChain_cons.mpr ⟨fun y _ a b ea _ => ?_, ih⟩
    cases ea
    exact hfull
  | matched _ _ ih =>
    refine List.isChain_append.mpr ⟨isChain_runTokens _, List.isChain_cons.mpr ⟨fun y _ a b ea _ => ?_, ih⟩,
      fun x _ y hy a b _ eb => ?_⟩
    · cases ea
    · cases hy; cases eb

/-! ### The tokens stand for the input -/

/-- A true match appends the input's next bytes (R194). -/
theorem replicateBack_take {input : List Byte} {off : Nat} (h1 : 1 ≤ off) (len : Nat) {i : Nat} (hoff : off ≤ i)
    (hinside : i + len ≤ input.length) (hagree : ∀ j, j < len → input[i + j]? = input[i - off + j]?) :
    replicateBack off len (input.take i) = input.take (i + len) := by
  induction len generalizing i with
  | zero => rfl
  | succ n ih =>
    have hlen : (input.take i).length = i := List.length_take_of_le (by omega)
    have hbyte : (input.take i).getD (i - off) 0#8 = input[i] := by
      rw [List.getD_eq_getElem?_getD, List.getElem?_take_of_lt (by omega), ← Nat.add_zero (i - off),
        ← hagree 0 (Nat.succ_pos n), Nat.add_zero, List.getElem?_eq_getElem (by omega), Option.getD_some]
    rw [replicateBack, hlen, hbyte, List.take_append_getElem, ih (by omega) (by omega), Nat.add_right_comm,
      Nat.add_assoc]
    intro j hj
    have := hagree (j + 1) (Nat.succ_lt_succ hj)
    rwa [show i + (j + 1) = i + 1 + j by omega, show i - off + (j + 1) = i + 1 - off + j by omega] at this

theorem expand_runTokens (run out : List Byte) (rest : List Instr) :
    expand (runTokens run ++ rest) out = expand rest (out ++ run) := by
  unfold runTokens
  split
  · rename_i hnil
    rw [hnil, List.append_nil, List.nil_append]
  · rename_i hne
    rw [List.singleton_append, expand, if_neg hne]

theorem TrueMatch.expand_cons {input : List Byte} {i off len : Nat} (h : TrueMatch input i off len)
    (rest : List Instr) :
    expand (.matchTok (BitVec.ofNat 7 len) (BitVec.ofNat 16 off) :: rest) (input.take i) =
      expand rest (input.take (i + len)) := by
  obtain ⟨h1, hoff, -⟩ := h.offset
  have hinside := h.inside
  have hreach : ¬ (input.take i).length < (BitVec.ofNat 16 off).toNat := by
    rw [h.off_toNat, List.length_take_of_le (by omega)]; omega
  rw [expand, if_neg (by simp only [h.len_ne_zero, h.off_ne_zero, hreach, or_self, not_false_eq_true]), h.len_toNat,
    h.off_toNat, replicateBack_take h1 len hoff hinside h.agree]

/-- What is produced and what is pending are together the input before the cursor (R171), so at the end the input. -/
theorem Tokenized.expand_eq {input : List Byte} {i : Nat} {run : List Byte} {toks : List Instr}
    (h : Tokenized input i run toks) {out : List Byte} (hout : out ++ run = input.take i) :
    expand toks out = some input := by
  induction h generalizing out with
  | final run => rw [← List.append_nil (runTokens run), expand_runTokens, hout, List.take_length]; rfl
  | grown hlt _ _ ih => exact ih (by rw [← List.append_assoc, hout, List.take_append_getElem])
  | full hlt _ _ ih =>
    rw [expand, if_neg (List.append_ne_nil_of_right_ne_nil _ (List.cons_ne_nil _ _)), ← List.append_assoc, hout,
      List.take_append_getElem]
    exact ih (List.append_nil _)
  | matched htrue _ ih =>
    rw [expand_runTokens, hout, htrue.expand_cons]
    exact ih (List.append_nil _)

theorem expand_tokensOf (input : List Byte) : expand (tokensOf input) [] = some input :=
  (tokensOf_tokenized input).expand_eq rfl

/-- Settles O57: each of the three along the closed form's run. -/
theorem tokensOfInputAreLegal : Obligations.TokensOfInputAreLegal := by
  unfold Obligations.TokensOfInputAreLegal
  intro input
  have hrun := tokensOf_tokenized input
  refine ⟨hrun.emittable (by decide), fun k a b ha hb => ?_, expand_tokensOf input⟩
  obtain ⟨hk, ea⟩ := List.getElem?_eq_some_iff.mp ha
  obtain ⟨hk', eb⟩ := List.getElem?_eq_some_iff.mp hb
  exact List.isChain_iff_getElem.mp hrun.isChain k hk' a b ea eb

end Sys2Proof.Machine
end

section
/-! ## The steps of a running command

Which operation the engine's turn is, while a command runs. -/

namespace Sys2Proof.Machine

theorem engineTurn_host {s s0 : State} (h : engineTurn s s0) : ∃ host, s0 = { s with host := host } :=
  ⟨_, engineTurn_frame h⟩

theorem engineStep_eq_compressStep {s : State} (hb : busy s) (hc : s.cmd = opEncode) :
    engineStep s = compressStep s := by
  rw [engineStep, if_neg (not_not.mpr hb), if_pos hc]

/-- A running token walk whose input is exhausted ends (R196). -/
theorem engineStep_eq_endCommand {s : State} (hb : busy s) (hc : s.cmd = opDecode ∨ s.cmd = opProbe)
    (ht : s.inLen.toNat ≤ s.t.toNat) : engineStep s = .next (endCommand s) := by
  obtain ⟨hne, hnr⟩ := walk_ops hc
  rw [engineStep, if_neg (not_not.mpr hb), if_neg hne, if_neg hnr, walkStep, if_neg (Nat.not_lt.mpr ht)]

/-- On the engine's turn a running ENCODE takes its own next step (R160). -/
theorem step_eq_compressStep {s s0 : State} (hturn : engineTurn s s0) (hb : busy s) (hc : s.cmd = opEncode) :
    step s = compressStep s0 := by
  have hstep := step_engineTurn hturn
  obtain ⟨host, rfl⟩ := engineTurn_host hturn
  exact hstep.trans (engineStep_eq_compressStep hb hc)

/-- Settles O37: the first two branches of an ENCODE's step. -/
theorem stepRunsEncoder : Obligations.StepRunsEncoder := by
  unfold Obligations.StepRunsEncoder
  intro s s0 hturn hb hc
  have hstep := step_eq_compressStep hturn hb hc
  obtain ⟨host, rfl⟩ := engineTurn_host hturn
  exact ⟨fun hi => hstep.trans (if_pos hi),
    fun hi hl => hstep.trans ((if_neg (Nat.not_lt.mpr hi)).trans (if_neg hl))⟩

/-- Settles O38: the last branch of an ENCODE's step and that of a token walk's. -/
theorem stepEndsCommand : Obligations.StepEndsCommand := by
  unfold Obligations.StepEndsCommand
  intro s s0 hturn hb
  refine ⟨fun hc hi hl => ?_, fun hc ht => ?_⟩
  · have hstep := step_eq_compressStep hturn hb hc
    obtain ⟨host, rfl⟩ := engineTurn_host hturn
    exact hstep.trans ((if_neg (Nat.not_lt.mpr hi)).trans (if_pos hl))
  · have hstep := step_engineTurn hturn
    obtain ⟨host, rfl⟩ := engineTurn_host hturn
    exact hstep.trans (engineStep_eq_endCommand hb hc ht)

end Sys2Proof.Machine
end

section
/-! ## A token walk over a legal stream

A legal token completes with the bytes it stands for. So the walk over a stream, token by token, produces what the
stream stands for, and ends DONE (R190 to R197). -/

namespace Sys2Proof.Machine

/-! ### What a stream stands for, token by token -/

theorem expand_cons (tok : Instr) (rest : List Instr) (out : List Byte) :
    expand (tok :: rest) out = (expand [tok] out).bind (expand rest) := by
  cases tok with
  | lit bytes => simp only [expand]; split <;> rfl
  | matchTok len off => simp only [expand]; split <;> rfl
  | reservedLit0 | reservedMatch0 | reservedOff0 | cmdReserved | encode | decode | probe | hash | lookup | chainOf
  | insert | find | encStep | flush | emitMatch => rfl

/-- What one token stands for, if it is legal after this output: its payload, or bytes copied from before. -/
theorem expand_singleton_cases {tok : Instr} {out out' : List Byte} (h : expand [tok] out = some out') :
    (∃ bytes, tok = .lit bytes ∧ bytes ≠ [] ∧ out' = out ++ bytes) ∨
    (∃ len off, tok = .matchTok len off ∧ len ≠ 0#7 ∧ off ≠ 0#16 ∧ off.toNat ≤ out.length ∧
      out' = replicateBack off.toNat len.toNat out) := by
  cases tok with
  | lit bytes =>
    rw [expand] at h
    split at h
    · cases h
    · cases h; exact .inl ⟨bytes, rfl, ‹_›, rfl⟩
  | matchTok len off =>
    rw [expand] at h
    split at h
    · cases h
    · rename_i hlegal
      cases h
      obtain ⟨hlen, hoff, hreach⟩ := by simpa only [not_or] using hlegal
      exact .inr ⟨len, off, rfl, hlen, hoff, Nat.le_of_not_lt hreach, rfl⟩
  | reservedLit0 | reservedMatch0 | reservedOff0 | cmdReserved | encode | decode | probe | hash | lookup | chainOf
  | insert | find | encStep | flush | emitMatch => cases h

@[simp] theorem replicateBack_length (off count : Nat) (out : List Byte) :
    (replicateBack off count out).length = out.length + count := by
  induction count generalizing out with
  | zero => rfl
  | succ n ih => rw [replicateBack, ih, List.length_append, List.length_singleton]; omega

theorem expand_singleton_length_le {tok : Instr} {out out' : List Byte} (h : expand [tok] out = some out') :
    out.length ≤ out'.length := by
  rcases expand_singleton_cases h with ⟨bytes, -, -, rfl⟩ | ⟨len, off, -, -, -, -, rfl⟩ <;> simp

/-- What stands for something has an encoding. -/
theorem tokenEncoding_of_expand {tok : Instr} {out out' : List Byte} (h : expand [tok] out = some out') :
    ∃ enc, tokenEncoding tok = some enc := by
  rcases expand_singleton_cases h with ⟨bytes, rfl, -⟩ | ⟨len, off, rfl, -⟩ <;> exact ⟨_, rfl⟩

/-- A stream only appends. -/
theorem expand_length_le {toks : List Instr} {out result : List Byte} (h : expand toks out = some result) :
    out.length ≤ result.length := by
  induction toks generalizing out with
  | nil => cases h; exact Nat.le_refl _
  | cons tok rest ih =>
    rw [expand_cons] at h
    obtain ⟨out', hone, hrest⟩ := Option.bind_eq_some_iff.mp h
    exact Nat.le_trans (expand_singleton_length_le hone) (ih hrest)

/-! ### The copy of a match on byte lists -/

/-- The byte-serial copy in OUT does what `replicateBack` does on the output so far (R194). -/
theorem map_readCell_copyBack {off : Nat} (h1 : 1 ≤ off) (count : Nat) {m : Cells 8} {out : List Byte}
    (hoff : off ≤ out.length) (hout : (List.range out.length).map (readCell m) = out) :
    (List.range (out.length + count)).map (readCell (copyBack off count out.length m)) =
      replicateBack off count out := by
  induction count generalizing m out with
  | zero => exact hout
  | succ n ih =>
    have hsource : out.getD (out.length - off) 0#8 = readCell m (out.length - off) := by
      have hlt : out.length - off < out.length := by omega
      rw [List.getD_eq_getElem?_getD, ← hout, List.getElem?_map, List.length_map, List.length_range,
        List.getElem?_range hlt]
      rfl
    have hnext : (List.range (out.length + 1)).map (readCell (writeCell m out.length (readCell m (out.length - off))))
        = out ++ [out.getD (out.length - off) 0#8] := by
      rw [List.range_succ, List.map_append, List.map_singleton, readCell_writeCell_same, hsource]
      refine congrArg (· ++ _) (Eq.trans (List.map_congr_left fun a ha => ?_) hout)
      exact readCell_writeCell_other _ _ (Nat.ne_of_lt (List.mem_range.mp ha))
    have hlen : (out ++ [out.getD (out.length - off) 0#8]).length = out.length + 1 := List.length_append
    rw [copyBack, replicateBack, ← ih (by omega) (by rw [hlen]; exact hnext), hlen, Nat.add_right_comm, Nat.add_assoc]

/-! ### A legal token completes -/

theorem literalToken_completes {bytes : List Byte} {s : State} (hne : bytes ≠ [])
    (hin : s.t.toNat + 1 + bytes.length ≤ s.inLen.toNat) (hfit : s.o.toNat + bytes.length ≤ limit s) :
    literalToken bytes s = .ok (completeToken (storeLiteral bytes s) bytes.length (1 + bytes.length)
      (latchHeader (litHeader (BitVec.ofNat 7 bytes.length)) s)) := by
  rw [literalToken, if_neg (mt List.length_eq_zero_iff.mp hne)]
  exact (if_neg (Nat.not_lt.mpr hin)).trans (if_neg (Nat.not_lt.mpr hfit))

theorem matchToken_completes {len : LenField} {off : OffField} {s : State} (hlen : len ≠ 0#7) (hoff : off ≠ 0#16)
    (hin : s.t.toNat + 3 ≤ s.inLen.toNat) (hreach : off.toNat ≤ s.o.toNat)
    (hfit : s.o.toNat + len.toNat ≤ limit s) :
    matchToken len off s = .ok (completeToken (storeMatch len off s) len.toNat Config.matchBytes
      (latchOffset off (latchHeader (matchHeader len) s))) := by
  rw [matchToken, if_neg hlen]
  exact (if_neg (Nat.not_lt.mpr hin)).trans ((if_neg hoff).trans
    ((if_neg (Nat.not_lt.mpr hreach)).trans (if_neg (Nat.not_lt.mpr hfit))))

/-- A token of `consumed` bytes completes from `s` in `s'`, and the output is then `out`. -/
structure Completes (tok : Instr) (consumed : Nat) (out : List Byte) (s s' : State) : Prop where
  runs : exec tok s = .next s'
  frame : tokenFrame s s'
  reader : s'.t.toNat = s.t.toNat + consumed
  produced : s'.o.toNat = out.length
  written : real s → outSlice s' s'.o.toNat = out
  kept : ¬ real s → s'.out = s.out

section
variable {s : State} {out : List Byte} (ho : s.o.toNat = out.length) (hwritten : real s → outSlice s s.o.toNat = out)
include ho hwritten

theorem lit_completes {bytes : List Byte} (hne : bytes ≠ []) (hin : s.t.toNat + 1 + bytes.length ≤ s.inLen.toNat)
    (hfit : out.length + bytes.length ≤ limit s) :
    ∃ s', Completes (.lit bytes) (bytes.length + 1) (out ++ bytes) s s' := by
  rw [← ho] at hfit
  have ho' : (BitVec.ofNat 32 (s.o.toNat + bytes.length)).toNat = s.o.toNat + bytes.length :=
    word_toNat (Nat.lt_of_le_of_lt hfit (limit_le_maxWord s))
  refine ⟨_, congrArg settle (literalToken_completes hne hin hfit), rfl, ?_, ?_, fun hr => ?_, fun hr => if_neg hr⟩
  · rw [completeToken_t, latchHeader_t, word_toNat (by have := s.inLen.isLt; omega)]; omega
  · rw [completeToken_o, latchHeader_o, ho', ho, List.length_append]
  · rw [completeToken_o, latchHeader_o, ho', ← hwritten hr]
    refine outSlice_append (fun a ha => ?_) fun j hj => ?_
    · exact storeLiteral_outside (.inl ha)
    · rw [outByte, completeToken_out, storeLiteral, if_pos hr]
      exact readCell_writeBytes_inside bytes s.out hj

theorem matchTok_completes {len : LenField} {off : OffField} (hlen : len ≠ 0#7) (hoff : off ≠ 0#16)
    (hin : s.t.toNat + 3 ≤ s.inLen.toNat) (hreach : off.toNat ≤ out.length)
    (hfit : out.length + len.toNat ≤ limit s) :
    ∃ s', Completes (.matchTok len off) 3 (replicateBack off.toNat len.toNat out) s s' := by
  rw [← ho] at hfit hreach
  have ho' : (BitVec.ofNat 32 (s.o.toNat + len.toNat)).toNat = s.o.toNat + len.toNat :=
    word_toNat (Nat.lt_of_le_of_lt hfit (limit_le_maxWord s))
  have hpos : off.toNat ≠ 0 := fun e => hoff (BitVec.eq_of_toNat_eq e)
  refine ⟨_, congrArg settle (matchToken_completes hlen hoff hin hreach hfit), rfl, ?_, ?_, fun hr => ?_,
    fun hr => if_neg hr⟩
  · rw [completeToken_t, latchOffset_t, latchHeader_t, Config.matchBytes,
      word_toNat (by have := s.inLen.isLt; omega)]
  · rw [completeToken_o, latchOffset_o, latchHeader_o, ho', ho, replicateBack_length]
  · have hcopy := map_readCell_copyBack (m := s.out) (Nat.one_le_iff_ne_zero.mpr hpos) len.toNat (ho ▸ hreach)
      (ho ▸ hwritten hr)
    rw [← hcopy, completeToken_o, latchOffset_o, latchHeader_o, ho', ho, ← ho]
    simp only [outSlice, outByte, completeToken_out, storeMatch, if_pos hr]

/-- A token that stands for something completes with it, given its bytes in the input and room for what it produces. -/
theorem token_completes {tok : Instr} {enc out' : List Byte} (he : tokenEncoding tok = some enc)
    (hone : expand [tok] out = some out') (hin : s.t.toNat + enc.length ≤ s.inLen.toNat)
    (hfit : out'.length ≤ limit s) : ∃ s', Completes tok enc.length out' s s' := by
  rcases expand_singleton_cases hone with ⟨bytes, rfl, hne, rfl⟩ | ⟨len, off, rfl, hlen, hoff, hreach, rfl⟩ <;> cases he
  · rw [encodeLit_length] at hin
    rw [List.length_append] at hfit
    exact lit_completes ho hwritten hne (by omega) hfit
  · rw [replicateBack_length] at hfit
    exact matchTok_completes ho hwritten hlen hoff hin hreach hfit

end

/-! ### The input ahead of a walk -/

theorem inSlice_add (s : State) (a m n : Nat) : inSlice s a (m + n) = inSlice s a m ++ inSlice s (a + m) n := by
  simp only [inSlice, List.range_add, List.map_append, List.map_map, Function.comp_def, Nat.add_assoc]

/-- A slice that begins with some bytes holds them first, and after them the rest. -/
theorem inSlice_eq_append {s : State} {a n : Nat} {xs ys : List Byte} (h : inSlice s a n = xs ++ ys) :
    n = xs.length + ys.length ∧ inSlice s a xs.length = xs ∧ inSlice s (a + xs.length) ys.length = ys := by
  have hn : n = xs.length + ys.length := by rw [← List.length_append, ← h, inSlice_length]
  rw [hn, inSlice_add] at h
  obtain ⟨hx, hy⟩ := List.append_inj h (inSlice_length ..)
  exact ⟨hn, hx, hy⟩

/-- A token walk runs alone over the input from `t` on, which is this stream, and has produced these bytes. -/
structure Walking (s : State) (toks : List Instr) (out : List Byte) : Prop where
  host : s.host = []
  busy : busy s
  cmd : s.cmd = opDecode ∨ s.cmd = opProbe
  ahead : inSlice s s.t.toNat (s.inLen.toNat - s.t.toNat) = encodeStream toks
  produced : s.o.toNat = out.length
  written : real s → outSlice s s.o.toNat = out

/-- The decoder reads the stream's first token at `t` (R65, R97). -/
theorem decodeToken_tokenWindow {s : State} {tok : Instr} {enc rest : List Byte} (hw : tok.wf = true)
    (he : tokenEncoding tok = some enc)
    (hahead : inSlice s s.t.toNat (s.inLen.toNat - s.t.toNat) = enc ++ rest) :
    ∃ after, decodeToken (tokenWindow s) = .ok tok after := by
  obtain ⟨hn, henc, -⟩ := inSlice_eq_append hahead
  obtain ⟨-, hmax, -⟩ := encodingSize tok hw enc he
  have hsize : min Config.maxTokenBytes (s.inLen.toNat - s.t.toNat) =
      enc.length + (min Config.maxTokenBytes (s.inLen.toNat - s.t.toNat) - enc.length) := by omega
  rw [tokenWindow, hsize, inSlice_add, henc]
  exact ⟨_, decodeToken_tokenEncoding hw he _⟩

/-- A walk's step over the first token of its stream. -/
theorem Walking.step_token {s : State} {tok : Instr} {rest : List Instr} {enc out out' : List Byte}
    (h : Walking s (tok :: rest) out) (hw : tok.wf = true) (he : tokenEncoding tok = some enc)
    (hone : expand [tok] out = some out') (hfit : out'.length ≤ limit s) :
    ∃ s', step s = .next s' ∧ Walking s' rest out' ∧ tokenFrame s s' ∧ (¬ real s → s'.out = s.out) := by
  obtain ⟨hhost, hbusy, hcmd, hahead, hproduced, hwritten⟩ := h
  rw [encodeStream_cons he] at hahead
  obtain ⟨hn, -, hrest⟩ := inSlice_eq_append hahead
  have hpos := (encodingSize tok hw enc he).1
  obtain ⟨after, hdecode⟩ := decodeToken_tokenWindow hw he hahead
  obtain ⟨s', hruns, hframe, ht, ho, hout, hkept⟩ := token_completes hproduced hwritten he hone (by omega) hfit
  have ecmd : s'.cmd = s.cmd := by rw [hframe]
  have en : s'.inLen = s.inLen := by rw [hframe]
  refine ⟨s', ?_, ⟨?_, ?_, ecmd ▸ hcmd, ?_, ho, fun hr => hout (ecmd.symm.trans hr)⟩, hframe, hkept⟩
  · rw [step_engineTurn (.inl ⟨hhost, rfl⟩), engineStep_eq_tokenStep hbusy hcmd (by omega),
      tokenStep_of_decodeToken hdecode, hruns]
  · rw [hframe]; exact hhost
  · rw [hframe]; exact hbusy
  · rw [ht, en, inSlice_congr (show s'.inp = s.inp by rw [hframe]), ← hrest]
    congr 1
    omega

/-- The walk's last step, with its stream read to the end (R196). -/
theorem Walking.step_end {s : State} {out : List Byte} (h : Walking s [] out) : step s = .next (endCommand s) := by
  have hlen := congrArg List.length h.ahead
  rw [inSlice_length] at hlen
  rw [step_engineTurn (.inl ⟨h.host, rfl⟩), engineStep_eq_endCommand h.busy h.cmd (Nat.sub_eq_zero_iff_le.mp hlen)]

/-- The walk over a legal stream with room for what it stands for ends DONE with it, by induction on the stream. A PROBE
writes no byte (R197). -/
theorem Walking.reaches_expansion {toks : List Instr} {s : State} {out result : List Byte} (h : Walking s toks out)
    (hw : ∀ tok ∈ toks, tok.wf = true) (hexp : expand toks out = some result) (hfit : result.length ≤ limit s) :
    ∃ s', reaches s s' ∧ s'.status = statusDone ∧ s'.outLen.toNat = result.length ∧
      (real s → outputIs s' result) ∧ (¬ real s → s'.out = s.out) := by
  induction toks generalizing s out with
  | nil =>
    cases hexp
    exact ⟨_, .single h.step_end, rfl, h.produced, h.written, fun _ => rfl⟩
  | cons tok rest ih =>
    obtain ⟨hwtok, hwrest⟩ := List.forall_mem_cons.mp hw
    rw [expand_cons] at hexp
    obtain ⟨out', hone, hexp'⟩ := Option.bind_eq_some_iff.mp hexp
    obtain ⟨enc, he⟩ := tokenEncoding_of_expand hone
    obtain ⟨s1, hstep, hwalk, hframe, hkept⟩ :=
      h.step_token hwtok he hone (Nat.le_trans (expand_length_le hexp') hfit)
    have ecmd : s1.cmd = s.cmd := by rw [hframe]
    have elimit : limit s1 = limit s := by rw [hframe]; rfl
    obtain ⟨s', hreach, hdone, hlen, hreal, hprobe⟩ := ih hwalk hwrest hexp' (elimit ▸ hfit)
    exact ⟨s', .of_step hstep hreach, hdone, hlen, fun hr => hreal (ecmd.trans hr),
      fun hr => (hprobe fun hr1 => hr (ecmd.symm.trans hr1)).trans (hkept hr)⟩

theorem walking_start {s : State} {op : BitVec 2} {toks : List Instr} (hq : quiet s)
    (hop : op = opDecode ∨ op = opProbe) (hin : inputIs s (encodeStream toks)) : Walking (startWalk op s) toks [] :=
  ⟨hq.2, rfl, hop, hin, rfl, fun _ => rfl⟩

/-! ### The round trip -/

theorem exec_decode_of_quiet {s : State} (h : quiet s) : exec .decode s = .next (startWalk opDecode s) :=
  congrArg Host.Outcome.next (if_neg h.1)

theorem exec_probe_of_quiet {s : State} (h : quiet s) : exec .probe s = .next (startWalk opProbe s) :=
  congrArg Host.Outcome.next (if_neg h.1)

/-- Settles O60: what ENCODE writes is the stream of the input's tokens, these are legal and stand for the input, and
DECODE and PROBE expand a legal stream. -/
theorem roundTrip : Obligations.RoundTrip := by
  unfold Obligations.RoundTrip
  intro s input hq hin hcap
  obtain ⟨s0, s1, hexec, hreach, hdone, hout⟩ := encodeEmitsClosedForm s input hq hin hcap
  refine ⟨s0, s1, hexec, hreach, hdone, fun d hd hdin => ?_⟩
  rw [hout] at hdin
  have hlegal : ∀ tok ∈ tokensOf input, tok.wf = true := fun tok hmem =>
    ((tokensOf_tokenized input).emittable (by decide) tok hmem).1
  have hexp := expand_tokensOf input
  refine ⟨fun hroom => ?_, ?_⟩
  · obtain ⟨d1, hreach1, hdone1, -, hreal, -⟩ :=
      (walking_start hd (.inl rfl) hdin).reaches_expansion hlegal hexp hroom
    exact ⟨_, d1, exec_decode_of_quiet hd, hreach1, hdone1, hreal rfl⟩
  · have hroom : input.length ≤ Config.maxWord := by
      rw [hin.length_eq]; exact Nat.le_of_lt_succ s.inLen.isLt
    obtain ⟨d1, hreach1, hdone1, hlen, -⟩ :=
      (walking_start hd (.inr rfl) hdin).reaches_expansion hlegal hexp hroom
    exact ⟨_, d1, exec_probe_of_quiet hd, hreach1, hdone1, hlen⟩

end Sys2Proof.Machine
end

section
/-! ## FLUSH and EMITMATCH

What they write, byte by byte, and when they fault or stop (R168, R169). -/

namespace Sys2Proof.Machine

/-! ### Where FLUSH goes on, faults, and stops -/

theorem lit_ne_zero_iff {s : State} : s.lit ≠ 0#7 ↔ 1 ≤ s.lit.toNat := by
  rw [ne_eq, BitVec.toNat_eq, BitVec.toNat_zero, Nat.one_le_iff_ne_zero]

section
variable {s : State} (h0 : s.lit ≠ 0#7)
include h0

theorem flushRun_fits (hl : s.lit.toNat ≤ s.i.toNat) (hi : s.i.toNat ≤ s.inLen.toNat)
    (hfit : s.o.toNat + 1 + s.lit.toNat ≤ s.outCap.toNat) : ∃ s', flushRun s = .ok s' :=
  (flushRun_answers h0 hl hi).goesOn fun _ h => by have := flushRun_raised_full h; omega

theorem flushRun_full (hfull : s.outCap.toNat < s.o.toNat + 1 + s.lit.toNat) :
    flushRun s = .error (.raised (encoderFault s)) := by
  rw [flushRun, if_neg h0, if_pos (by unfold fitsOut; omega), bufferTooSmall_eq]

theorem flushRun_outsideInput (hfit : s.o.toNat + 1 + s.lit.toNat ≤ s.outCap.toNat)
    (hout : s.i.toNat < s.lit.toNat ∨ s.inLen.toNat < s.i.toNat) : flushRun s = .error (.stuck .runOutsideInput) := by
  rw [flushRun, if_neg h0, if_neg (by unfold fitsOut; omega), if_pos hout]

end

/-- Settles O28: the two tests of R168's contract. -/
theorem flushStopsOutsideContract : Obligations.FlushStopsOutsideContract := by
  unfold Obligations.FlushStopsOutsideContract
  intro s
  exact ⟨fun h0 => congrArg settle (if_pos h0),
    fun h0 hfit hout => congrArg settle (flushRun_outsideInput h0 hfit hout)⟩

/-! ### The bytes of a token in OUT -/

theorem outHolds_cons {s : State} {a : Nat} {b : Byte} {bytes : List Byte} :
    outHolds s a (b :: bytes) ↔ outByte s a = b ∧ outHolds s (a + 1) bytes := by
  refine ⟨fun h => ⟨h 0 (Nat.succ_pos _), fun j hj => ?_⟩, fun ⟨hb, hrest⟩ j hj => ?_⟩
  · rw [Nat.add_right_comm, Nat.add_assoc]
    exact h (j + 1) (Nat.succ_lt_succ hj)
  · cases j with
    | zero => exact hb
    | succ j =>
      rw [← Nat.add_assoc, Nat.add_right_comm]
      exact hrest j (Nat.lt_of_succ_lt_succ hj)

/-- A written LIT of the pending run: its header counts the run, and the run's bytes of IN follow. -/
theorem outHolds_encodeLit_pendingRun {s s' : State} {a : Nat} (h : outHolds s' a (encodeLit (pendingRun s))) :
    (outByte s' a).toNat = s.lit.toNat ∧
      ∀ j, j < s.lit.toNat → outByte s' (a + 1 + j) = inByte s (s.i.toNat - s.lit.toNat + j) := by
  obtain ⟨hhdr, hrun⟩ := outHolds_cons.mp h
  refine ⟨?_, fun j hj => ?_⟩
  · rw [hhdr, litHeader_toNat, pendingRun_length, BitVec.ofNat_toNat, BitVec.setWidth_eq]
  · rw [hrun j (by rwa [pendingRun_length])]
    exact inSlice_getElem ..

theorem outHolds_encodeMatch {s : State} {a : Nat} {len : LenField} {off : OffField}
    (h : outHolds s a (encodeMatch len off)) :
    (outByte s a).toNat = 128 + len.toNat ∧ (outByte s (a + 1)).toNat = off.toNat / 256 ∧
      (outByte s (a + 2)).toNat = off.toNat % 256 := by
  obtain ⟨hhdr, hoff⟩ := outHolds_cons.mp h
  obtain ⟨hhi, hoff⟩ := outHolds_cons.mp hoff
  obtain ⟨hlo, -⟩ := outHolds_cons.mp hoff
  rw [hhdr, hhi, show a + 2 = a + 1 + 1 from rfl, hlo]
  exact ⟨matchHeader_toNat len, offsetHi_toNat off, offsetLo_toNat off⟩

/-! ### The two operations -/

/-- Settles O27: the whole token is tested before its first byte is written. -/
theorem flushMeaning : Obligations.FlushMeaning := by
  unfold Obligations.FlushMeaning
  intro s h1 hl hi
  have h0 := lit_ne_zero_iff.mpr h1
  refine ⟨fun hfull => congrArg settle (flushRun_full h0 hfull), fun hfit => ?_⟩
  obtain ⟨s', hok⟩ := flushRun_fits h0 hl hi hfit
  obtain ⟨hem, hlit, ho, -, hholds, hsame⟩ := flushRun_ok hok
  obtain ⟨hhdr, hrun⟩ := outHolds_encodeLit_pendingRun hholds
  exact ⟨s', congrArg settle hok, hlit ▸ hem.frame, ho, hhdr, hrun, hsame⟩

theorem emitToken_full {s : State} (hfull : s.outCap.toNat < s.o.toNat + 3) (len : LenField) (off : OffField) :
    emitToken len off s = .error (.raised (encoderFault s)) := if_neg (Nat.not_le.mpr hfull)

theorem emitToken_fits {s : State} (hfit : s.o.toNat + 3 ≤ s.outCap.toNat) (len : LenField) (off : OffField) :
    ∃ s', emitToken len off s = .ok s' := ⟨_, if_pos hfit⟩

/-- Settles O29: the whole token is tested before its first byte is written. -/
theorem emitMatchMeaning : Obligations.EmitMatchMeaning := by
  unfold Obligations.EmitMatchMeaning
  intro s len off
  refine ⟨fun hfull => congrArg settle (emitToken_full hfull len off), fun hfit => ?_⟩
  obtain ⟨s', hok⟩ := emitToken_fits hfit len off
  obtain ⟨hem, hlit, ho, hholds, hsame⟩ := emitToken_ok hok
  obtain ⟨hhdr, hhi, hlo⟩ := outHolds_encodeMatch hholds
  exact ⟨s', congrArg settle hok, hlit ▸ hem.frame, ho, hhdr, hhi, hlo, hsame⟩

end Sys2Proof.Machine
end

section
/-! ## One ENCSTEP, decision by decision

An ENCSTEP acts on the pair at its cursor, moves on, and applies the length limit. Without a match the run has grown by
one when the limit is applied; with a match the run and the match have gone out and no run is left. -/

namespace Sys2Proof.Machine

/-! ### The pieces put together -/

section
variable {hf : Config.HashFn} {s : State} {f : Found} (hi : s.i.toNat < s.inLen.toNat)
  (hs : searchCursor hf s = .ok f)
include hi hs

theorem encodeStep_of_actOn {s1 : State} (ha : actOn f = .ok s1) :
    encodeStep hf s = limitRun (advance hf f.len s1) := by
  rw [encodeStep, if_neg (Nat.not_le.mpr hi), hs, ok_bind, ha, ok_bind]

theorem encodeStep_of_actOn_error {e : Halt} (ha : actOn f = .error e) : encodeStep hf s = .error e := by
  rw [encodeStep, if_neg (Nat.not_le.mpr hi), hs, ok_bind, ha, error_bind]

end

theorem limitRun_eq_flushRun {s : State} (h : s.lit.toNat = 127) : limitRun s = flushRun s := if_pos h

theorem limitRun_eq_ok {s : State} (h : s.lit.toNat ≠ 127) : limitRun s = .ok s := if_neg h

/-- An ENCSTEP that goes on writes nothing but what `encodeFrame` lists. -/
theorem encodeStep_encodeFrame {hf : Config.HashFn} {s s' : State} (h : encodeStep hf s = .ok s') :
    encodeFrame s s' := by
  obtain ⟨hst, hkind, hcause, hpos, hlen⟩ := encodeStep_sameResults h
  have hframe := (encodeStep_ok_encodeEnd h).frame
  rw [hst, hkind, hcause, hpos, hlen] at hframe
  exact hframe

/-- The tables after an ENCSTEP's advance are those of the index update from the state before it (R164): search and
emission touch neither the tables nor the input. -/
theorem advance_tables {hf : Config.HashFn} {s s1 : State} {f : Found} (hs : searchCursor hf s = .ok f)
    (ha : actOn f = .ok s1) (len : Nat) :
    (advance hf len s1).head = (insertRange hf len s.i.toNat s).head ∧
      (advance hf len s1).chain = (insertRange hf len s.i.toNat s).chain := by
  obtain ⟨ei, en, -, einp, ehead, echain⟩ := searched_actOn_keeps hs ha
  rw [advance_frame, ei]
  exact insertRange_tables_congr einp en ehead echain hf len s.i.toNat

@[simp] theorem advance_out (hf : Config.HashFn) (len : Nat) (s : State) : (advance hf len s).out = s.out := by
  rw [advance_frame]

theorem outByte_congr {s s' : State} (h : s'.out = s.out) (a : Nat) : outByte s' a = outByte s a := by
  rw [outByte, h, outByte]

/-! ### Without a match -/

/-- `a` is `s` after an ENCSTEP without a match, up to its length limit. -/
structure RunGrown (hf : Config.HashFn) (s a : State) : Prop where
  lit : a.lit.toNat = s.lit.toNat + 1
  cursor : a.i.toNat = s.i.toNat + 1
  o : a.o = s.o
  out : a.out = s.out
  inp : a.inp = s.inp
  inLen : a.inLen = s.inLen
  outCap : a.outCap = s.outCap
  head : a.head = (insertRange hf 1 s.i.toNat s).head
  chain : a.chain = (insertRange hf 1 s.i.toNat s).chain

/-- Without a match an ENCSTEP whose run can still grow is the length limit on the grown run (R162 to R166). -/
theorem encodeStep_noMatch {hf : Config.HashFn} {s : State} {f : Found} (hi : s.i.toNat < s.inLen.toNat)
    (hs : searchCursor hf s = .ok f) (h0 : f.off = 0) (hl : s.lit.toNat < Config.maxLen) :
    ∃ a, encodeStep hf s = limitRun a ∧ RunGrown hf s a := by
  obtain ⟨hfr, hpair⟩ := searchCursor_ok hs
  have hlen : f.len = 1 := by omega
  have elit : f.st.lit = s.lit := by rw [hfr]
  obtain ⟨s1, ha⟩ : ∃ s1, actOn f = .ok s1 := by
    rw [actOn, if_pos h0, growRun, if_pos (by rwa [elit])]
    exact ⟨_, rfl⟩
  obtain ⟨hlit, ho, hout⟩ : s1.lit.toNat = f.st.lit.toNat + 1 ∧ s1.o = f.st.o ∧ s1.out = f.st.out := by
    rcases (actOn_ok ha).2 with ⟨-, hgrown⟩ | ⟨hne, -⟩
    · exact hgrown
    · exact absurd h0 hne
  obtain ⟨-, en, ecap, einp, -⟩ := searched_actOn_keeps hs ha
  have hcursor := advance_actOn_i_toNat hi hs ha
  have htables := advance_tables hs ha f.len
  have hstep := encodeStep_of_actOn hi hs ha
  rw [hlen] at hcursor htables hstep
  refine ⟨_, hstep, ⟨?_, hcursor, ?_, ?_, ?_, ?_, ?_, htables.1, htables.2⟩⟩
  · rw [advance_lit, hlit, elit]
  · rw [advance_o, ho, hfr]
  · rw [advance_out, hout, hfr]
  · rw [advance_inp, einp]
  · rw [advance_inLen, en]
  · rw [advance_outCap, ecap]

section
variable {hf : Config.HashFn} {s a : State} (h : RunGrown hf s a)
include h

/-- The position at the cursor is inserted where three bytes of input stand (R121, R126, R164). -/
theorem RunGrown.inserted (hh : hashable s s.i.toNat) :
    (headAt a (hashAt hf s s.i.toNat)).toNat = s.i.toNat + 1 ∧
      chainAt a s.i.toNat = headAt s (hashAt hf s s.i.toNat) := by
  have hrange : insertRange hf 1 s.i.toNat s = insertAt hf s.i.toNat s := if_pos hh
  have := s.inLen.isLt
  refine ⟨?_, ?_⟩
  · rw [headAt, h.head, hrange, ← headAt, insertAt_headAt_same, word_toNat (by omega)]
  · rw [chainAt, h.chain, hrange, ← chainAt, insertAt_chainAt_same]

theorem RunGrown.not_inserted (hh : ¬ hashable s s.i.toNat) : a.head = s.head ∧ a.chain = s.chain := by
  have hrange : insertRange hf 1 s.i.toNat s = s := if_neg hh
  exact ⟨by rw [h.head, hrange], by rw [h.chain, hrange]⟩

end

/-- Settles O31: below 127 bytes the length limit does nothing. -/
theorem encStepGrowsRun : Obligations.EncStepGrowsRun := by
  unfold Obligations.EncStepGrowsRun
  intro s f hi hs h0 hl
  obtain ⟨a, hstep, hgrown⟩ := encodeStep_noMatch hi hs h0 (Nat.lt_succ_of_lt hl)
  have hlit := hgrown.lit
  rw [limitRun_eq_ok (by omega)] at hstep
  exact ⟨a, congrArg settle hstep, encodeStep_encodeFrame hstep, hgrown.out, hgrown.o, hlit, hgrown.cursor,
    hgrown.inserted, fun hend => hgrown.not_inserted (Nat.not_lt.mpr hend)⟩

/-- Settles O32: at 127 bytes the length limit is the flush, from the state with the new cursor. -/
theorem encStepFlushesFullRun : Obligations.EncStepFlushesFullRun := by
  unfold Obligations.EncStepFlushesFullRun
  intro s f hi hs h0 hl hbehind
  obtain ⟨a, hstep, hgrown⟩ := encodeStep_noMatch hi hs h0 (by rw [hl]; decide)
  have hlit : a.lit.toNat = 127 := by rw [hgrown.lit, hl]
  have hcursor := hgrown.cursor
  have hne : a.lit ≠ 0#7 := lit_ne_zero_iff.mpr (by omega)
  rw [limitRun_eq_flushRun hlit] at hstep
  refine ⟨fun hfit => ?_, fun hfull => ?_⟩
  · obtain ⟨s', hok⟩ := flushRun_fits hne (by omega) (by rw [hgrown.inLen]; omega)
      (by rw [hgrown.o, hgrown.outCap]; omega)
    rw [hok] at hstep
    obtain ⟨hem, hlit', ho, -, hholds, hsame⟩ := flushRun_ok hok
    obtain ⟨hhdr, hrun⟩ := outHolds_encodeLit_pendingRun hholds
    rw [hlit, hgrown.o] at ho hsame hhdr
    rw [hlit, hgrown.o, hcursor, Nat.add_sub_add_right s.i.toNat 1 126] at hrun
    refine ⟨s', congrArg settle hstep, encodeStep_encodeFrame hstep, by rw [hlit']; rfl, ?_, by omega, hhdr,
      fun j hj => ?_, fun x hx => ?_⟩
    · rw [hem.frame]; exact hcursor
    · rw [hrun j hj, inByte_congr hgrown.inp]
    · rw [hsame x (by omega), outByte_congr hgrown.out]
  · rw [flushRun_full hne (by rw [hgrown.o, hgrown.outCap]; omega)] at hstep
    exact ⟨_, congrArg settle hstep, rfl, rfl, rfl, hcursor, hgrown.o, hgrown.o, hgrown.out⟩

/-! ### With a match -/

/-- The encoding of the pending run, if there is one (R163). -/
def pendingBytes (s : State) : List Byte := if s.lit = 0#7 then [] else encodeLit (pendingRun s)

theorem pendingBytes_length (s : State) :
    (pendingBytes s).length = if s.lit = 0#7 then 0 else 1 + s.lit.toNat := by
  unfold pendingBytes
  split
  · rfl
  · rw [encodeLit_length, pendingRun_length, Nat.add_comm]

/-- What an ENCSTEP with a match emits is as long as the obligations count it: 3 bytes, or the run's and 4 more. -/
theorem pendingBytes_length_add_three (s : State) :
    (pendingBytes s).length + 3 = if s.lit.toNat = 0 then 3 else s.lit.toNat + 4 := by
  have hiff : s.lit = 0#7 ↔ s.lit.toNat = 0 := by rw [BitVec.toNat_eq, BitVec.toNat_zero]
  rw [pendingBytes_length]
  by_cases h0 : s.lit = 0#7
  · rw [if_pos h0, if_pos (hiff.mp h0)]
  · rw [if_neg h0, if_neg (mt hiff.mpr h0)]; omega

theorem outHolds_append {s : State} {a : Nat} {xs ys : List Byte} (hx : outHolds s a xs)
    (hy : outHolds s (a + xs.length) ys) : outHolds s a (xs ++ ys) := fun j hj => by
  by_cases hjx : j < xs.length
  · rw [List.getElem_append_left hjx]
    exact hx j hjx
  · rw [List.length_append] at hj
    rw [List.getElem_append_right (Nat.le_of_not_lt hjx), ← hy (j - xs.length) (by omega)]
    congr 1
    omega

/-- `s'` is `s` with these bytes written at `o`, and no run pending. -/
structure Wrote (bytes : List Byte) (s s' : State) : Prop where
  emitted : Emitted s s'
  lit : s'.lit = 0#7
  o : s'.o.toNat = s.o.toNat + bytes.length
  holds : outHolds s' s.o.toNat bytes
  same : outSameOutside s.o.toNat (s.o.toNat + bytes.length) s s'

theorem flushPending_wrote {s s' : State} (h : flushPending s = .ok s') : Wrote (pendingBytes s) s s' := by
  unfold flushPending at h
  unfold pendingBytes
  split at h
  case isTrue h0 =>
    cases h
    rw [if_pos h0]
    exact ⟨.refl s, h0, rfl, fun j hj => absurd hj (Nat.not_lt_zero j), fun _ _ => rfl⟩
  case isFalse h0 =>
    obtain ⟨hem, hlit, ho, -, hholds, hsame⟩ := flushRun_ok h
    have hlen : (encodeLit (pendingRun s)).length = s.lit.toNat + 1 := by rw [encodeLit_length, pendingRun_length]
    rw [if_neg h0]
    exact ⟨hem, hlit, by omega, hholds, fun a ha => hsame a (by omega)⟩

theorem takeMatch_wrote {off len : Nat} {s s' : State} (h : takeMatch off len s = .ok s') :
    ∃ s1, flushPending s = .ok s1 ∧ s'.lit = 0#7 ∧ s'.o.toNat = s.o.toNat + (pendingBytes s).length + 3 ∧
      outHolds s' s.o.toNat (pendingBytes s ++ encodeMatch (BitVec.ofNat 7 len) (BitVec.ofNat 16 off)) ∧
      outSameOutside s.o.toNat s'.o.toNat s s' := by
  obtain ⟨s1, hflush, hmatch⟩ := bind_eq_ok.mp h
  obtain ⟨-, hlit1, ho1, hholds1, hsame1⟩ := flushPending_wrote hflush
  obtain ⟨-, hlit, ho, hholds, hsame⟩ := emitToken_ok hmatch
  rw [ho1] at ho hholds hsame
  refine ⟨s1, hflush, hlit.trans hlit1, ho, outHolds_append (fun j hj => ?_) hholds, fun a ha => ?_⟩
  · rw [hsame _ (.inl (by omega)), hholds1 j hj]
  · rw [hsame a (by omega), hsame1 a (by omega)]

/-- The run's flush goes on where the run fits (R168); with no run there is nothing to fit. -/
theorem flushPending_fits {s : State} (hl : s.lit.toNat ≤ s.i.toNat) (hi : s.i.toNat ≤ s.inLen.toNat)
    (hfit : s.o.toNat + (pendingBytes s).length ≤ s.outCap.toNat) : ∃ s', flushPending s = .ok s' := by
  rw [pendingBytes_length] at hfit
  unfold flushPending
  by_cases h0 : s.lit = 0#7
  · exact ⟨s, if_pos h0⟩
  · rw [if_neg h0] at hfit ⊢
    exact flushRun_fits h0 hl hi (by omega)

theorem takeMatch_of_flushPending {off len : Nat} {s s1 : State} (h : flushPending s = .ok s1) :
    takeMatch off len s = emitToken (BitVec.ofNat 7 len) (BitVec.ofNat 16 off) s1 := by
  rw [takeMatch, h, ok_bind]

theorem Wrote.outCap {bytes : List Byte} {s s' : State} (h : Wrote bytes s s') : s'.outCap = s.outCap := by
  rw [h.emitted.frame]

theorem takeMatch_fits {off len : Nat} {s : State} (hl : s.lit.toNat ≤ s.i.toNat) (hi : s.i.toNat ≤ s.inLen.toNat)
    (hfit : s.o.toNat + (pendingBytes s).length + 3 ≤ s.outCap.toNat) : ∃ s', takeMatch off len s = .ok s' := by
  obtain ⟨s1, hflush⟩ := flushPending_fits hl hi (by omega)
  have hwrote := flushPending_wrote hflush
  rw [takeMatch_of_flushPending hflush]
  exact emitToken_fits (by rw [hwrote.o, hwrote.outCap]; exact hfit) _ _

/-- With the run out and no room for the match the fault is raised from where the run went out (R163, R246). -/
theorem takeMatch_full {off len : Nat} {s s1 : State} (h : flushPending s = .ok s1)
    (hfull : s.outCap.toNat < s.o.toNat + (pendingBytes s).length + 3) :
    takeMatch off len s = .error (.raised (encoderFault s1)) := by
  have hwrote := flushPending_wrote h
  rw [takeMatch_of_flushPending h]
  exact emitToken_full (by rw [hwrote.o, hwrote.outCap]; exact hfull) _ _

section
variable {s st : State} (h : searchFrame s st)
include h

theorem searchFrame.keeps : st.i = s.i ∧ st.lit = s.lit ∧ st.o = s.o ∧ st.inLen = s.inLen ∧ st.outCap = s.outCap := by
  rw [h]
  exact ⟨rfl, rfl, rfl, rfl, rfl⟩

theorem searchFrame.pendingBytes_eq : pendingBytes st = pendingBytes s := by
  rw [pendingBytes, h.pendingRun_eq, h.keeps.2.1, pendingBytes]

end

/-- Settles O33: run and match go out one after the other, and of a match no run is left for the length limit. -/
theorem encStepTakesMatch : Obligations.EncStepTakesMatch := by
  unfold Obligations.EncStepTakesMatch
  intro s f hi hbehind hs h0 hfit
  obtain ⟨hfr, hpair⟩ := searchCursor_ok hs
  obtain ⟨ei, elit, eo, en, ecap⟩ := hfr.keeps
  have ebytes := hfr.pendingBytes_eq
  rw [← pendingBytes_length] at hfit ⊢
  obtain ⟨s1, htake⟩ : ∃ s1, takeMatch f.off f.len f.st = .ok s1 := by
    refine takeMatch_fits ?_ ?_ ?_
    · rwa [elit, ei]
    · rw [ei, en]; exact Nat.le_of_lt hi
    · rwa [eo, ebytes, ecap]
  have ha : actOn f = .ok s1 := (if_neg h0).trans htake
  obtain ⟨-, -, hlit, ho, hholds, hsame⟩ := takeMatch_wrote htake
  rw [eo, ebytes] at ho hholds
  rw [eo] at hsame
  have hstep := encodeStep_of_actOn hi hs ha
  rw [limitRun_eq_ok (by rw [advance_lit, hlit]; decide)] at hstep
  obtain ⟨hhead, hchain⟩ := advance_tables hs ha f.len
  refine ⟨_, congrArg settle hstep, encodeStep_encodeFrame hstep, by rw [advance_lit, hlit],
    advance_actOn_i_toNat hi hs ha, by omega, by omega, by rw [advance_o, ho], fun j hj => ?_, fun a haway => ?_, hhead,
    hchain⟩
  · rw [outByte_congr (advance_out ..)]
    exact hholds j hj
  · rw [advance_o] at haway
    rw [outByte_congr (advance_out ..), hsame a haway, outByte_congr (show f.st.out = s.out by rw [hfr])]

/-- Settles O34: the run's own test, the match's with no run, and the match's after the run. -/
theorem encStepRaisesBufferTooSmall : Obligations.EncStepRaisesBufferTooSmall := by
  unfold Obligations.EncStepRaisesBufferTooSmall
  intro s f hi hbehind hs h0
  have hfr := (searchCursor_ok hs).1
  obtain ⟨ei, elit, eo, en, ecap⟩ := hfr.keeps
  have hact : actOn f = takeMatch f.off f.len f.st := if_neg h0
  have hraises {s1 : State} (h : takeMatch f.off f.len f.st = .error (.raised (encoderFault s1))) :
      exec .encStep s = .next (encoderFault s1) :=
    congrArg settle (encodeStep_of_actOn_error hi hs (hact.trans h))
  refine ⟨fun hne hfull => hraises ?_, fun hnone hfull => hraises ?_, fun hne hfit hfull => ?_⟩
  · have hflush : flushPending f.st = .error (.raised (encoderFault f.st)) := by
      rw [flushPending, if_neg (elit ▸ hne)]
      exact flushRun_full (elit ▸ hne) (by rwa [ecap, eo, elit])
    rw [takeMatch, hflush, error_bind]
  · refine takeMatch_full (if_pos (elit.trans hnone)) ?_
    rw [pendingBytes_length, if_pos (elit.trans hnone), ecap, eo]
    exact hfull
  · have hne' : f.st.lit ≠ 0#7 := elit ▸ hne
    obtain ⟨s1, hflush⟩ := flushRun_fits hne' (by rwa [elit, ei]) (by rw [ei, en]; exact Nat.le_of_lt hi)
      (by rwa [eo, elit, ecap])
    refine ⟨s1, congrArg settle hflush, hraises (takeMatch_full ((if_neg hne').trans hflush) ?_)⟩
    rw [pendingBytes_length, if_neg hne', elit, ecap, eo]
    omega

/-! ### Between the steps of an ENCODE -/

/-- Settles O30: the search gives the closed form's pair, and the three decisions where OUT has room for any of them. -/
theorem encStepCompletes : Obligations.EncStepCompletes := by
  unfold Obligations.EncStepCompletes
  intro s hr hi hroom
  obtain ⟨f, hs, hpair⟩ := searchCursor_finds hr.index
  have hrange := (searchCursor_ok hs).2
  have hshort : s.lit.toNat < 127 := hr.runShort
  have hbehind := hr.runBehind
  have hsearch := hpair.search
  have hnear (hend : s.inLen.toNat ≤ s.i.toNat + 2) := hpair.near (Nat.not_lt.mpr hend)
  by_cases h0 : f.off = 0
  · have hlen : f.len = 1 := by omega
    by_cases hl : s.lit.toNat = 126
    · obtain ⟨s', hexec, hframe, hlit, hcursor, ho, -⟩ :=
        (encStepFlushesFullRun s f hi hs h0 hl (by omega)).1 (by omega)
      exact ⟨s', f.off, f.len, hexec, hframe, hsearch, hnear, by omega, by omega, by omega, fun _ _ => ⟨hlit, ho⟩,
        fun hne => absurd h0 hne⟩
    · obtain ⟨s', hexec, hframe, -, ho, hlit, hcursor, -⟩ := encStepGrowsRun s f hi hs h0 (by omega)
      exact ⟨s', f.off, f.len, hexec, hframe, hsearch, hnear, by omega, by omega, fun _ _ => ⟨hlit, ho⟩, by omega,
        fun hne => absurd h0 hne⟩
  · have hbytes := pendingBytes_length_add_three s
    have hfit : s.o.toNat + (pendingBytes s).length + 3 ≤ s.outCap.toNat := by split at hbytes <;> omega
    obtain ⟨s', hexec, hframe, hlit, hcursor, -, -, ho, -⟩ :=
      encStepTakesMatch s f hi hbehind hs h0 (by rwa [← pendingBytes_length])
    rw [← pendingBytes_length, Nat.add_assoc, hbytes] at ho
    exact ⟨s', f.off, f.len, hexec, hframe, hsearch, hnear, hcursor, by omega, fun h => absurd h h0,
      fun h => absurd h h0, fun _ => ⟨by rw [hlit]; rfl, ho⟩⟩

end Sys2Proof.Machine
end

section
/-! ## LIT and MATCH, guard by guard

Each guard of a token in the order of R200, and what the token writes once all of them pass. -/

namespace Sys2Proof.Machine

/-! ### A completed token's registers -/

theorem completeToken_o_toNat {s : State} {produced : Nat} (h : s.o.toNat + produced ≤ limit s) (m : Memory)
    (consumed : Nat) : (completeToken m produced consumed s).o.toNat = s.o.toNat + produced :=
  word_toNat (Nat.lt_of_le_of_lt h (limit_le_maxWord s))

theorem completeToken_t_toNat {s : State} {consumed : Nat} (h : s.t.toNat + consumed ≤ s.inLen.toNat) (m : Memory)
    (produced : Nat) : (completeToken m produced consumed s).t.toNat = s.t.toNat + consumed :=
  word_toNat (Nat.lt_of_le_of_lt h s.inLen.isLt)

/-! ### LIT -/

section
variable {bytes : List Byte} {s : State} (hne : bytes ≠ [])
include hne

theorem literalToken_truncated (h : s.inLen.toNat < s.t.toNat + 1 + bytes.length) :
    literalToken bytes s = .error (.raised (malformed causeTruncatedLiteral
      (latchHeader (litHeader (BitVec.ofNat 7 bytes.length)) s))) := by
  rw [literalToken, if_neg (mt List.length_eq_zero_iff.mp hne)]
  exact if_pos h

theorem literalToken_overflow (hin : s.t.toNat + 1 + bytes.length ≤ s.inLen.toNat)
    (h : limit s < s.o.toNat + bytes.length) :
    literalToken bytes s = .error (.raised (malformed causeOutputOverflow
      (latchHeader (litHeader (BitVec.ofNat 7 bytes.length)) s))) := by
  rw [literalToken, if_neg (mt List.length_eq_zero_iff.mp hne)]
  exact (if_neg (Nat.not_lt.mpr hin)).trans (if_pos h)

end

theorem storeLiteral_inside {s : State} (hr : real s) {bytes : List Byte} {j : Nat} (hj : j < bytes.length) :
    readCell (storeLiteral bytes s) (s.o.toNat + j) = bytes[j] := by
  rw [storeLiteral, if_pos hr]
  exact readCell_writeBytes_inside bytes s.out hj

/-- Settles O7: the two guards of R192, and the payload at `o` once both pass. -/
theorem litMeaning : Obligations.LitMeaning := by
  unfold Obligations.LitMeaning
  intro s bytes h1 _
  have hne : bytes ≠ [] := List.ne_nil_of_length_pos h1
  refine ⟨fun h => ⟨_, congrArg settle (literalToken_truncated hne h), (TokenLatch.header _ s).raisedMalformed _⟩,
    fun hin h => ⟨_, congrArg settle (literalToken_overflow hne hin h), (TokenLatch.header _ s).raisedMalformed _⟩,
    fun hin hfit => ?_⟩
  have ht : s.t.toNat + (1 + bytes.length) ≤ s.inLen.toNat := by omega
  refine ⟨_, congrArg settle (literalToken_completes hne hin hfit), rfl, ?ho, ?ht, fun hr => ⟨?holds, ?outside⟩,
    fun hr => if_neg hr⟩
  case ho => exact completeToken_o_toNat (s := latchHeader _ s) hfit _ _
  case ht => exact (completeToken_t_toNat (s := latchHeader _ s) ht _ _).trans (Nat.add_assoc ..).symm
  case holds => exact fun j hj => storeLiteral_inside hr hj
  case outside => exact fun a ha => storeLiteral_outside ha

/-! ### MATCH -/

section
variable {len : LenField} {off : OffField} {s : State} (hlen : len ≠ 0#7)
  (hin : s.t.toNat + 3 ≤ s.inLen.toNat)
include hlen hin

theorem matchToken_beyondOutput (h : s.o.toNat < off.toNat) :
    matchToken len off s = .error (.raised (malformed causeOffsetBeyondOutput
      (latchOffset off (latchHeader (matchHeader len) s)))) := by
  have hoff : off ≠ 0#16 := fun e => by simp [e] at h
  rw [matchToken, if_neg hlen]
  exact (if_neg (Nat.not_lt.mpr hin)).trans ((if_neg hoff).trans (if_pos h))

theorem matchToken_overflow (hoff : off ≠ 0#16) (hreach : off.toNat ≤ s.o.toNat)
    (h : limit s < s.o.toNat + len.toNat) :
    matchToken len off s = .error (.raised (malformed causeOutputOverflow
      (latchOffset off (latchHeader (matchHeader len) s)))) := by
  rw [matchToken, if_neg hlen]
  exact (if_neg (Nat.not_lt.mpr hin)).trans
    ((if_neg hoff).trans ((if_neg (Nat.not_lt.mpr hreach)).trans (if_pos h)))

end

/-- R194: each byte of the destination is the one `off` before it. -/
theorem storeMatch_inside {s : State} (hr : real s) {len : LenField} {off : OffField} (hoff : off ≠ 0#16)
    (hreach : off.toNat ≤ s.o.toNat) {j : Nat} (hj : j < len.toNat) :
    readCell (storeMatch len off s) (s.o.toNat + j) = readCell (storeMatch len off s) (s.o.toNat + j - off.toNat) := by
  have hpos : off.toNat ≠ 0 := fun e => hoff (BitVec.eq_of_toNat_eq e)
  rw [storeMatch, if_pos hr]
  exact readCell_copyBack_inside _ _ _ (Nat.one_le_iff_ne_zero.mpr hpos) hreach hj

/-- Settles O8: the guards of R193 in the order of R200, and the copy at `o` once all of them pass. -/
theorem matchMeaning : Obligations.MatchMeaning := by
  unfold Obligations.MatchMeaning
  intro s len off hlen
  refine ⟨fun h => ⟨_, congrArg settle (matchToken_truncated hlen off h), (TokenLatch.header _ s).raisedMalformed _⟩,
    fun hin hoff => ?_,
    fun hin h => ⟨_, congrArg settle (matchToken_beyondOutput hlen hin h), (TokenLatch.offset _ _ s).raisedMalformed _,
      rfl⟩,
    fun hin hoff hreach h => ⟨_, congrArg settle (matchToken_overflow hlen hin hoff hreach h),
      (TokenLatch.offset _ _ s).raisedMalformed _, rfl⟩,
    fun hin hoff hreach hfit => ?_⟩
  · subst hoff
    exact ⟨_, congrArg settle (matchToken_zeroOffset hlen hin), (TokenLatch.offset _ _ s).raisedMalformed _, rfl⟩
  · refine ⟨_, congrArg settle (matchToken_completes hlen hoff hin hreach hfit), rfl, rfl, ?ho, ?ht,
      fun hr => ⟨?repeats, ?outside⟩, fun hr => if_neg hr⟩
    case ho => exact completeToken_o_toNat (s := latchOffset off (latchHeader _ s)) hfit _ _
    case ht => exact completeToken_t_toNat (s := latchOffset off (latchHeader _ s)) hin _ _
    case repeats => exact fun j hj => storeMatch_inside hr hoff hreach hj
    case outside => exact fun a ha => storeMatch_outside ha

/-- Bytes from `o` on that each repeat the one `off` before it repeat the last `off` bytes before `o` periodically. -/
theorem periodic_of_repeats {f : Nat → Byte} {o off count : Nat} (hpos : 0 < off) (hreach : off ≤ o)
    (h : ∀ j, j < count → f (o + j) = f (o + j - off)) (j : Nat) (hj : j < count) :
    f (o + j) = f (o - off + j % off) := by
  induction j using Nat.strong_induction_on with
  | _ j ih =>
    rw [h j hj]
    by_cases hlt : j < off
    · rw [Nat.mod_eq_of_lt hlt, Nat.sub_add_comm hreach]
    · have hback : o + j - off = o + (j - off) := by omega
      rw [hback, ih (j - off) (by omega) (by omega), ← Nat.mod_eq_sub_mod (Nat.not_lt.mp hlt)]

/-- Settles O9: the copy of R193, unrolled; the bytes before `o` are not written. -/
theorem matchCopyIsPeriodic : Obligations.MatchCopyIsPeriodic := by
  unfold Obligations.MatchCopyIsPeriodic
  intro s len off hlen hoff hr hin hreach hfit
  obtain ⟨-, -, -, -, hcompletes⟩ := matchMeaning s len off hlen
  obtain ⟨s', hexec, -, -, -, -, hcopy, -⟩ := hcompletes hin hoff hreach (by rwa [real_limit hr])
  obtain ⟨hrepeats, houtside⟩ := hcopy hr
  have hpos : 0 < off.toNat := Nat.pos_of_ne_zero fun e => hoff (BitVec.eq_of_toNat_eq e)
  refine ⟨s', hexec, hrepeats, fun j hj => ?_⟩
  have hsource : s.o.toNat - off.toNat + j % off.toNat < s.o.toNat := by
    have := Nat.mod_lt j hpos
    omega
  exact (periodic_of_repeats hpos hreach hrepeats j hj).trans (houtside _ (.inl hsource))

end Sys2Proof.Machine
end

section
/-! ## The token step

The decoder sees a window of IN; the pseudocode of R191 reads IN at `t` byte by byte. Both find the same token, or the
same cause why there is none. -/

namespace Sys2Proof.Machine

/-! ### The step through the decoder -/

/-- On the engine's turn a running token walk with input left takes its next token (R190). -/
theorem step_eq_tokenStep {s s0 : State} (hturn : engineTurn s s0) (hb : busy s)
    (hc : s.cmd = opDecode ∨ s.cmd = opProbe) (ht : s.t.toNat < s.inLen.toNat) : step s = tokenStep s0 := by
  have hstep := step_engineTurn hturn
  obtain ⟨host, rfl⟩ := engineTurn_host hturn
  exact hstep.trans (engineStep_eq_tokenStep hb hc ht)

theorem tokenStep_of_reject {s : State} {r : Reject} (h : decodeToken (tokenWindow s) = .reject r) :
    tokenStep s = truncatedToken r s := by
  rw [tokenStep, h]

theorem malformed_latchHeader (cause : BitVec 3) (hdr : Byte) (s : State) :
    malformed cause (latchHeader hdr s) = tokenFault cause hdr (headerLen hdr) s.off s := rfl

theorem tokenStep_of_truncatedLiteral {s : State} {len : LenField}
    (h : decodeToken (tokenWindow s) = .reject (.truncatedLiteral len)) :
    tokenStep s = .next (tokenFault causeTruncatedLiteral (litHeader len) len s.off s) := by
  rw [tokenStep_of_reject h, truncatedToken, settle_raised, malformed_latchHeader, headerLen_litHeader]

theorem tokenStep_of_truncatedMatch {s : State} {len : LenField}
    (h : decodeToken (tokenWindow s) = .reject (.truncatedMatch len)) :
    tokenStep s = .next (tokenFault causeTruncatedMatch (matchHeader len) len s.off s) := by
  rw [tokenStep_of_reject h, truncatedToken, settle_raised, malformed_latchHeader, headerLen_matchHeader]

/-- Settles O36: the three answers of the decoder in the token step. -/
theorem stepRunsDecodedToken : Obligations.StepRunsDecodedToken := by
  unfold Obligations.StepRunsDecodedToken
  intro s s0 hturn hb hc ht
  have hstep := step_eq_tokenStep hturn hb hc ht
  obtain ⟨host, rfl⟩ := engineTurn_host hturn
  exact ⟨fun _ _ hd => hstep.trans (tokenStep_of_decodeToken hd),
    fun _ hd => hstep.trans (tokenStep_of_truncatedLiteral hd),
    fun _ hd => hstep.trans (tokenStep_of_truncatedMatch hd)⟩

/-! ### The window -/

/-- The header byte the pseudocode reads (R191). -/
abbrev nextHeader (s : State) : Byte := inByte s s.t.toNat

theorem inSlice_succ_eq_cons (s : State) (a n : Nat) : inSlice s a (n + 1) = inByte s a :: inSlice s (a + 1) n := by
  rw [Nat.add_comm n 1, inSlice_add]
  rfl

theorem inSlice_take {s : State} {a n k : Nat} (h : k ≤ n) : (inSlice s a n).take k = inSlice s a k := by
  rw [← Nat.add_sub_cancel' h, inSlice_add, List.take_left' (inSlice_length s a k)]

/-- How many bytes the decoder sees after the header at `t`. -/
def bytesAfterHeader (s : State) : Nat := min 127 (s.inLen.toNat - (s.t.toNat + 1))

theorem tokenWindow_eq_cons {s : State} (h : s.t.toNat < s.inLen.toNat) :
    tokenWindow s = nextHeader s :: inSlice s (s.t.toNat + 1) (bytesAfterHeader s) := by
  have hsize : min Config.maxTokenBytes (s.inLen.toNat - s.t.toNat) = bytesAfterHeader s + 1 := by
    rw [bytesAfterHeader, Config.maxTokenBytes]; omega
  rw [tokenWindow, hsize, inSlice_succ_eq_cons]

/-! ### The pseudocode, row by row -/

section
variable {s : State}

theorem walkToken_zeroLength (hlen : headerLen (nextHeader s) = 0#7) :
    walkToken s = zeroLengthToken (nextHeader s) s :=
  if_pos hlen

variable (hlen : headerLen (nextHeader s) ≠ 0#7)
include hlen

theorem walkToken_match (hm : headerIsMatch (nextHeader s) = true) (hin : s.t.toNat + 3 ≤ s.inLen.toNat) :
    walkToken s = matchToken (headerLen (nextHeader s))
      (offsetOf (inByte s (s.t.toNat + 1)) (inByte s (s.t.toNat + 2))) s :=
  (if_neg hlen).trans ((if_pos hm).trans (if_neg (Nat.not_lt.mpr hin)))

theorem walkToken_truncatedMatch (hm : headerIsMatch (nextHeader s) = true)
    (hin : s.inLen.toNat < s.t.toNat + 3) :
    walkToken s =
      .error (.raised (malformed causeTruncatedMatch (latchHeader (nextHeader s) s))) :=
  (if_neg hlen).trans ((if_pos hm).trans (if_pos hin))

theorem walkToken_literal (hm : headerIsMatch (nextHeader s) = false)
    (hin : s.t.toNat + 1 + (headerLen (nextHeader s)).toNat ≤ s.inLen.toNat) :
    walkToken s = literalToken (inSlice s (s.t.toNat + 1) (headerLen (nextHeader s)).toNat) s :=
  (if_neg hlen).trans ((if_neg (Bool.eq_false_iff.mp hm)).trans (if_neg (Nat.not_lt.mpr hin)))

theorem walkToken_truncatedLiteral (hm : headerIsMatch (nextHeader s) = false)
    (hin : s.inLen.toNat < s.t.toNat + 1 + (headerLen (nextHeader s)).toNat) :
    walkToken s =
      .error (.raised (malformed causeTruncatedLiteral (latchHeader (nextHeader s) s))) :=
  (if_neg hlen).trans ((if_neg (Bool.eq_false_iff.mp hm)).trans (if_pos hin))

end

/-! ### The two agree -/

section
variable {s : State} (ht : s.t.toNat < s.inLen.toNat)
include ht

theorem tokenStep_zeroLength (hlen : headerLen (nextHeader s) = 0#7) : tokenStep s = settle (walkToken s) := by
  have hd := decodeToken_zeroLength hlen (inSlice s (s.t.toNat + 1) (bytesAfterHeader s))
  rw [← tokenWindow_eq_cons ht] at hd
  rw [tokenStep_of_decodeToken hd, walkToken_zeroLength hlen]
  cases hm : headerIsMatch (nextHeader s) with
  | false => rw [← litHeader_headerLen hm, hlen]; rfl
  | true => rw [← matchHeader_headerLen hm, hlen]; rfl

theorem tokenStep_match (hlen : headerLen (nextHeader s) ≠ 0#7)
    (hm : headerIsMatch (nextHeader s) = true) : tokenStep s = settle (walkToken s) := by
  by_cases hin : s.t.toNat + 3 ≤ s.inLen.toNat
  · obtain ⟨n, hn⟩ : ∃ n, bytesAfterHeader s = n + 1 + 1 := ⟨bytesAfterHeader s - 2, by rw [bytesAfterHeader]; omega⟩
    have hwindow := tokenWindow_eq_cons ht
    rw [hn, inSlice_succ_eq_cons, inSlice_succ_eq_cons] at hwindow
    have hd := decodeToken_match hlen hm (inByte s (s.t.toNat + 1)) (inByte s (s.t.toNat + 2))
      (inSlice s (s.t.toNat + 1 + 1 + 1) n)
    rw [← hwindow] at hd
    rw [tokenStep_of_decodeToken hd, walkToken_match hlen hm hin]
    split
    next hoff => rw [hoff]; rfl
    next => rfl
  · have hshort : (inSlice s (s.t.toNat + 1) (bytesAfterHeader s)).length < 2 := by
      rw [inSlice_length, bytesAfterHeader]; omega
    have hd := decodeToken_truncatedMatch hlen hm hshort
    rw [← tokenWindow_eq_cons ht] at hd
    rw [tokenStep_of_reject hd, walkToken_truncatedMatch hlen hm (Nat.not_le.mp hin), truncatedToken,
      matchHeader_headerLen hm]

theorem tokenStep_literal (hlen : headerLen (nextHeader s) ≠ 0#7)
    (hm : headerIsMatch (nextHeader s) = false) : tokenStep s = settle (walkToken s) := by
  have hmax := (headerLen (nextHeader s)).isLt
  by_cases hin : s.t.toNat + 1 + (headerLen (nextHeader s)).toNat ≤ s.inLen.toNat
  · have hfit : (headerLen (nextHeader s)).toNat ≤ bytesAfterHeader s := by rw [bytesAfterHeader]; omega
    have hd := decodeToken_literal hlen hm (rest := inSlice s (s.t.toNat + 1) (bytesAfterHeader s))
      (by rwa [inSlice_length])
    rw [← tokenWindow_eq_cons ht, inSlice_take hfit] at hd
    rw [tokenStep_of_decodeToken hd, walkToken_literal hlen hm hin]
    rfl
  · have hshort : (inSlice s (s.t.toNat + 1) (bytesAfterHeader s)).length < (headerLen (nextHeader s)).toNat := by
      rw [inSlice_length, bytesAfterHeader]; omega
    have hd := decodeToken_truncatedLiteral hlen hm hshort
    rw [← tokenWindow_eq_cons ht] at hd
    rw [tokenStep_of_reject hd, walkToken_truncatedLiteral hlen hm (Nat.not_le.mp hin), truncatedToken,
      litHeader_headerLen hm]

end

/-- Settles O11: header by header, as R98 splits them. -/
theorem tokenStepFollowsPseudocode : Obligations.TokenStepFollowsPseudocode := by
  unfold Obligations.TokenStepFollowsPseudocode
  intro s ht
  by_cases hlen : headerLen (nextHeader s) = 0#7
  · exact tokenStep_zeroLength ht hlen
  · cases hm : headerIsMatch (nextHeader s) with
    | true => exact tokenStep_match ht hlen hm
    | false => exact tokenStep_literal ht hlen hm

end Sys2Proof.Machine
end

section
/-! ## A token walk ends (R202)

A token that completes consumes at least two bytes; one that does not ends the walk. -/

namespace Sys2Proof.Machine

/-- A token ends the walk in FAULT, or consumes at least two bytes and leaves the result registers alone. -/
theorem TokenEnd.faults_or_consumes {s s' : State} (h : TokenEnd s s') :
    s'.status = statusFault ∨
      (s'.status = s.status ∧ s.t.toNat + 2 ≤ s'.t.toNat ∧ s'.t.toNat ≤ s'.inLen.toNat) := by
  cases h with
  | faulted => exact .inl rfl
  | completed s1 m produced consumed hlatch _ htwo hin =>
    have hin1 : s1.t.toNat + consumed ≤ s1.inLen.toNat := by rw [hlatch]; exact hin
    have ht := completeToken_t_toNat hin1 m produced
    have et : s1.t = s.t := by rw [hlatch]
    refine .inr ⟨by rw [hlatch]; rfl, ?_, ?_⟩
    · rw [ht, et]; omega
    · rw [ht]; exact hin1

/-- A token walk runs, and the host makes no more moves. -/
structure WalkAlone (s : State) : Prop where
  host : s.host = []
  busy : busy s
  cmd : s.cmd = opDecode ∨ s.cmd = opProbe

theorem WalkAlone.after_token {s s' : State} (h : WalkAlone s) (he : TokenEnd s s') (hst : s'.status = s.status) :
    WalkAlone s' where
  host := by rw [he.frame]; exact h.host
  busy := hst.trans h.busy
  cmd := by rw [show s'.cmd = s.cmd by rw [he.frame]]; exact h.cmd

/-- A step of a walk: the end of the command, or one of a token's ends. -/
theorem WalkAlone.step_cases {s : State} (h : WalkAlone s) :
    step s = .next (endCommand s) ∨ ∃ s', step s = .next s' ∧ TokenEnd s s' := by
  have hturn : engineTurn s s := .inl ⟨h.host, rfl⟩
  by_cases ht : s.t.toNat < s.inLen.toNat
  · rw [step_eq_tokenStep hturn h.busy h.cmd ht]
    exact .inr (tokenStep_end ht)
  · rw [step_engineTurn hturn]
    exact .inl (engineStep_eq_endCommand h.busy h.cmd (Nat.not_lt.mp ht))

/-- The walk ends within one step for every two bytes left and one more, by induction on the bytes left. -/
theorem WalkAlone.ends {s : State} (h : WalkAlone s) :
    ∃ k s', k ≤ (s.inLen.toNat - s.t.toNat) / 2 + 1 ∧ Sys2Proof.core.run k s = .next s' ∧ ended s' := by
  induction hleft : s.inLen.toNat - s.t.toNat using Nat.strong_induction_on generalizing s with
  | _ left ih =>
    have hlast {s' : State} (hs : step s = .next s') (he : ended s') :
        ∃ k s', k ≤ left / 2 + 1 ∧ Sys2Proof.core.run k s = .next s' ∧ ended s' :=
      ⟨1, s', Nat.le_add_left .., run_succ_of_step (M := Sys2Proof.core) hs 0, he⟩
    rcases h.step_cases with hend | ⟨s1, hstep, htok⟩
    · exact hlast hend (.inl rfl)
    rcases htok.faults_or_consumes with hfault | ⟨hst, htwo, hin⟩
    · exact hlast hstep (.inr hfault)
    have en : s1.inLen.toNat = s.inLen.toNat := by rw [htok.frame]
    obtain ⟨k, s', hk, hrun, hended⟩ := ih (s1.inLen.toNat - s1.t.toNat) (by omega) (h.after_token htok hst) rfl
    exact ⟨k + 1, s', by omega, (run_succ_of_step (M := Sys2Proof.core) hstep k).trans hrun, hended⟩

/-- Settles O51: a running walk left alone. -/
theorem tokenWalkTerminates : Obligations.TokenWalkTerminates := by
  unfold Obligations.TokenWalkTerminates
  exact fun s hhost hbusy hcmd _ => WalkAlone.ends ⟨hhost, hbusy, hcmd⟩

end Sys2Proof.Machine
end

section
/-! ## DECODE and PROBE over one stream

Over a legal stream both end DONE. Over any stream (R204) they go on together, and differ only where a token does not
fit the capacity: there DECODE takes its overflow, and the output PROBE counts is already beyond it. -/

namespace Sys2Proof.Machine

/-- Settles O58: the walk over a legal stream, in both its commands. -/
theorem decodeExpandsStream : Obligations.DecodeExpandsStream := by
  unfold Obligations.DecodeExpandsStream
  intro s toks bytes hq hlegal hexp hin
  refine ⟨fun hroom => ?decode, fun hroom => ?probe⟩
  case decode =>
    obtain ⟨s', hreach, hdone, -, hout, -⟩ := (walking_start hq (.inl rfl) hin).reaches_expansion hlegal hexp hroom
    exact ⟨_, s', exec_decode_of_quiet hq, hreach, hdone, hout rfl⟩
  case probe =>
    obtain ⟨s', hreach, hdone, hlen, -, hkept⟩ :=
      (walking_start hq (.inr rfl) hin).reaches_expansion hlegal hexp hroom
    exact ⟨_, s', exec_probe_of_quiet hq, hreach, hdone, hlen, hkept (show opProbe ≠ opDecode by decide)⟩

/-! ### Output is only counted upwards -/

theorem TokenEnd.produced_le {s s' : State} (h : TokenEnd s s') : s.o.toNat ≤ s'.o.toNat := by
  cases h with
  | faulted s1 _ hlatch => rw [hlatch]; exact Nat.le_refl _
  | completed s1 m produced consumed hlatch _ _ _ hfit =>
    have hfit1 : s1.o.toNat + produced ≤ limit s1 := by rw [hlatch]; exact hfit
    have eo : s1.o = s.o := by rw [hlatch]
    rw [completeToken_o_toNat hfit1, eo]
    exact Nat.le_add_right ..

/-- A turn of the pseudocode with input left: one of a token's ends. -/
theorem walkToken_end {s : State} (ht : s.t.toNat < s.inLen.toNat) :
    ∃ s', settle (walkToken s) = .next s' ∧ TokenEnd s s' :=
  tokenStepFollowsPseudocode s ht ▸ tokenStep_end ht

/-! ### One token under two capacities -/

/-- The state of a DECODE with this capacity and this OUT, everything else as in `s`. -/
def asDecode (cap : Word) (m : Memory) (s : State) : State := { s with cmd := opDecode, outCap := cap, out := m }

/-- A token's last guard and its completion (R192, R193, R200). -/
def completeIfFits (m : Memory) (produced consumed : Nat) (s : State) : Exec State :=
  if limit s < s.o.toNat + produced then .error (.raised (malformed causeOutputOverflow s))
  else .ok (completeToken m produced consumed s)

section
variable {s : State} {produced : Nat}

theorem completeIfFits_fits (h : s.o.toNat + produced ≤ limit s) (m : Memory) (consumed : Nat) :
    completeIfFits m produced consumed s = .ok (completeToken m produced consumed s) :=
  if_neg (Nat.not_lt.mpr h)

theorem completeIfFits_over (h : limit s < s.o.toNat + produced) (m : Memory) (consumed : Nat) :
    completeIfFits m produced consumed s = .error (.raised (malformed causeOutputOverflow s)) :=
  if_pos h

end

/-- A token run from `s` and from a DECODE beside it (`asDecode`): one fault for both before the last guard, or both
come to the last guard. -/
inductive TokenTwins (cap : Word) (s : State) : Exec State → Exec State → Prop where
  | fault (s1 : State) (m : Memory) (cause : BitVec 3) : s1.o = s.o →
      TokenTwins cap s (.error (.raised (malformed cause s1))) (.error (.raised (malformed cause (asDecode cap m s1))))
  | lastGuard (s1 : State) (m m1 m2 : Memory) (produced consumed : Nat) : s1.o = s.o → limit s1 = limit s →
      TokenTwins cap s (completeIfFits m1 produced consumed s1)
        (completeIfFits m2 produced consumed (asDecode cap m s1))

section
variable {cap : Word} {s : State}

/-- A guard that does not look at the capacity decides the same way for both. -/
theorem TokenTwins.ite {c : Prop} [Decidable c] {x x' y y' : Exec State} (hx : TokenTwins cap s x x')
    (hy : TokenTwins cap s y y') : TokenTwins cap s (if c then x else y) (if c then x' else y') := by
  split
  next => exact hx
  next => exact hy

theorem zeroLengthToken_twins (hdr : Byte) (m : Memory) :
    TokenTwins cap s (zeroLengthToken hdr s) (zeroLengthToken hdr (asDecode cap m s)) :=
  .fault (latchHeader hdr s) m _ rfl

theorem literalToken_twins (bytes : List Byte) (m : Memory) :
    TokenTwins cap s (literalToken bytes s) (literalToken bytes (asDecode cap m s)) :=
  .ite (zeroLengthToken_twins _ m) <|
  .ite (.fault (latchHeader _ s) m _ rfl) <|
  .lastGuard (latchHeader _ s) m _ _ _ _ rfl rfl

theorem matchToken_twins (len : LenField) (off : OffField) (m : Memory) :
    TokenTwins cap s (matchToken len off s) (matchToken len off (asDecode cap m s)) :=
  .ite (zeroLengthToken_twins _ m) <|
  .ite (.fault (latchHeader _ s) m _ rfl) <|
  .ite (.fault (latchOffset off (latchHeader _ s)) m _ rfl) <|
  .ite (.fault (latchOffset off (latchHeader _ s)) m _ rfl) <|
  .lastGuard (latchOffset off (latchHeader _ s)) m _ _ _ _ rfl rfl

theorem walkToken_twins (m : Memory) : TokenTwins cap s (walkToken s) (walkToken (asDecode cap m s)) :=
  .ite (zeroLengthToken_twins _ m) <|
  .ite
    (.ite (.fault (latchHeader _ s) m _ rfl) (matchToken_twins _ _ m))
    (.ite (.fault (latchHeader _ s) m _ rfl) (literalToken_twins _ m))

theorem TokenTwins.raised_outLen {x y : Exec State} (h : TokenTwins cap s x y) {s' : State}
    (hx : x = .error (.raised s')) : s'.outLen = s'.o := by
  cases h with
  | fault => cases hx; rfl
  | lastGuard s1 m m1 m2 produced consumed =>
    by_cases hfit : s1.o.toNat + produced ≤ limit s1
    · rw [completeIfFits_fits hfit] at hx; cases hx
    · rw [completeIfFits_over (Nat.lt_of_not_le hfit)] at hx; cases hx; rfl

end

/-! ### A walk ends, and its result counts its output -/

section
variable {s : State} {fuel : Nat}

theorem walkLoop_token (h : s.t.toNat < s.inLen.toNat) : walkLoop (fuel + 1) s = walkToken s >>= walkLoop fuel :=
  if_pos h

theorem walkLoop_done (h : s.inLen.toNat ≤ s.t.toNat) : walkLoop (fuel + 1) s = .ok (endCommand s) :=
  if_neg (Nat.not_lt.mpr h)

end

theorem walkLoop_end (fuel : Nat) (s : State) :
    ∃ s', settle (walkLoop fuel s) = .next s' ∧ s'.outLen = s'.o ∧ s.o.toNat ≤ s'.o.toNat := by
  induction fuel generalizing s with
  | zero => exact ⟨_, rfl, rfl, Nat.le_refl _⟩
  | succ fuel ih =>
    by_cases ht : s.t.toNat < s.inLen.toNat
    · rw [walkLoop_token ht]
      obtain ⟨s1, hs1, hend⟩ := walkToken_end ht
      rcases settle_eq_next.mp hs1 with hok | hraised
      · obtain ⟨s', hs', hlen, ho⟩ := ih s1
        exact ⟨s', by rw [hok, ok_bind, hs'], hlen, Nat.le_trans hend.produced_le ho⟩
      · exact ⟨s1, by rw [hraised, error_bind, settle_raised],
          (walkToken_twins (cap := s.outCap) s.out).raised_outLen hraised, hend.produced_le⟩
    · rw [walkLoop_done (Nat.not_lt.mp ht)]
      exact ⟨_, rfl, rfl, Nat.le_refl _⟩

/-! ### The two walks side by side -/

/-- How a piece of a walk (the first answer) compares with the same piece of a DECODE with no more capacity than the
walk's `LIMIT` (the second). -/
inductive AgreeUpTo (cap : Word) : Exec State → Exec State → Prop where
  /-- Both go on, within the capacity. -/
  | goOn (s : State) (m : Memory) : s.o.toNat ≤ cap.toNat → cap.toNat ≤ limit s →
      AgreeUpTo cap (.ok s) (.ok (asDecode cap m s))
  /-- Both take the same fault at the same token. -/
  | fault (s : State) (m : Memory) : s.o.toNat ≤ cap.toNat →
      AgreeUpTo cap (.error (.raised s)) (.error (.raised (asDecode cap m s)))
  /-- A token does not fit the capacity, and the output the walk counts is beyond it. -/
  | overflow (x : Exec State) (s d : State) : settle x = .next s → cap.toNat < s.o.toNat →
      AgreeUpTo cap x (.error (.raised (malformed causeOutputOverflow d)))

section
variable {cap : Word}

/-- The last guard is where the capacity counts: a token that fits the capacity fits `LIMIT`, and one beyond `LIMIT` is
beyond the capacity. -/
theorem completeIfFits_agree {s : State} (hroom : s.o.toNat ≤ cap.toNat) (hlimit : cap.toNat ≤ limit s)
    (m m1 m2 : Memory) (produced consumed : Nat) :
    AgreeUpTo cap (completeIfFits m1 produced consumed s)
      (completeIfFits m2 produced consumed (asDecode cap m s)) := by
  have hd : limit (asDecode cap m s) = cap.toNat := real_limit rfl
  by_cases hcap : s.o.toNat + produced ≤ cap.toNat
  · have hfit : s.o.toNat + produced ≤ limit s := Nat.le_trans hcap hlimit
    have ho := completeToken_o_toNat hfit m1 consumed
    rw [completeIfFits_fits hfit, completeIfFits_fits (s := asDecode cap m s) (hcap.trans_eq hd.symm)]
    exact .goOn (completeToken m1 produced consumed s) m2 (ho.symm ▸ hcap) hlimit
  · have hover : cap.toNat < s.o.toNat + produced := Nat.lt_of_not_le hcap
    rw [completeIfFits_over (s := asDecode cap m s) (hd.trans_lt hover)]
    by_cases hfit : s.o.toNat + produced ≤ limit s
    · have ho := completeToken_o_toNat hfit m1 consumed
      rw [completeIfFits_fits hfit]
      exact .overflow _ _ _ rfl (ho.symm ▸ hover)
    · rw [completeIfFits_over (Nat.lt_of_not_le hfit)]
      exact .fault (malformed causeOutputOverflow s) m hroom

theorem TokenTwins.agree {s : State} {x y : Exec State} (h : TokenTwins cap s x y) (hroom : s.o.toNat ≤ cap.toNat)
    (hlimit : cap.toNat ≤ limit s) : AgreeUpTo cap x y := by
  cases h with
  | fault s1 m cause ho => exact .fault (malformed cause s1) m (ho ▸ hroom)
  | lastGuard s1 m m1 m2 produced consumed ho hl =>
    exact completeIfFits_agree (ho ▸ hroom) (hl ▸ hlimit) m m1 m2 produced consumed

/-- What follows a piece keeps the two alike, if it keeps them alike from where both go on and never counts output
down. -/
theorem AgreeUpTo.bind {x y : Exec State} (h : AgreeUpTo cap x y) {g : State → Exec State}
    (hgo : ∀ s m, s.o.toNat ≤ cap.toNat → cap.toNat ≤ limit s → AgreeUpTo cap (g s) (g (asDecode cap m s)))
    (hend : ∀ s, ∃ s', settle (g s) = .next s' ∧ s.o.toNat ≤ s'.o.toNat) : AgreeUpTo cap (x >>= g) (y >>= g) := by
  cases h with
  | goOn s m hroom hlimit => exact hgo s m hroom hlimit
  | fault s m hroom => exact .fault s m hroom
  | overflow _ s d hs hover =>
    rcases settle_eq_next.mp hs with rfl | rfl
    · obtain ⟨s', hs', ho⟩ := hend s
      exact .overflow _ s' d hs' (Nat.lt_of_lt_of_le hover ho)
    · exact .overflow _ s d rfl hover

/-- By induction on the tokens the walk may take. -/
theorem walkLoop_agree (fuel : Nat) {s : State} (m : Memory) (hroom : s.o.toNat ≤ cap.toNat)
    (hlimit : cap.toNat ≤ limit s) : AgreeUpTo cap (walkLoop fuel s) (walkLoop fuel (asDecode cap m s)) := by
  induction fuel generalizing s m with
  | zero => exact .goOn (endCommand s) m hroom hlimit
  | succ fuel ih =>
    by_cases ht : s.t.toNat < s.inLen.toNat
    · rw [walkLoop_token ht, walkLoop_token (s := asDecode cap m s) ht]
      refine ((walkToken_twins m).agree hroom hlimit).bind (fun _ m' => ih m') fun s1 => ?_
      obtain ⟨s', hs', -, ho⟩ := walkLoop_end fuel s1
      exact ⟨s', hs', ho⟩
    · have hdone : s.inLen.toNat ≤ s.t.toNat := Nat.not_lt.mp ht
      rw [walkLoop_done hdone, walkLoop_done (s := asDecode cap m s) hdone]
      exact .goOn (endCommand s) m hroom hlimit

theorem AgreeUpTo.ends {x y : Exec State} (h : AgreeUpTo cap x y) {p : State} (hp : settle x = .next p) :
    (p.o.toNat ≤ cap.toNat ∧ ∃ m, settle y = .next (asDecode cap m p)) ∨
    (cap.toNat < p.o.toNat ∧ ∃ d, settle y = .next (malformed causeOutputOverflow d)) := by
  cases h with
  | goOn s m hroom => cases hp; exact .inl ⟨hroom, m, rfl⟩
  | fault s m hroom => cases hp; exact .inl ⟨hroom, m, rfl⟩
  | overflow _ s d hs hover => cases hp.symm.trans hs; exact .inr ⟨hover, d, rfl⟩

end

theorem limit_startWalk_probe (s : State) : limit (startWalk opProbe s) = Config.maxWord :=
  if_neg (show opProbe ≠ opDecode by decide)

/-- Settles O59: PROBE's walk beside that of a DECODE with this capacity, from the start. -/
theorem probeAndDecodeAgree : Obligations.ProbeAndDecodeAgree := by
  unfold Obligations.ProbeAndDecodeAgree
  intro s p cap hp
  have hlimit : cap.toNat ≤ limit (startWalk opProbe s) := by
    rw [limit_startWalk_probe]; exact Nat.le_of_lt_succ cap.isLt
  obtain ⟨p', hp', hlen, -⟩ := walkLoop_end s.inLen.toNat (startWalk opProbe s)
  obtain rfl : p' = p := by cases hp'.symm.trans hp; rfl
  rw [hlen]
  rcases (walkLoop_agree s.inLen.toNat s.out (Nat.zero_le _) hlimit).ends hp with ⟨hroom, m, hd⟩ | ⟨hover, d, hd⟩
  · exact ⟨_, hd, fun hdone _ => ⟨hdone, hlen⟩, fun _ hsmall => absurd hroom (Nat.not_le.mpr hsmall),
      fun hfault _ => ⟨hfault, rfl, rfl, rfl⟩⟩
  · exact ⟨_, hd, fun _ hfit => absurd hfit (Nat.not_le.mpr hover), fun _ _ => ⟨rfl, rfl, rfl⟩,
      fun _ hfit => absurd hfit (Nat.not_le.mpr hover)⟩

end Sys2Proof.Machine
end

section
/-! ## What the host's moves answer

The start of a command, the access rights of R228, and the host's one breach (R226). -/

namespace Sys2Proof.Machine

/-- A start lands while no command runs (R224). -/
theorem unlessBusy_eq_start {s : State} (hb : ¬ busy s) (start : State → State) : unlessBusy start s = start s :=
  if_neg hb

/-- A start is ignored while a command runs (R226). -/
theorem unlessBusy_eq_self {s : State} (hb : busy s) (start : State → State) : unlessBusy start s = s := if_pos hb

/-- Settles O12: each start, written out. -/
theorem commandsStart : Obligations.CommandsStart := by
  unfold Obligations.CommandsStart
  intro s hb
  have hstart (start : State → State) :
      (Host.Outcome.next (unlessBusy start s) : Host.Outcome State Fault Refusal) = .next (start s) := by
    rw [unlessBusy_eq_start hb]
  exact ⟨hstart startEncode, hstart (startWalk opDecode), hstart (startWalk opProbe)⟩

/-- Settles O14: the reserved code's meaning is the state it was given. -/
theorem cmdReservedHasNoEffect : Obligations.CmdReservedHasNoEffect := fun _ => rfl

/-- Settles O15: the reserved code has no effect anyway, and each of the three starts is ignored. -/
theorem commandIgnoredWhileBusy : Obligations.CommandIgnoredWhileBusy := by
  unfold Obligations.CommandIgnoredWhileBusy
  intro s op hb
  simp only [exec_decodeCmd, unlessBusy_eq_self hb, ite_self]

theorem operandWrite_eq_next {s : State} (hb : ¬ busy s) (next : State) : operandWrite s next = .next next := if_neg hb

theorem operandWrite_eq_refused {s : State} (hb : busy s) (next : State) :
    operandWrite s next = .refused .operandWriteWhileBusy := if_pos hb

/-- The operands' writes while BUSY are refused (R226). -/
theorem hostStep_of_operandMove {m : HostMove} {s : State} (hb : busy s) (hm : operandMove m = true) :
    hostStep m s = .refused .operandWriteWhileBusy := by
  cases m with
  | writeReg r v =>
    cases r with
    | inLen | outCap => exact operandWrite_eq_refused hb _
    | cmd | outLen | status | faultKind | faultCause | faultPos => cases hm
  | writeIn a b | writeOut a b => exact operandWrite_eq_refused hb _
  | powerOn => cases hm

/-- Every other host move is answered. -/
theorem hostStep_answers {m : HostMove} {s : State} (h : ¬ (busy s ∧ operandMove m = true)) :
    ∃ s', hostStep m s = .next s' := by
  have hfree (hm : operandMove m = true) : ¬ busy s := fun hb => h ⟨hb, hm⟩
  cases m with
  | writeReg r v =>
    cases r with
    | cmd => exact ⟨_, exec_decodeCmd ..⟩
    | inLen | outCap => exact ⟨_, operandWrite_eq_next (hfree rfl) _⟩
    | outLen | status | faultKind | faultCause | faultPos => exact ⟨s, rfl⟩
  | writeIn a b | writeOut a b => exact ⟨_, operandWrite_eq_next (hfree rfl) _⟩
  | powerOn => exact ⟨_, rfl⟩

/-- Only bits 1:0 of a CMD write count (R27). -/
theorem setWidth_two_eq_mod_four (v : Word) : v.setWidth 2 = BitVec.ofNat 2 (v.toNat % 4) :=
  BitVec.eq_of_toNat_eq (by simp)

/-- Settles O16: register by register; a byte write is one cell's. -/
theorem hostWritesByAccessRight : Obligations.HostWritesByAccessRight := by
  unfold Obligations.HostWritesByAccessRight
  intro s v a b
  refine ⟨?cmd, fun hb => ⟨?inLen, ?outCap, ?inByte, ?outByte⟩, fun hb m hm => hostStep_of_operandMove hb hm,
    ?readOnly⟩
  case cmd => rw [hostStep, setWidth_two_eq_mod_four]
  case inLen => exact operandWrite_eq_next hb _
  case outCap => exact operandWrite_eq_next hb _
  case inByte =>
    exact ⟨_, operandWrite_eq_next hb _, rfl, readCell_writeCell_same .., fun x hx => readCell_writeCell_other _ _ hx⟩
  case outByte =>
    exact ⟨_, operandWrite_eq_next hb _, rfl, readCell_writeCell_same .., fun x hx => readCell_writeCell_other _ _ hx⟩
  case readOnly => rintro r (rfl | rfl | rfl | rfl | rfl) <;> rfl

/-- Settles O40: the step on the host's turn. -/
theorem stepTakesHostMove : Obligations.StepTakesHostMove := by
  unfold Obligations.StepTakesHostMove
  intro s m rest hhost
  have hstep := step_hostTurn hhost
  exact ⟨hstep, fun v hm => by rw [hstep, hm, hostStep]⟩

end Sys2Proof.Machine
end

section
/-! ## No step stops

From the invariant the engine's step answers a next state, and so does every host move but the breach of R226. -/

namespace Sys2Proof.Machine

theorem Inv.encodeRunning {s : State} (h : Inv s) (hb : busy s) (hc : s.cmd = opEncode) : EncodeRunning hashFn s :=
  (h.running hb).elim And.right fun ⟨hw, _⟩ => absurd hc (walk_ops hw).1

theorem Inv.cmd_ne_reserved {s : State} (h : Inv s) (hb : busy s) : s.cmd ≠ opReserved := by
  rcases h.running hb with ⟨hc, -⟩ | ⟨hc, -⟩
  · rw [hc]; decide
  · exact (walk_ops hc).2

/-- The invariant holds the preconditions of an ENCSTEP and of the final flush, and says a code is held; a token never
stops. -/
theorem Inv.engineStep_answers {s : State} (h : Inv s) : ∃ s', engineStep s = .next s' := by
  cases engineStep_cases s with
  | idle _ e => exact ⟨_, e⟩
  | encStep hb hc hi e => rw [e]; exact (encodeStep_answers (h.encodeRunning hb hc) hi).settles
  | lastFlush hb hc _ hl e =>
    have hr := h.encodeRunning hb hc
    rw [e]
    exact (flushRun_answers hl hr.runBehind hr.cursor).settles
  | encodeEnds _ _ _ _ e => exact ⟨_, e⟩
  | noCommand hb hc _ => exact absurd hc (h.cmd_ne_reserved hb)
  | token _ _ ht e =>
    obtain ⟨s', hs', -⟩ := tokenStep_end ht
    exact ⟨s', e.trans hs'⟩
  | walkEnds _ _ _ e => exact ⟨_, e⟩

/-- Settles O50: on the engine's turn by the invariant, on the host's by what the move is. -/
theorem stepNeverStops : Obligations.StepNeverStops := by
  unfold Obligations.StepNeverStops
  intro s h
  rcases step_turns s with ⟨s0, hturn, hstep⟩ | ⟨m, rest, hhost, hstep⟩ <;> rw [hstep]
  · rw [engineTurn_frame hturn]
    exact .inl (h.withHost s0.host).engineStep_answers
  · by_cases hbreach : busy s ∧ operandMove m = true
    · obtain ⟨hb, hm⟩ := hbreach
      exact .inr ⟨hb, hostStep_of_operandMove (s := { s with host := rest }) hb hm, m, rest, hhost, hm⟩
    · exact .inl (hostStep_answers (s := { s with host := rest }) hbreach)

end Sys2Proof.Machine
end

section
/-! ## An ENCODE ends

Each ENCSTEP consumes a byte of input or takes the fault that ends the command (R165, R231). -/

namespace Sys2Proof.Machine

/-- The machine ends its command within `n` steps. -/
def EndsWithin (n : Nat) (s : State) : Prop := ∃ k s', k ≤ n ∧ Sys2Proof.core.run k s = .next s' ∧ ended s'

theorem EndsWithin.now {s : State} (h : ended s) (n : Nat) : EndsWithin n s := ⟨0, s, Nat.zero_le n, rfl, h⟩

theorem EndsWithin.of_step {n : Nat} {s s1 : State} (hstep : step s = .next s1) (h : EndsWithin n s1) :
    EndsWithin (n + 1) s := by
  obtain ⟨k, s', hk, hrun, hended⟩ := h
  exact ⟨k + 1, s', Nat.succ_le_succ hk, (run_succ_of_step (M := Sys2Proof.core) hstep k).trans hrun, hended⟩

theorem EndsWithin.mono {n n' : Nat} {s : State} (h : EndsWithin n s) (hle : n ≤ n') : EndsWithin n' s := by
  obtain ⟨k, s', hk, hend⟩ := h
  exact ⟨k, s', Nat.le_trans hk hle, hend⟩

/-- With no input left an ENCODE takes at most the final flush and the end of the command (R167, R170). -/
theorem EncodeAlone.endsWithin_two {s : State} (h : EncodeAlone s) (hr : EncodeRunning hashFn s)
    (hi : s.inLen.toNat ≤ s.i.toNat) : EndsWithin 2 s := by
  by_cases hl : s.lit = 0#7
  · exact .of_step (h.step_endCommand hi hl) (.now (.inl rfl) 1)
  obtain ⟨s1, hs1⟩ := (flushRun_answers hl hr.runBehind hr.cursor).settles
  refine .of_step ((h.step_flushRun hi hl).trans hs1) ?_
  rcases settle_eq_next.mp hs1 with hok | hraised
  · obtain ⟨hem, hl1, -⟩ := flushRun_ok hok
    have hi1 : s1.inLen.toNat ≤ s1.i.toNat := by rw [hem.frame]; exact hi
    exact .of_step ((h.congr hem.encodeEnd hem.sameResults).step_endCommand hi1 hl1) (.now (.inl rfl) 0)
  · rw [flushRun_raised hraised]
    exact .now (.inr rfl) 1

/-- By induction on the bytes of input that may be left. -/
theorem EncodeAlone.endsWithin {s : State} (h : EncodeAlone s) (hr : EncodeRunning hashFn s) (left : Nat)
    (hleft : s.inLen.toNat ≤ s.i.toNat + left) : EndsWithin (left + 2) s := by
  induction left generalizing s with
  | zero => exact h.endsWithin_two hr hleft
  | succ left ih =>
    by_cases hi : s.i.toNat < s.inLen.toNat
    · obtain ⟨s1, hs1⟩ := (encodeStep_answers hr hi).settles
      refine .of_step ((h.step_encodeStep hi).trans hs1) ?_
      rcases settle_eq_next.mp hs1 with hok | hraised
      · have hend := encodeStep_ok_encodeEnd hok
        have hrises := encodeStep_rises hok
        have en : s1.inLen = s.inLen := by rw [hend.frame]
        exact ih (h.congr hend (encodeStep_sameResults hok)) (encodeStep_running hr hok) (by rw [en]; omega)
      · exact .now (.inr (encodeStep_raised_status hraised)) _
    · exact (h.endsWithin_two hr (Nat.le_of_not_lt hi)).mono (Nat.le_add_left ..)

/-- Settles O52: a running ENCODE left alone. -/
theorem encodeTerminates : Obligations.EncodeTerminates := by
  unfold Obligations.EncodeTerminates
  intro s hinv hhost hb hc
  exact EncodeAlone.endsWithin ⟨hhost, hb, hc⟩ (hinv.encodeRunning hb hc) _ (by omega)

end Sys2Proof.Machine
end

section
/-! ## The two grains agree (R231)

The engine's steps are the turns of the whole-command functions, which answer in DONE or FAULT. -/

namespace Sys2Proof.Machine

/-! ### ENCODE -/

theorem flushPending_raised {s s' : State} (h : flushPending s = .error (.raised s')) : s' = encoderFault s := by
  unfold flushPending at h
  split at h
  · cases h
  · exact flushRun_raised h

theorem encodeEnd_raised_status {s s' : State} (h : encodeEnd s = .error (.raised s')) : s'.status = statusFault := by
  rw [encodeEnd] at h
  cases hflush : flushPending s with
  | ok s1 => rw [hflush] at h; cases h
  | error e =>
    rw [hflush] at h
    cases h
    rw [flushPending_raised hflush]
    rfl

/-- An ENCODE that takes the engine's fault ends in FAULT (R245). -/
theorem encodeLoop_raised_status {hf : Config.HashFn} (fuel : Nat) {s s' : State}
    (h : encodeLoop hf fuel s = .error (.raised s')) : s'.status = statusFault := by
  induction fuel generalizing s with
  | zero => exact encodeEnd_raised_status h
  | succ fuel ih =>
    rw [encodeLoop] at h
    split at h
    · rcases bind_eq_error.mp h with hstep | ⟨s1, -, hloop⟩
      · exact encodeStep_raised_status hstep
      · exact ih hloop
    · exact encodeEnd_raised_status h

/-- An ENCODE taken to its end at once is total, in DONE or FAULT. -/
theorem encodeLoop_ended {hf : Config.HashFn} (fuel : Nat) {s : State} (hr : EncodeRunning hf s) :
    ∃ s', settle (encodeLoop hf fuel s) = .next s' ∧ ended s' := by
  obtain ⟨s', hs'⟩ := (encodeLoop_answers fuel hr).settles
  refine ⟨s', hs', ?_⟩
  rcases settle_eq_next.mp hs' with hok | hraised
  · obtain ⟨s1, -, -, rfl⟩ := encodeLoop_ends fuel hr hok
    exact .inl rfl
  · exact .inr (encodeLoop_raised_status fuel hraised)

/-! ### DECODE and PROBE -/

/-- How a token answers: it goes on with STATUS as it was, or takes `MalformedStream`. -/
inductive TokenAnswer (s : State) : Exec State → Prop where
  | goesOn (s1 : State) : s1.status = s.status → TokenAnswer s (.ok s1)
  | faults (cause : BitVec 3) (s1 : State) : TokenAnswer s (.error (.raised (malformed cause s1)))

section
variable {s : State}

theorem TokenAnswer.ite {c : Prop} [Decidable c] {x y : Exec State} (hx : TokenAnswer s x) (hy : TokenAnswer s y) :
    TokenAnswer s (if c then x else y) := by
  split
  next => exact hx
  next => exact hy

theorem TokenAnswer.status_of_ok {x : Exec State} (h : TokenAnswer s x) {s1 : State} (hx : x = .ok s1) :
    s1.status = s.status := by
  cases h with
  | goesOn s1 hst => cases hx; exact hst
  | faults => cases hx

theorem TokenAnswer.status_of_raised {x : Exec State} (h : TokenAnswer s x) {s1 : State}
    (hx : x = .error (.raised s1)) : s1.status = statusFault := by
  cases h with
  | goesOn => cases hx
  | faults => cases hx; rfl

theorem literalToken_answer (bytes : List Byte) : TokenAnswer s (literalToken bytes s) :=
  .ite (.faults ..) <| .ite (.faults ..) <| .ite (.faults ..) <| .goesOn _ rfl

theorem matchToken_answer (len : LenField) (off : OffField) : TokenAnswer s (matchToken len off s) :=
  .ite (.faults ..) <| .ite (.faults ..) <| .ite (.faults ..) <| .ite (.faults ..) <| .ite (.faults ..) <|
    .goesOn _ rfl

theorem walkToken_answer : TokenAnswer s (walkToken s) :=
  .ite (.faults ..) <|
  .ite (.ite (.faults ..) (matchToken_answer ..)) (.ite (.faults ..) (literalToken_answer ..))

end

/-- The engine's step of a walk with input left is a turn of the pseudocode (R191). -/
theorem WalkAlone.step_walkToken {s : State} (h : WalkAlone s) (ht : s.t.toNat < s.inLen.toNat) :
    step s = settle (walkToken s) :=
  (step_eq_tokenStep (.inl ⟨h.host, rfl⟩) h.busy h.cmd ht).trans (tokenStepFollowsPseudocode s ht)

theorem WalkAlone.step_endCommand {s : State} (h : WalkAlone s) (ht : s.inLen.toNat ≤ s.t.toNat) :
    step s = .next (endCommand s) :=
  (step_engineTurn (.inl ⟨h.host, rfl⟩)).trans (engineStep_eq_endCommand h.busy h.cmd ht)

/-- The DECODE pseudocode's loop, given enough turns for the input left, is total, and the engine's steps reach its end,
in DONE or FAULT. -/
theorem WalkAlone.reaches_walkLoop {fuel : Nat} {s : State} (h : WalkAlone s)
    (hfuel : s.inLen.toNat ≤ s.t.toNat + fuel) :
    ∃ s', settle (walkLoop fuel s) = .next s' ∧ reaches s s' ∧ ended s' := by
  induction fuel generalizing s with
  | zero => exact ⟨_, rfl, .single (h.step_endCommand hfuel), .inl rfl⟩
  | succ fuel ih =>
    by_cases ht : s.t.toNat < s.inLen.toNat
    · rw [walkLoop_token ht]
      obtain ⟨s1, hs1, hend⟩ := walkToken_end ht
      have hstep := (h.step_walkToken ht).trans hs1
      rcases settle_eq_next.mp hs1 with hok | hraised
      · have hst := walkToken_answer.status_of_ok hok
        have hnofault : s1.status ≠ statusFault := hst ▸ busy_ne_fault h.busy
        obtain ⟨-, htwo, -⟩ := hend.faults_or_consumes.resolve_left hnofault
        have en : s1.inLen = s.inLen := by rw [hend.frame]
        obtain ⟨s', hs', hreach, hended⟩ := ih (h.after_token hend hst) (by rw [en]; omega)
        exact ⟨s', by rw [hok, ok_bind, hs'], .of_step hstep hreach, hended⟩
      · exact ⟨s1, by rw [hraised, error_bind, settle_raised], .single hstep,
          .inr (walkToken_answer.status_of_raised hraised)⟩
    · have hdone := Nat.le_of_not_lt ht
      exact ⟨_, congrArg settle (walkLoop_done hdone), .single (h.step_endCommand hdone), .inl rfl⟩

theorem walkAlone_start {s : State} (hq : quiet s) {op : BitVec 2} (hop : op = opDecode ∨ op = opProbe) :
    WalkAlone (startWalk op s) := ⟨hq.2, rfl, hop⟩

theorem wholeWalk_reached {s : State} (hq : quiet s) {op : BitVec 2} (hop : op = opDecode ∨ op = opProbe) :
    ∃ s', settle (wholeWalk op s) = .next s' ∧ reaches (startWalk op s) s' ∧ ended s' :=
  (walkAlone_start hq hop).reaches_walkLoop (Nat.le_add_left ..)

/-- Settles O53: the engine's steps go through the turns of the whole-command function one by one. -/
theorem coarseAndFineGrainAgree : Obligations.CoarseAndFineGrainAgree := by
  unfold Obligations.CoarseAndFineGrainAgree
  intro s hq
  refine ⟨?encode, ?decode, ?probe⟩
  case encode =>
    obtain ⟨s', hs', hended⟩ := encodeLoop_ended s.inLen.toNat (encodeRunning_start hashFn s)
    exact ⟨_, s', exec_encode_of_quiet hq, hs',
      (encodeAlone_start hq).reaches_encodeLoop (Nat.le_add_left ..) hs', hended⟩
  case decode =>
    obtain ⟨s', hs', hreach, hended⟩ := wholeWalk_reached hq (.inl rfl)
    exact ⟨_, s', exec_decode_of_quiet hq, hs', hreach, hended⟩
  case probe =>
    obtain ⟨s', hs', hreach, hended⟩ := wholeWalk_reached hq (.inr rfl)
    exact ⟨_, s', exec_probe_of_quiet hq, hs', hreach, hended⟩

end Sys2Proof.Machine
end

section
/-! ## Faults of a token walk, and the idle engine (R245 to R247)

A token that ends in FAULT has taken `MalformedStream`, which writes neither OUT nor `o` nor `t`; and the engine then
takes no step of its own. -/

namespace Sys2Proof.Machine

theorem TokenLatch.status {s s1 : State} (h : TokenLatch s s1) : s1.status = s.status := by rw [h]

/-- A running walk's token that leaves STATUS at FAULT has raised one of the six causes of R242: a token that completes
leaves STATUS at BUSY. -/
theorem TokenEnd.raisedMalformed_of_fault {s s' : State} (h : TokenEnd s s') (hb : busy s)
    (hf : s'.status = statusFault) : ∃ cause, 1 ≤ cause.toNat ∧ cause.toNat ≤ 6 ∧ raisedMalformed cause s s' := by
  cases h with
  | faulted s1 cause hl h1 h6 => exact ⟨cause, h1, h6, hl.raisedMalformed cause⟩
  | completed s1 _ _ _ hl =>
    have hbusy : s1.status = statusBusy := hl.status.trans hb
    exact absurd (hbusy.symm.trans hf) (by decide)

/-- Settles O47: of the ends of the engine's step only a token's is a fault of a running walk. -/
theorem tokenFaultsArePrecise : Obligations.TokenFaultsArePrecise := by
  unfold Obligations.TokenFaultsArePrecise
  intro s s' hb hne hstep hf
  cases engineStep_end hstep with
  | idle hidle => exact absurd hb hidle
  | encoded _ _ hc => exact absurd hc hne
  | token _ _ _ ht =>
    obtain ⟨cause, h1, h6, hraised⟩ := ht.raisedMalformed_of_fault hb hf
    rw [hraised]
    exact ⟨rfl, rfl, rfl, rfl, rfl, rfl, h1, h6⟩
  | ended => exact absurd (show statusDone = statusFault from hf) (by decide)

/-- Without a command the engine's step changes nothing (R245, R280). -/
theorem engineStep_eq_self {s : State} (hb : ¬ busy s) : engineStep s = .next s := if_pos hb

/-- Settles O39: what the engine sees on its turn has the same STATUS, so it is idle too. -/
theorem stepIdlesWithoutCommand : Obligations.StepIdlesWithoutCommand := by
  unfold Obligations.StepIdlesWithoutCommand
  intro s s0 hturn hb
  have hidle : ¬ busy s0 := by rw [engineTurn_frame hturn]; exact hb
  rw [step_engineTurn hturn, engineStep_eq_self hidle]

end Sys2Proof.Machine
end

section
/-! ## The start of an ENCODE and power-on reset (R280, R281) -/

namespace Sys2Proof.Machine

@[simp] theorem headAt_startEncode (s : State) (h : HashVal) : headAt (startEncode s) h = 0#32 := rfl
@[simp] theorem chainAt_startEncode (s : State) (p : Nat) : chainAt (startEncode s) p = 0#32 := rfl

/-- Settles O13: the start empties both tables, and a LOOKUP reads HEAD. -/
theorem encodeStartsWithEmptyIndex : Obligations.EncodeStartsWithEmptyIndex := by
  unfold Obligations.EncodeStartsWithEmptyIndex
  intro s hb
  obtain ⟨hencode, -, -⟩ := commandsStart s hb
  refine ⟨startEncode s, hencode, headAt_startEncode s, chainAt_startEncode s, rfl, rfl, rfl, fun h => ?_⟩
  obtain ⟨hlookup, -⟩ := lookupAndChainOfMeaning (startEncode s) h 0#32
  exact ⟨_, hlookup, headAt_startEncode s h⟩

/-- Power-on reset leaves no command running, whatever ran before (R280). -/
theorem not_busy_powerOn (s : State) : ¬ busy (powerOn s) := show statusIdle ≠ statusBusy by decide

theorem not_busy_reset : ¬ busy State.reset := not_busy_powerOn State.reset

/-- Settles O18: STATUS is IDLE after a reset, and an idle engine's step changes nothing. -/
theorem powerOnReset : Obligations.PowerOnReset := by
  unfold Obligations.PowerOnReset
  refine ⟨fun s => ⟨powerOn s, rfl, rfl, rfl, rfl, rfl, rfl, ?afterPowerOn⟩, rfl, rfl, rfl, rfl, rfl, ?atStart⟩
  case afterPowerOn => exact engineStep_eq_self (not_busy_powerOn s)
  case atStart => exact engineStep_eq_self not_busy_reset

end Sys2Proof.Machine
end
